-- ==== Sys2Proof/Word.lean ====
section
/-! DEFINITION. The word types of the block (00_scope.md R8, R11): every value is an unsigned bit vector. -/

namespace Sys2Proof

/-- `u8` (R11). -/
abbrev Byte := BitVec 8

/-- `u16` (R11): `cs.nonce_l`, and the width RLEN_W of `response_len` (R8, decision D44). -/
abbrev Half := BitVec 16

/-- `u32`, the parameter WORD of R8. `+` on it is the `+32` of R12, `>>>` and `<<<` the logical shifts. -/
abbrev Word := BitVec 32

/-- A 64-bit command word W (30_encoding.md R80(b), R88). -/
abbrev CmdWord := BitVec 64

/-- The 56 argument bits of SEND_CMD and of the frame W_RAW (R85, R89). -/
abbrev Args := BitVec 56

/-- One of the two values handed to the Cipher2 registers (R8, row C2_SEED). -/
abbrev SeedWord := BitVec 39

/-- The 8 command bytes on the wire, byte 0 sent first (R54, R93). -/
abbrev CmdBytes := Vector Byte 8

end Sys2Proof
end

