-- ==== Sys2Proof/Config.lean ====
section
/-! DEFINITION. What one block is built with (00_scope.md R8 to R10), and the free values of the model.
The OPEN parameters of R8 are fields of `Config`, a value of which stands in every state, so that a statement about
every state is a statement about every value of them (notes/assumptions 3).
DESIGN CHOICE marks below: notes/assumptions 3, 4, 5. -/

namespace Sys2Proof

/-- Feistel rounds (R8; 90_conflicts.md C1 resolves the document's 64 against 16; decision D4). -/
abbrev NR : Nat := 16

/-- Length of the P-array: one key a round and the two final XORs (R8). -/
abbrev PLEN : Nat := NR + 2

/-- Number of S-boxes (R8). -/
abbrev SBOX_COUNT : Nat := 4

/-- Entries of an S-box (R8). -/
abbrev SBOX_LEN : Nat := 256

/-- N, the words of a key schedule: 1042 (R8, 10_state.md R25). -/
abbrev KS_LEN : Nat := PLEN + SBOX_COUNT * SBOX_LEN

/-- CHUNK_MIN, the least block size of the slow read path (R8). -/
abbrev CHUNK_MIN : Nat := 4096

/-- VERIFY_EDGE, the bytes checked at each end by the fallback verification (R8). -/
abbrev VERIFY_EDGE : Nat := 4

/-- One past the largest 32-bit flash address (R8 ADDR_W, R174). -/
abbrev ADDR_SPACE : Nat := 2 ^ 32

/-- A key schedule: words 0..17 the P-array, word `18 + 256k + j` entry `j` of S-box `k` (R25, R64). -/
abbrev Schedule := Vector Word KS_LEN

/-- The schedule whose word `i` is `f i`. -/
def Schedule.ofNatFn (f : Nat → Word) : Schedule := ⟨((List.range KS_LEN).map f).toArray, by simp⟩

/-- TIMING_ID_C1, TIMING_ID_C2 or TIMING_MASK_C2 of one block, as plain data. R8 leaves each an OPEN total function:
`unknown` is that function, uninterpreted (`Config.openTiming…`); `mask keep set` is the one that keeps the bits of
`keep` and sets those of `set` (DESIGN CHOICE, so that 95_test_vectors.md's TC0 can be run; notes/assumptions 4). -/
inductive TimingFn where
  | unknown
  | mask (keep set : Word)
deriving DecidableEq, Repr

/-- TIMING_MERGE_C1 of one block: OPEN (R8), uninterpreted in `unknown`, else `(a & keepA) | (b & keepB) | set`. -/
inductive MergeFn where
  | unknown
  | mask (keepA keepB set : Word)
deriving DecidableEq, Repr

/-- C2_SEED of one block: OPEN (R8), uninterpreted in `unknown`, else the suggestion GK10 of
93_implementation_defined.md. -/
inductive SeedFn where
  | unknown
  | suggested
deriving DecidableEq, Repr

/-- The parameters of one block that R8 does not fix, with the constraints the spec puts on them carried as proofs
(R10: "In a model the configuration record carries the proof EP ≥ WP"; 93_implementation_defined.md U14, U18). -/
structure Config where
  /-- SEED_ROM; its length is NSEED (decision D11). -/
  seedRom : List Schedule
  /-- KS_PREMIX, decided true and kept as a parameter so that both readings can be run (decision D9). -/
  ksPremix : Bool
  opDummy : Byte
  opReadBlock : Byte
  opChipidRaw : Byte
  opActC1 : Byte
  opC1InitC2 : Byte
  opC1Chipid : Byte
  opC1ActC2 : Byte
  opC2Chipid : Byte
  idBlockLen : Half
  offGameCode : Nat
  offSeedByte : Nat
  offTC2 : Nat
  offTC1 : Nat
  dummyLen : Half
  timingSlow : Word
  timingRaw : Word
  timingIdC1 : TimingFn
  timingIdC2 : TimingFn
  timingMergeC1 : MergeFn
  timingMaskC2 : TimingFn
  c2Seed : SeedFn
  /-- RP, EP, WP, each in 0..31 (decision D31). -/
  rp : Fin 32
  ep : Fin 32
  wp : Fin 32
  /-- VBUF_SIZE (decision D34). -/
  vbufSize : Nat
  /-- NSEED is at least 1 (R8). -/
  nseed_pos : 0 < seedRom.length
  /-- The construction invariant of R10. -/
  wp_le_ep : wp ≤ ep
  /-- U18: every field of the identification block lies inside it. -/
  game_code_fits : offGameCode + 4 ≤ idBlockLen.toNat
  seed_byte_fits : offSeedByte + 1 ≤ idBlockLen.toNat
  t_c2_fits : offTC2 + 4 ≤ idBlockLen.toNat
  t_c1_fits : offTC1 + 4 ≤ idBlockLen.toNat
  /-- R91, U18: the three Cipher1 opcodes have a zero low nibble. -/
  init_c2_nibble : opC1InitC2.extractLsb' 0 4 = 0
  chipid_c1_nibble : opC1Chipid.extractLsb' 0 4 = 0
  act_c2_nibble : opC1ActC2.extractLsb' 0 4 = 0
deriving DecidableEq, Repr

/-- NSEED (R8). -/
def Config.nseed (c : Config) : Nat := c.seedRom.length

/-! The free values: no body, so no proof can lean on what they are. -/

/-- TIMING_ID_C1 where the block's is `unknown` (R8, decision D19). -/
opaque Config.openTimingIdC1 : Word → Word
/-- TIMING_ID_C2 where the block's is `unknown` (R8, decision D19). -/
opaque Config.openTimingIdC2 : Word → Word
/-- TIMING_MASK_C2 where the block's is `unknown` (R8, decision D19). -/
opaque Config.openTimingMaskC2 : Word → Word
/-- TIMING_MERGE_C1 where the block's is `unknown` (R8, decision D19). -/
opaque Config.openTimingMergeC1 : Word → Word → Word
/-- C2_SEED where the block's is `unknown` (R8, decision D22). -/
opaque Config.openC2Seed : Byte → Word → SeedWord × SeedWord
/-- Whether transaction number `k`, which no script answers, is answered `Ok` (R19, U6, U9, U11). -/
opaque Config.freeOk : Nat → Bool
/-- Byte `i` of the answer to transaction number `k`, where no script gives it (R19, U6, U9, U11). -/
opaque Config.freeByte : Nat → Nat → Byte

/-- Word `i` of the pattern seed of 95_test_vectors.md §0. -/
def Config.patWord (i : Nat) : Word := BitVec.ofNat 32 (i * 0x9E3779B1 + 0x01234567)

/-- The spec's own test configuration TC0 with the flash sizes of its instance FS (95_test_vectors.md §0).
DESIGN CHOICE: it is the configuration of `State.reset` (notes/assumptions 3); no rule depends on it. -/
def Config.tc0 : Config where
  seedRom := [Schedule.ofNatFn fun _ => 0, Schedule.ofNatFn Config.patWord]
  ksPremix := true
  opDummy := 0x9F
  opReadBlock := 0x00
  opChipidRaw := 0x90
  opActC1 := 0x3C
  opC1InitC2 := 0x40
  opC1Chipid := 0x10
  opC1ActC2 := 0xA0
  opC2Chipid := 0xB8
  idBlockLen := 0x200
  offGameCode := 0x0C
  offSeedByte := 0x13
  offTC2 := 0x60
  offTC1 := 0x64
  dummyLen := 0x2000
  timingSlow := 0x10000000
  timingRaw := 0x20000000
  timingIdC1 := .mask 0xFFFFFFFF 0
  timingIdC2 := .mask 0xFFFFFFFF 0
  timingMergeC1 := .mask 0xFFFF0000 0x0000FFFF 0
  timingMaskC2 := .mask 0x00FFFFFF 0
  c2Seed := .suggested
  rp := 0
  ep := 4
  wp := 2
  vbufSize := 64
  nseed_pos := by simp
  wp_le_ep := by decide
  game_code_fits := by decide
  seed_byte_fits := by decide
  t_c2_fits := by decide
  t_c1_fits := by decide
  init_c2_nibble := by decide
  chipid_c1_nibble := by decide
  act_c2_nibble := by decide

end Sys2Proof
end

