-- ==== Sys2Proof/Syntax.lean ====
section
/-! DEFINITION. The instructions: one constructor a row of spec/opcode_table.json. The first ten are the host's
operations (00_scope.md R2, 30_encoding.md R82), the next three the reserved selector ranges (R87), the last eleven the
command words the block sends to the cartridge (R95, R154). The host cannot ask for one of the eleven (10_state.md
R32): the operations send them (notes/assumptions 10). -/

namespace Sys2Proof

inductive Instr where
  /-- ENC `io0, io1` (41_cipher.md R126). -/
  | enc (io0 io1 : Word)
  /-- DEC `io0, io1` (R127). -/
  | dec (io0 io1 : Word)
  /-- KSBUILD `seed_sel, key0, key1, key2` (R128). -/
  | ksbuild (seedSel : Byte) (key0 key1 key2 : Word)
  /-- RESET_LINK (42_protocol.md R150). -/
  | resetLink
  /-- READ_ID (R151). -/
  | readId
  /-- BEGIN_C1 `seed_sel, ij, k, l` (R152). -/
  | beginC1 (seedSel : Byte) (ij k : Word) (l : Half)
  /-- BEGIN_C2 (R153). -/
  | beginC2
  /-- SEND_CMD `opcode, args, response_len` (R154). -/
  | sendCmd (opcode : Byte) (args : Args) (responseLen : Half)
  /-- FL_READ `start_address, length [, P]` (43_flash.md R173). -/
  | flRead (start length : Word) (progress : Bool)
  /-- FL_WRITE `dest_address, length [, P], src` (R178). -/
  | flWrite (dest length : Word) (progress : Bool) (src : List Byte)
  /-- OPSEL 0x0, with the bits of D0[27:0], D1, D2, D3 (R87(a)). -/
  | reserved0 (rest : BitVec 28) (d1 d2 d3 : Word)
  /-- OPSEL 0xB (R87(a)). -/
  | reservedB (rest : BitVec 28) (d1 d2 d3 : Word)
  /-- OPSEL 0xC to 0xF; `sel` is OPSEL's low two bits (R87(a)). -/
  | reservedCF (sel : BitVec 2) (rest : BitVec 28) (d1 d2 d3 : Word)
  /-- The dummy raw command of RESET_LINK (R95). -/
  | dummy
  /-- The raw "read block" command of READ_ID. -/
  | readBlock
  /-- The raw "read chip id" command of READ_ID. -/
  | chipidRaw
  /-- The raw "activate cipher1" command of BEGIN_C1 (frame W_ACT, R90). -/
  | actC1
  /-- The Cipher1-framed "init cipher2 seed" command of BEGIN_C1 (frame W_C1, R91). -/
  | c1InitC2
  /-- The Cipher1-framed chip-id query of BEGIN_C1. -/
  | c1Chipid
  /-- The Cipher1-framed "activate cipher2" command of BEGIN_C2. -/
  | c1ActC2
  /-- The Cipher2-framed chip-id query of BEGIN_C2 (frame W_C2, R92). -/
  | c2Chipid
  /-- What SEND_CMD sends in Raw (R154). -/
  | hostCmdRaw (opcode : Byte) (args : Args) (responseLen : Half)
  /-- What SEND_CMD sends in Cipher1. -/
  | hostCmdC1 (opcode : Byte) (args : Args) (responseLen : Half)
  /-- What SEND_CMD sends in Cipher2. -/
  | hostCmdC2 (opcode : Byte) (args : Args) (responseLen : Half)
deriving DecidableEq, Repr

end Sys2Proof
end

