-- ==== Sys2Proof/WellFormed.lean ====
section
/-! DEFINITION. Which instructions a block with configuration `c` accepts as requests. Every other width is in the
types of the operands; a reserved row is well-formed as a word and ends with ERR_ILLEGAL when it runs. -/

namespace Sys2Proof

/-- `seed_sel` below NSEED in KSBUILD and BEGIN_C1 (30_encoding.md R87(c)); as many data bytes as `length` says in
FL_WRITE (20_memory.md R53, 30_encoding.md R83). -/
def WellFormed (c : Config) : Instr → Bool
  | .enc _ _ => true
  | .dec _ _ => true
  | .ksbuild seedSel _ _ _ => decide (seedSel.toNat < c.nseed)
  | .resetLink => true
  | .readId => true
  | .beginC1 seedSel _ _ _ => decide (seedSel.toNat < c.nseed)
  | .beginC2 => true
  | .sendCmd _ _ _ => true
  | .flRead _ _ _ => true
  | .flWrite _ length _ src => decide (src.length = length.toNat)
  | .reserved0 _ _ _ _ => true
  | .reservedB _ _ _ _ => true
  | .reservedCF _ _ _ _ _ => true
  | .dummy => true
  | .readBlock => true
  | .chipidRaw => true
  | .actC1 => true
  | .c1InitC2 => true
  | .c1Chipid => true
  | .c1ActC2 => true
  | .c2Chipid => true
  | .hostCmdRaw _ _ _ => true
  | .hostCmdC1 _ _ _ => true
  | .hostCmdC2 _ _ _ => true

end Sys2Proof
end

