-- ==== Sys2Proof/Decode.lean ====
section
/-! DEFINITION. The two encodings (30_encoding.md R80): the host's descriptor (format H, R81 to R87) and the command
word on the wire (R88 to R95), each with its decoder and, after them, the encoder. -/

namespace Sys2Proof

/-- One request of the host: the words D0 to D3 of format H and, for FL_WRITE, the data stream after them (R80(a)). -/
structure Descriptor where
  d0 : Word
  d1 : Word
  d2 : Word
  d3 : Word
  src : List Byte
deriving DecidableEq, Repr

/-- The four frames of a command word (R80(b)). -/
inductive Frame where
  | raw
  | act
  | c1
  | c2
deriving DecidableEq, Repr

/-- A command word as its sender holds it: the frame it was built in, W before any encryption, and the response length
that goes with it to the Transport (R95). -/
structure WireWord where
  frame : Frame
  w : CmdWord
  rlen : Half
deriving DecidableEq, Repr

/-- What the frames read besides their operands: the opcodes of the block and the nonce registers (R90, R91). -/
structure WireCtx where
  cfg : Config
  nonceL : Half
  nonceIj : Word
  nonceCounter : Word
deriving DecidableEq, Repr

/-- What `step` fetches. `wire` is no move of the host (10_state.md R32): only `State.withFetchWord` places one, so that
a wire row of the table can be run by itself (notes/assumptions 10). -/
inductive Request where
  | descriptor (d : Descriptor)
  | wire (x : WireWord)
deriving DecidableEq, Repr

/-- Why a request decodes to no instruction. -/
inductive Reject where
  /-- A bit that R83 leaves unassigned is 1 (R87(b)): the block answers ERR_ILLEGAL. -/
  | mustBeZero
  /-- The data stream is not the one R53 and R80(a) allow: `length` bytes for FL_WRITE, none for the other operations. -/
  | dataStream
  /-- A command word that the block does not send in this context. -/
  | foreignWord
deriving DecidableEq, Repr

inductive Decoded where
  | ok (i : Instr)
  | rejected (r : Reject)
deriving DecidableEq, Repr

/-! ## The frames -/

/-- `FrameRaw(op8, args)` (R89, and R92 for W_C2). -/
def frameRaw (op8 : Byte) (args : Args) : CmdWord := op8 ++ args

/-- `FrameAct()` with the opcode and the two nonce registers as arguments (R90). -/
def frameAct (op8 : Byte) (ij counter : Word) : CmdWord :=
  op8 ++ ij.extractLsb' 0 24 ++ (0 : BitVec 4) ++ counter.extractLsb' 0 20 ++ (0 : BitVec 8)

/-- `FrameC1(op8, L)` with the two nonce registers as arguments (R91). -/
def frameC1 (op8 : Byte) (l : Half) (ij counter : Word) : CmdWord :=
  (op8.setWidth 64 <<< 56) ||| (l.setWidth 64 <<< 44) ||| ((ij.extractLsb' 0 24).setWidth 64 <<< 20)
    ||| (counter.extractLsb' 0 20).setWidth 64

/-- The `L` field of SEND_CMD in Cipher1: `args[15:0]` when non-zero, else `cs.nonce_l` (42_protocol.md R154). -/
def cmdL (nonceL : Half) (args : Args) : Half :=
  if args.extractLsb' 0 16 = 0 then nonceL else args.extractLsb' 0 16

/-- `args` = `D1[23:0] ‖ D2[31:0]` (R85). -/
def argsOf (d1 d2 : Word) : Args := d1.extractLsb' 0 24 ++ d2

/-! ## Decoding -/

/-- The instruction of a descriptor that carries no data stream. -/
def withoutData (d : Descriptor) (i : Instr) : Decoded :=
  if d.src = [] then .ok i else .rejected .dataStream

/-- Format H (R81 to R83), every unassigned bit checked (R87(b)). `seed_sel` against NSEED (R87(c)) is checked where the
operation starts, since it is no matter of the bits (notes/assumptions 13). -/
def decodeDescriptor (d : Descriptor) : Decoded :=
  match d.d0.extractLsb' 28 4 with
  | 0x0#4 => .ok (.reserved0 (d.d0.extractLsb' 0 28) d.d1 d.d2 d.d3)
  | 0x1#4 =>
    if d.d0.extractLsb' 0 28 = 0 ∧ d.d3 = 0 then withoutData d (.enc d.d1 d.d2) else .rejected .mustBeZero
  | 0x2#4 =>
    if d.d0.extractLsb' 0 28 = 0 ∧ d.d3 = 0 then withoutData d (.dec d.d1 d.d2) else .rejected .mustBeZero
  | 0x3#4 =>
    if d.d0.extractLsb' 8 20 = 0 then withoutData d (.ksbuild (d.d0.extractLsb' 0 8) d.d1 d.d2 d.d3)
    else .rejected .mustBeZero
  | 0x4#4 =>
    if d.d0.extractLsb' 0 28 = 0 ∧ d.d1 = 0 ∧ d.d2 = 0 ∧ d.d3 = 0 then withoutData d .resetLink
    else .rejected .mustBeZero
  | 0x5#4 =>
    if d.d0.extractLsb' 0 28 = 0 ∧ d.d1 = 0 ∧ d.d2 = 0 ∧ d.d3 = 0 then withoutData d .readId
    else .rejected .mustBeZero
  | 0x6#4 =>
    if d.d0.extractLsb' 24 4 = 0 ∧ d.d3 = 0 then
      withoutData d (.beginC1 (d.d0.extractLsb' 0 8) d.d1 d.d2 (d.d0.extractLsb' 8 16))
    else .rejected .mustBeZero
  | 0x7#4 =>
    if d.d0.extractLsb' 0 28 = 0 ∧ d.d1 = 0 ∧ d.d2 = 0 ∧ d.d3 = 0 then withoutData d .beginC2
    else .rejected .mustBeZero
  | 0x8#4 =>
    if d.d0.extractLsb' 16 12 = 0 ∧ d.d3 = 0 then
      withoutData d (.sendCmd (d.d1.extractLsb' 24 8) (argsOf d.d1 d.d2) (d.d0.extractLsb' 0 16))
    else .rejected .mustBeZero
  | 0x9#4 =>
    if d.d0.extractLsb' 1 27 = 0 ∧ d.d3 = 0 then withoutData d (.flRead d.d1 d.d2 (d.d0.getLsbD 0))
    else .rejected .mustBeZero
  | 0xA#4 =>
    if d.d0.extractLsb' 1 27 = 0 ∧ d.d3 = 0 then
      if d.src.length = d.d2.toNat then .ok (.flWrite d.d1 d.d2 (d.d0.getLsbD 0) d.src) else .rejected .dataStream
    else .rejected .mustBeZero
  | 0xB#4 => .ok (.reservedB (d.d0.extractLsb' 0 28) d.d1 d.d2 d.d3)
  | _ => .ok (.reservedCF (d.d0.extractLsb' 28 2) (d.d0.extractLsb' 0 28) d.d1 d.d2 d.d3)

/-- The row of a command word in its frame (R88 to R95): a command of the block's own where the word and the response
length are that command's, else what SEND_CMD sent. In W_C1 the fields of the nonce registers must be the registers'
(R91), and an `L` field of zero is possible only with `cs.nonce_l` = 0 (R154). `cs.status` is not looked at, neither here
nor in the meanings of Send.lean: a command word run by itself is sent in every stage, though the block chooses the
frame by the stage (R94; DESIGN CHOICE, notes/assumptions 10). The order of the tests: notes/assumptions 11. -/
def decodeWire (x : WireCtx) (y : WireWord) : Decoded :=
  match y.frame with
  | .raw =>
    if y.w = frameRaw x.cfg.opDummy 0 ∧ y.rlen = x.cfg.dummyLen then .ok .dummy
    else if y.w = frameRaw x.cfg.opReadBlock 0 ∧ y.rlen = x.cfg.idBlockLen then .ok .readBlock
    else if y.w = frameRaw x.cfg.opChipidRaw 0 ∧ y.rlen = 4 then .ok .chipidRaw
    else .ok (.hostCmdRaw (y.w.extractLsb' 56 8) (y.w.extractLsb' 0 56) y.rlen)
  | .act =>
    if y.w = frameAct x.cfg.opActC1 x.nonceIj x.nonceCounter ∧ y.rlen = 0 then .ok .actC1 else .rejected .foreignWord
  | .c1 =>
    if y.w = frameC1 x.cfg.opC1InitC2 x.nonceL x.nonceIj x.nonceCounter ∧ y.rlen = 0 then .ok .c1InitC2
    else if y.w = frameC1 x.cfg.opC1Chipid x.nonceL x.nonceIj x.nonceCounter ∧ y.rlen = 4 then .ok .c1Chipid
    else if y.w = frameC1 x.cfg.opC1ActC2 x.nonceL x.nonceIj x.nonceCounter ∧ y.rlen = 0 then .ok .c1ActC2
    else if y.w.extractLsb' 20 24 = x.nonceIj.extractLsb' 0 24
        ∧ y.w.extractLsb' 0 20 = x.nonceCounter.extractLsb' 0 20
        ∧ (y.w.extractLsb' 44 16 = 0 → x.nonceL = 0) then
      .ok (.hostCmdC1 (y.w.extractLsb' 60 4 ++ (0 : BitVec 4)) ((y.w.extractLsb' 44 16).setWidth 56) y.rlen)
    else .rejected .foreignWord
  | .c2 =>
    if y.w = frameRaw x.cfg.opC2Chipid 0 ∧ y.rlen = 4 then .ok .c2Chipid
    else .ok (.hostCmdC2 (y.w.extractLsb' 56 8) (y.w.extractLsb' 0 56) y.rlen)

/-- The decoder, total on every request. -/
def decode (x : WireCtx) : Request → Decoded
  | .descriptor d => decodeDescriptor d
  | .wire y => decodeWire x y

/-! ## Encoding -/

/-- The request that stands for an instruction: its descriptor, or its command word in the context `x`. -/
def encode (x : WireCtx) : Instr → Request
  | .enc io0 io1 => .descriptor ⟨0x1#4 ++ (0 : BitVec 28), io0, io1, 0, []⟩
  | .dec io0 io1 => .descriptor ⟨0x2#4 ++ (0 : BitVec 28), io0, io1, 0, []⟩
  | .ksbuild seedSel k0 k1 k2 => .descriptor ⟨0x3#4 ++ (0 : BitVec 20) ++ seedSel, k0, k1, k2, []⟩
  | .resetLink => .descriptor ⟨0x4#4 ++ (0 : BitVec 28), 0, 0, 0, []⟩
  | .readId => .descriptor ⟨0x5#4 ++ (0 : BitVec 28), 0, 0, 0, []⟩
  | .beginC1 seedSel ij k l => .descriptor ⟨0x6#4 ++ (0 : BitVec 4) ++ l ++ seedSel, ij, k, 0, []⟩
  | .beginC2 => .descriptor ⟨0x7#4 ++ (0 : BitVec 28), 0, 0, 0, []⟩
  | .sendCmd opcode args rlen =>
    .descriptor ⟨0x8#4 ++ (0 : BitVec 12) ++ rlen, opcode ++ args.extractLsb' 32 24, args.extractLsb' 0 32, 0, []⟩
  | .flRead start length progress =>
    .descriptor ⟨0x9#4 ++ (0 : BitVec 27) ++ BitVec.ofBool progress, start, length, 0, []⟩
  | .flWrite dest length progress src =>
    .descriptor ⟨0xA#4 ++ (0 : BitVec 27) ++ BitVec.ofBool progress, dest, length, 0, src⟩
  | .reserved0 rest d1 d2 d3 => .descriptor ⟨0x0#4 ++ rest, d1, d2, d3, []⟩
  | .reservedB rest d1 d2 d3 => .descriptor ⟨0xB#4 ++ rest, d1, d2, d3, []⟩
  | .reservedCF sel rest d1 d2 d3 => .descriptor ⟨0x3#2 ++ sel ++ rest, d1, d2, d3, []⟩
  | .dummy => .wire ⟨.raw, frameRaw x.cfg.opDummy 0, x.cfg.dummyLen⟩
  | .readBlock => .wire ⟨.raw, frameRaw x.cfg.opReadBlock 0, x.cfg.idBlockLen⟩
  | .chipidRaw => .wire ⟨.raw, frameRaw x.cfg.opChipidRaw 0, 4⟩
  | .actC1 => .wire ⟨.act, frameAct x.cfg.opActC1 x.nonceIj x.nonceCounter, 0⟩
  | .c1InitC2 => .wire ⟨.c1, frameC1 x.cfg.opC1InitC2 x.nonceL x.nonceIj x.nonceCounter, 0⟩
  | .c1Chipid => .wire ⟨.c1, frameC1 x.cfg.opC1Chipid x.nonceL x.nonceIj x.nonceCounter, 4⟩
  | .c1ActC2 => .wire ⟨.c1, frameC1 x.cfg.opC1ActC2 x.nonceL x.nonceIj x.nonceCounter, 0⟩
  | .c2Chipid => .wire ⟨.c2, frameRaw x.cfg.opC2Chipid 0, 4⟩
  | .hostCmdRaw opcode args rlen => .wire ⟨.raw, frameRaw opcode args, rlen⟩
  | .hostCmdC1 opcode args rlen => .wire ⟨.c1, frameC1 opcode (cmdL x.nonceL args) x.nonceIj x.nonceCounter, rlen⟩
  | .hostCmdC2 opcode args rlen => .wire ⟨.c2, frameRaw opcode args, rlen⟩

/-! ## The words of spec/opcode_table.json as numbers -/

/-- The command word of a table row at wire level: the frame and response length are those of the block's own command
with the opcode of `w`, and W_RAW with no response otherwise (notes/assumptions 12). -/
def tableWire (c : Config) (w : CmdWord) : WireWord :=
  let op8 := w.extractLsb' 56 8
  let opC1 := w.extractLsb' 60 4 ++ (0 : BitVec 4)
  if op8 = c.opDummy then ⟨.raw, w, c.dummyLen⟩
  else if op8 = c.opReadBlock then ⟨.raw, w, c.idBlockLen⟩
  else if op8 = c.opChipidRaw then ⟨.raw, w, 4⟩
  else if op8 = c.opActC1 then ⟨.act, w, 0⟩
  else if op8 = c.opC2Chipid then ⟨.c2, w, 4⟩
  else if opC1 = c.opC1InitC2 then ⟨.c1, w, 0⟩
  else if opC1 = c.opC1Chipid then ⟨.c1, w, 4⟩
  else if opC1 = c.opC1ActC2 then ⟨.c1, w, 0⟩
  else ⟨.raw, w, 0⟩

/-- The request whose bits are `w`, numbered as the table numbers them: D0 is bits 31..0, D1 bits 63..32, and so on; a
row of 64 bits is a command word. The bits above `nbits` are 0, and so are the bytes of FL_WRITE's data stream, of which
there are as many as D2 says. -/
def tableRequest (c : Config) (nbits w : Nat) : Request :=
  let v := w % 2 ^ nbits
  if nbits = 64 then .wire (tableWire c (BitVec.ofNat 64 v))
  else
    let d0 := BitVec.ofNat 32 v
    let d2 := BitVec.ofNat 32 (v >>> 64)
    .descriptor ⟨d0, BitVec.ofNat 32 (v >>> 32), d2, BitVec.ofNat 32 (v >>> 96),
      if d0.extractLsb' 28 4 = 0xA#4 then List.replicate d2.toNat 0 else []⟩

/-- The context in which a command word's nonce fields are the registers': the low bits of the registers are the word's,
the bits that reach no word (30_encoding.md R86) stay (notes/assumptions 12). -/
def fieldCtx (x : WireCtx) : Request → WireCtx
  | .descriptor _ => x
  | .wire y =>
    match y.frame with
    | .raw => x
    | .act =>
      { x with
        nonceIj := x.nonceIj.extractLsb' 24 8 ++ y.w.extractLsb' 32 24
        nonceCounter := x.nonceCounter.extractLsb' 20 12 ++ y.w.extractLsb' 8 20 }
    | .c1 =>
      { x with
        nonceL := y.w.extractLsb' 44 16
        nonceIj := x.nonceIj.extractLsb' 24 8 ++ y.w.extractLsb' 20 24
        nonceCounter := x.nonceCounter.extractLsb' 20 12 ++ y.w.extractLsb' 0 20 }
    | .c2 => x

/-- What the decoder reads from a table row's word, the registers being as the word has them. -/
def decodeTableWord (nbits w : Nat) : Option Instr :=
  let r := tableRequest Config.tc0 nbits w
  match decode (fieldCtx ⟨Config.tc0, 0, 0, 0⟩ r) r with
  | .ok i => some i
  | .rejected _ => none

end Sys2Proof
end

