-- ==== Sys2Proof/Machine/State.lean ====
section
/-! DEFINITION. The state of one block as plain data: the registers of 10_state.md §1 and §2, the host's side of it
(requests in, result record out), the answers of ports T and F (00_scope.md R14, R19), the ideal flash of
95_test_vectors.md §0, and the history of transactions. -/

namespace Sys2Proof.Machine

/-- `cs.status`, the handshake stage (10_state.md R21). There is no fourth value (93_implementation_defined.md U17). -/
inductive Status where
  | raw
  | cipher1
  | cipher2
deriving DecidableEq, Repr

/-- KEY[0..2] (R26). -/
structure Key where
  k0 : Word
  k1 : Word
  k2 : Word
deriving DecidableEq, Repr

/-- The `CardState` record (R20 to R31). -/
structure CardState where
  status : Status
  chipId : Word
  gameCode : Word
  keySeedByte : Byte
  ks : Schedule
  nonceCounter : Word
  nonceIj : Word
  nonceL : Half
  timingC1 : Word
  timingC2 : Word
deriving DecidableEq, Repr

/-- The result codes (60_exceptions.md R190). -/
inductive ResultCode where
  | ok
  | errIllegal
  | errState
  | errTransport
  | errHandshake
  | errPrimRead
  | errPrimErase
  | errPrimWrite
  | errVerify
  | errRange
deriving DecidableEq, Repr

/-- The `data` of a result record: a byte or word sequence (30_encoding.md R84); `bytes []` is the empty one. -/
inductive Data where
  | bytes (b : List Byte)
  | words (w : List Word)
deriving DecidableEq, Repr

/-- The result record (R84). -/
structure Result where
  code : ResultCode
  count : Word
  data : Data
deriving DecidableEq, Repr

/-- The answer of a port (R14). An `Ok` of a transaction that returns no bytes carries none. -/
inductive Reply where
  | fail
  | ok (bytes : List Byte)
deriving DecidableEq, Repr

/-- Transactions of the Transport port T (R14, 20_memory.md R54). -/
inductive TTxn where
  | send (cmd : CmdBytes) (rlen : Half) (timingFlags : Word)
  | reset
  /-- Never issued by any rule (R14, decision D41). The spec gives the microseconds no width; 32 bits are a DESIGN CHOICE
  (notes/assumptions 19). -/
  | delay (us : Word)
  | seedC2 (s0 s1 : SeedWord)
deriving DecidableEq, Repr

/-- Transactions of the device primitives, port F (R14, 20_memory.md R55). -/
inductive FTxn where
  | memRead (addr n : Nat)
  | memErase (addr : Nat)
  | memWrite (addr n : Nat) (v : List Byte)
deriving DecidableEq, Repr

inductive Txn where
  | t (x : TTxn)
  | f (x : FTxn)
deriving DecidableEq, Repr

/-- One transaction with the answer it got. -/
structure Event where
  txn : Txn
  reply : Reply
deriving DecidableEq, Repr

/-- What a script of port F holds for one transaction: the answer itself, which leaves the ideal flash alone (for an `Ok`
a DESIGN CHOICE, notes/assumptions 7), or `ideal`: the ideal flash answers (95_test_vectors.md §0). -/
inductive FReply where
  | fail
  | ok (bytes : List Byte)
  | ideal
deriving DecidableEq, Repr

/-- Who answers port F where the script has run out: nobody the model knows, or the ideal flash. -/
inductive FRest where
  | free
  | ideal
deriving DecidableEq, Repr

/-- What an address of the ideal flash reads as where the list has no entry: an erased byte, "set to all-ones"
(GLOSSARY; DESIGN CHOICE, notes/assumptions 7). -/
def erasedByte : Byte := 0xFF

/-- The contents of the ideal flash. -/
abbrev Memory := List Host.Cell

/-- The canonical form: addresses strictly rising, no entry equal to what an unlisted address reads as. -/
abbrev Memory.wf (m : Memory) : Prop := m.Pairwise (fun a b => a.1 < b.1) ∧ ∀ c ∈ m, c.2 ≠ erasedByte

/-- Everything behind the two ports that the model holds: the answers to come, the ideal flash, and how many transactions
were issued, which picks the free value where no script answers (00_scope.md R19; notes/assumptions 5). -/
structure Env where
  tScript : List Reply
  fScript : List FReply
  fRest : FRest
  flashSize : Nat
  flash : Memory
  draws : Nat
deriving DecidableEq, Repr

/-- One block between two operations. `cfg` is constant (00_scope.md R8); `requests`, `result`, `env` and `trace` are the
model's own (notes/assumptions 1, 5, 8). -/
structure State where
  /-- The parameters of the block, which no step changes. -/
  cfg : Config
  cs : CardState
  key : Key
  /-- Requests the host has presented, the first to run first. -/
  requests : List Request
  /-- The record the last operation returned (R84). -/
  result : Option Result
  env : Env
  /-- Every transaction so far, oldest first (20_memory.md R66). -/
  trace : List Event
deriving DecidableEq, Repr

/-- Nothing stops this machine with a fault: "Nothing in the core is fatal to the process" (60_exceptions.md R197), every
failure is a result code and a next state. So there is no constructor: no meaning raises one, which is safe. -/
inductive Fault
deriving DecidableEq, Repr

/-- Why a step is refused. -/
inductive Refusal where
  /-- An arm of `exec` that has no meaning yet; safe. No arm is left so. -/
  | notModelled (mnemonic : String)
  /-- Raised by `step` on a request whose data stream is not the `length` bytes of R53 (none, but for FL_WRITE): a host
  that presents one is outside the spec. Safe: no effect is claimed. -/
  | hostDataLength
  /-- Raised by `step` on a wire request with a word the block does not send in this state; no host can present one
  (R32). Safe. -/
  | foreignWireWord
deriving DecidableEq, Repr

/-- The `CardState` at reset. Raw is the spec's (R38); the zeros are a DESIGN CHOICE for values the spec calls
unspecified (notes/assumptions 2). -/
def CardState.reset : CardState where
  status := .raw
  chipId := 0
  gameCode := 0
  keySeedByte := 0
  ks := Schedule.ofNatFn fun _ => 0
  nonceCounter := 0
  nonceIj := 0
  nonceL := 0
  timingC1 := 0
  timingC2 := 0

/-- A block of configuration `c` right after reset: Raw, no operation asked for, no transaction issued, no result
(70_reset_and_hazards.md R220, R221). -/
def State.resetWith (c : Config) : State where
  cfg := c
  cs := CardState.reset
  key := ⟨0, 0, 0⟩
  requests := []
  result := none
  env := { tScript := [], fScript := [], fRest := .free, flashSize := 0, flash := [], draws := 0 }
  trace := []

/-- The machine right after reset, with TC0 for the OPEN parameters (DESIGN CHOICE, notes/assumptions 3). -/
def State.reset : State := State.resetWith Config.tc0

end Sys2Proof.Machine
end

