-- ==== Sys2Proof/Machine/Flags.lean ====
section
/-! DEFINITION. The block has no condition codes and no sticky flags (10_state.md R36); what stands in their place is the
numbering of `cs.status` and of the result codes, the `timing_flags` words and the chip-id comparison. -/

namespace Sys2Proof.Machine

/-- Raw = 0, Cipher1 = 1, Cipher2 = 2 (10_state.md R21, decision D36). -/
def statusBits : Status → BitVec 2
  | .raw => 0
  | .cipher1 => 1
  | .cipher2 => 2

/-- The 4-bit result code (60_exceptions.md R190). -/
def resultBits : ResultCode → BitVec 4
  | .ok => 0x0
  | .errIllegal => 0x1
  | .errState => 0x2
  | .errTransport => 0x3
  | .errHandshake => 0x4
  | .errPrimRead => 0x5
  | .errPrimErase => 0x6
  | .errPrimWrite => 0x7
  | .errVerify => 0x8
  | .errRange => 0x9

/-- The `timing_flags` of the two commands of READ_ID (42_protocol.md R144). -/
def slowFlags (s : State) : Word := s.cfg.timingSlow

/-- The `timing_flags` of every other raw-framed command (R144). -/
def rawFlags (s : State) : Word := s.cfg.timingRaw

/-- The `timing_flags` of a Cipher1-framed command: `cs.timing_c1` as it is now (R144). -/
def c1Flags (s : State) : Word := s.cs.timingC1

/-- The `timing_flags` of a Cipher2-framed command: `cs.timing_c2` as it is now (R144). -/
def c2Flags (s : State) : Word := s.cs.timingC2

/-- A table-given function of a timing word, or the uninterpreted one (00_scope.md R8, decision D19). -/
def applyTiming (openFn : Word → Word) : TimingFn → Word → Word
  | .unknown, x => openFn x
  | .mask keep set, x => (x &&& keep) ||| set

/-- TIMING_ID_C1 (R8). -/
def timingIdC1 (c : Config) (x : Word) : Word := applyTiming Config.openTimingIdC1 c.timingIdC1 x

/-- TIMING_ID_C2 (R8). -/
def timingIdC2 (c : Config) (x : Word) : Word := applyTiming Config.openTimingIdC2 c.timingIdC2 x

/-- TIMING_MASK_C2 (R8). -/
def timingMaskC2 (c : Config) (x : Word) : Word := applyTiming Config.openTimingMaskC2 c.timingMaskC2 x

/-- TIMING_MERGE_C1 (R8). -/
def timingMergeC1 (c : Config) (a b : Word) : Word :=
  match c.timingMergeC1 with
  | .unknown => Config.openTimingMergeC1 a b
  | .mask keepA keepB set => (a &&& keepA) ||| (b &&& keepB) ||| set

end Sys2Proof.Machine
end

