-- ==== Sys2Proof/Machine/Operands.lean ====
section
/-! DEFINITION. Operand forms: byte order, the key words, the Cipher2 seed, the frames as the registers fill them, and the
sizes of the flash (00_scope.md R12, R16; 20_memory.md R57; 42_protocol.md R143 to R145; 43_flash.md R170). -/

namespace Sys2Proof.Machine

/-- `bswap32` (R12). -/
def bswap32 (x : Word) : Word :=
  x.extractLsb' 0 8 ++ x.extractLsb' 8 8 ++ x.extractLsb' 16 8 ++ x.extractLsb' 24 8

/-- `LE32` of the four bytes at offset `off` (R16): the byte at the lowest offset is the least significant. -/
def le32At (b : List Byte) (off : Nat) : Word :=
  b.getD (off + 3) 0 ++ b.getD (off + 2) 0 ++ b.getD (off + 1) 0 ++ b.getD off 0

/-- `ToBytes(W)`: most significant byte first (R16, R93). -/
def toBytes (w : CmdWord) : CmdBytes :=
  #v[w.extractLsb' 56 8, w.extractLsb' 48 8, w.extractLsb' 40 8, w.extractLsb' 32 8,
     w.extractLsb' 24 8, w.extractLsb' 16 8, w.extractLsb' 8 8, w.extractLsb' 0 8]

/-- `DeriveKey(g)` = (g, g >> 1, g << 1) (42_protocol.md R143). -/
def deriveKey (g : Word) : Key := ⟨g, g >>> 1, g <<< 1⟩

/-- The "index parity" of R125 note (e): even entries take KEY[0], odd ones KEY[1]. -/
def keyParity (k : Key) (i : Nat) : Word := if i % 2 = 0 then k.k0 else k.k1

/-- The eight-entry table of the suggestion GK10 (93_implementation_defined.md). -/
def seedByteTable (i : BitVec 3) : Byte :=
  match i with
  | 0#3 => 0xE8
  | 1#3 => 0x4D
  | 2#3 => 0x5A
  | 3#3 => 0xB1
  | 4#3 => 0x17
  | 5#3 => 0x8F
  | 6#3 => 0x99
  | _ => 0xD5

/-- C2_SEED(key_seed_byte, nonce_ij) (R8, decision D22). -/
def c2Seed (c : Config) (seedByte : Byte) (ij : Word) : SeedWord × SeedWord :=
  match c.c2Seed with
  | .unknown => Config.openC2Seed seedByte ij
  | .suggested =>
    (((ij.extractLsb' 0 24).setWidth 39 <<< 15) ||| 0x6000 ||| (seedByteTable (seedByte.extractLsb' 0 3)).setWidth 39,
     0x5C879B9B05)

/-- `FrameAct()` (R90). -/
def actWord (s : State) : CmdWord := frameAct s.cfg.opActC1 s.cs.nonceIj s.cs.nonceCounter

/-- `FrameC1(op8, L)` (R91), with the counter as it is now. -/
def c1Word (s : State) (op8 : Byte) (l : Half) : CmdWord := frameC1 op8 l s.cs.nonceIj s.cs.nonceCounter

/-- What the frames read of the state. -/
def wireCtx (s : State) : WireCtx := ⟨s.cfg, s.cs.nonceL, s.cs.nonceIj, s.cs.nonceCounter⟩

/-! The sizes of R170. -/

/-- G = 2^RP. -/
def gran (c : Config) : Nat := 2 ^ c.rp.val

/-- E = 2^EP. -/
def erasePage (c : Config) : Nat := 2 ^ c.ep.val

/-- W = 2^WP. -/
def writePage (c : Config) : Nat := 2 ^ c.wp.val

/-- CH = max(4096, G). -/
def chunk (c : Config) : Nat := max CHUNK_MIN (gran c)

/-- `align_down(a, e)` (R12). -/
def alignDown (a e : Nat) : Nat := a - a % e

/-- `align_up(a, e)`, and `roundup(a, e)`: the least multiple of `e` that is at least `a` (R12). -/
def alignUp (a e : Nat) : Nat := (a + (e - 1)) / e * e

end Sys2Proof.Machine
end

