-- ==== Sys2Proof/Machine/Ops.lean ====
section
/-! DEFINITION. The shared operations: how an operation ends (00_scope.md R15, 60_exceptions.md R201), the transactions of
ports T and F with the answers they get (R14, R19), the ideal flash (95_test_vectors.md §0), and fetching a request. -/

namespace Sys2Proof.Machine

/-! ## Ending an operation -/

/-- Hand the result record to the host (30_encoding.md R84). The one write every operation ends with. -/
def finish (r : Result) (s : State) : State := { s with result := some r }

/-- `return OK()` with no data (R15). -/
def returnOk (s : State) : State := finish ⟨.ok, 0, .bytes []⟩ s

/-- `raise <Code>()` (R15, R201): the block's way of taking an exception. The operation ends with the code, nothing is saved,
no mode changes, no handler runs, and what was written before stays. There is no return from it (R203). -/
def raiseCode (code : ResultCode) (s : State) : State := finish ⟨code, 0, .bytes []⟩ s

/-- `return OK(count, data)` with bytes. -/
def returnBytes (b : List Byte) (s : State) : State := finish ⟨.ok, BitVec.ofNat 32 b.length, .bytes b⟩ s

/-- `raise <Code>(count, data)` with the bytes already delivered (43_flash.md R173). -/
def raiseBytes (code : ResultCode) (b : List Byte) (s : State) : State :=
  finish ⟨code, BitVec.ofNat 32 b.length, .bytes b⟩ s

/-! ## Answers -/

/-- The answer that no script gives: free (R19). `k` numbers the transaction, `n` is how many bytes an `Ok` carries. -/
def freeReply (k n : Nat) : Reply :=
  if Config.freeOk k then .ok ((List.range n).map (Config.freeByte k)) else .fail

/-- A scripted answer as the port gives it: an `Ok` carries exactly `n` bytes (R14, U7), the script's first and, where it
has too few, free ones (notes/assumptions 6). -/
def fitReply (k n : Nat) : Reply → Reply
  | .fail => .fail
  | .ok b => .ok (b.take n ++ (List.range' b.length (n - b.length)).map (Config.freeByte k))

/-- The answer to the `j`-th transaction from now on port T, if it asks for `n` bytes. -/
def tReply (e : Env) (j n : Nat) : Reply :=
  match e.tScript[j]? with
  | some r => fitReply (e.draws + j) n r
  | none => freeReply (e.draws + j) n

/-! ## The ideal flash -/

/-- One byte of the flash. -/
def flashByte : Memory → Nat → Byte
  | [], _ => erasedByte
  | c :: m, a => if c.1 = a then c.2 else flashByte m a

/-- Set one byte, keeping the canonical form. -/
def flashSet : Memory → Nat → Byte → Memory
  | [], a, b => if b = erasedByte then [] else [(a, b)]
  | c :: m, a, b =>
    if c.1 < a then c :: flashSet m a b
    else if c.1 = a then (if b = erasedByte then m else (a, b) :: m)
    else (if b = erasedByte then c :: m else (a, b) :: c :: m)

/-- `n` bytes from `a` on. -/
def flashBytes (m : Memory) (a n : Nat) : List Byte := (List.range n).map fun i => flashByte m (a + i)

/-- Erase `n` bytes from `a` on: all-ones is what an unlisted address reads as. -/
def flashErase (m : Memory) (a n : Nat) : Memory := m.filter fun c => !(decide (a ≤ c.1) && decide (c.1 < a + n))

/-- Program the bytes of `v` from `a` on: a write can only clear bits, `mem[a+t] <- mem[a+t] & v[t]`. -/
def flashProgram : Memory → Nat → List Byte → Memory
  | m, _, [] => m
  | m, a, b :: v => flashProgram (flashSet m a (flashByte m a &&& b)) (a + 1) v

/-- What IF(size, init) answers and leaves (95_test_vectors.md §0). The spec does not say what a `MemErase` or a `MemWrite`
that would pass the end of the device is answered, nor what it leaves: here `Fail`, and the flash as it was (DESIGN
CHOICE, notes/assumptions 7). -/
def idealFlash (c : Config) (e : Env) : FTxn → Reply × Memory
  | .memRead a n => if a + n ≤ e.flashSize then (.ok (flashBytes e.flash a n), e.flash) else (.fail, e.flash)
  | .memErase a =>
    if a + erasePage c ≤ e.flashSize then (.ok [], flashErase e.flash a (erasePage c)) else (.fail, e.flash)
  | .memWrite a n v => if a + n ≤ e.flashSize then (.ok [], flashProgram e.flash a v) else (.fail, e.flash)

/-- How many bytes an `Ok` to a transaction of port F carries (R14). -/
def fBytes : FTxn → Nat
  | .memRead _ n => n
  | .memErase _ => 0
  | .memWrite _ _ _ => 0

/-- The answer to a transaction of port F and the flash after it. Its contents change only where the ideal flash
answers: 95_test_vectors.md §0 says so of a scripted `Fail`; that a scripted or free `Ok`, and a free `Fail`, leave it as
it was is a DESIGN CHOICE (notes/assumptions 7). -/
def fAnswer (c : Config) (e : Env) (x : FTxn) : Reply × Memory :=
  match e.fScript with
  | .fail :: _ => (.fail, e.flash)
  | .ok b :: _ => (fitReply e.draws (fBytes x) (.ok b), e.flash)
  | .ideal :: _ => idealFlash c e x
  | [] =>
    match e.fRest with
    | .free => (freeReply e.draws (fBytes x), e.flash)
    | .ideal => idealFlash c e x

/-! ## Transactions -/

/-- Issue one transaction on port T and take its answer (R14, 20_memory.md R66). -/
def issueT (x : TTxn) (n : Nat) (s : State) : Reply × State :=
  (tReply s.env 0 n,
   { s with
     env := { s.env with tScript := s.env.tScript.tail, draws := s.env.draws + 1 }
     trace := s.trace ++ [⟨.t x, tReply s.env 0 n⟩] })

/-- `T.send(b, rlen, tf)`. -/
def tSend (cmd : CmdBytes) (rlen : Half) (tf : Word) (s : State) : Reply × State :=
  issueT (.send cmd rlen tf) rlen.toNat s

/-- `T.reset()`. -/
def tReset (s : State) : Reply × State := issueT .reset 0 s

/-- `T.seed_c2(s0, s1)`. -/
def tSeedC2 (v : SeedWord × SeedWord) (s : State) : Reply × State := issueT (.seedC2 v.1 v.2) 0 s

/-- Issue one transaction on port F and take its answer. -/
def issueF (x : FTxn) (s : State) : Reply × State :=
  ((fAnswer s.cfg s.env x).1,
   { s with
     env := { s.env with
       fScript := s.env.fScript.tail
       flash := (fAnswer s.cfg s.env x).2
       draws := s.env.draws + 1 }
     trace := s.trace ++ [⟨.f x, (fAnswer s.cfg s.env x).1⟩] })

/-- `MemRead(addr, n)`. -/
def memRead (addr n : Nat) (s : State) : Reply × State := issueF (.memRead addr n) s

/-- `MemErase(addr)`. -/
def memErase (addr : Nat) (s : State) : Reply × State := issueF (.memErase addr) s

/-- `MemWrite(addr, n, v)`. -/
def memWrite (addr n : Nat) (v : List Byte) (s : State) : Reply × State := issueF (.memWrite addr n v) s

/-! ## Register writes -/

/-- `cs.status <- st`. -/
def setStatus (st : Status) (s : State) : State := { s with cs := { s.cs with status := st } }

/-- `cs.nonce_counter <- cs.nonce_counter +32 1` (42_protocol.md R147; it wraps, 10_state.md R27). -/
def bumpCounter (s : State) : State := { s with cs := { s.cs with nonceCounter := s.cs.nonceCounter + 1 } }

/-- `KS` and `KEY` written together. -/
def setSchedule (p : Schedule × Key) (s : State) : State := { s with cs := { s.cs with ks := p.1 }, key := p.2 }

/-! ## Requests -/

/-- The next request and the state once it is taken. -/
def fetch (s : State) : Option (Request × State) :=
  match s.requests with
  | [] => none
  | r :: rest => some (r, { s with requests := rest })

/-- A request that decodes to no instruction: an illegal descriptor ends with ERR_ILLEGAL and no other effect (30_encoding.md
R87); the other two are no request the block can be given (notes/assumptions 9, 10). -/
def onReject (r : Reject) (s : State) : Host.Outcome State Fault Refusal :=
  match r with
  | .mustBeZero => .next (raiseCode .errIllegal s)
  | .dataStream => .refused .hostDataLength
  | .foreignWord => .refused .foreignWireWord

end Sys2Proof.Machine
end

