-- ==== Sys2Proof/Machine/Flash.lean ====
section
/-! DEFINITION. The flash sequencer (43_flash.md): `Read` with its fast and slow path, the page loop with the erase-skip
decision, the verification, and the operations FL_READ and FL_WRITE. The loops of the rules are recursions over the list
of what they visit, in order (notes/assumptions 16). -/

namespace Sys2Proof.Machine

/-! ## Reading -/

/-- What `Read` returns (R171): whether it succeeded, the bytes transferred and those bytes. -/
structure ReadOut where
  ok : Bool
  n : Nat
  data : List Byte
deriving DecidableEq, Repr

/-- One block of a read: the request `MemRead(addr, n)` of which `keep` bytes are delivered. -/
structure ReadBlk where
  addr : Nat
  n : Nat
  keep : Nat
deriving DecidableEq, Repr

/-- The blocks of the slow path in order, counted from `start`: whole ones of CH bytes, then the final partial one, asked
for in whole granules (R172). -/
def slowBlocks (c : Config) (start len : Nat) : List ReadBlk :=
  ((List.range (len / chunk c)).map fun b => ⟨start + b * chunk c, chunk c, chunk c⟩)
    ++ if len % chunk c = 0 then []
       else [⟨start + len / chunk c * chunk c, alignUp (len % chunk c) (gran c), len % chunk c⟩]

/-- What `Read(start, len, progress)` asks port F for while nothing fails: on the fast path one `MemRead`, whatever the
length (R171), else the blocks of the slow path (R172). `progress` has no other effect (R183). -/
def readPlan (c : Config) (start len : Nat) (progress : Bool) : List ReadBlk :=
  if c.rp = 0 ∧ progress = false then [⟨start, len, len⟩] else slowBlocks c start len

/-- The loop over the blocks with what it has so far: it stops at the first failed primitive (R172). -/
def readBlocks : List ReadBlk → Nat → List Byte → State → ReadOut × State
  | [], n, data, s => (⟨true, n, data⟩, s)
  | b :: bs, n, data, s =>
    let r := memRead b.addr b.n s
    match r.1 with
    | .fail => (⟨false, n, data⟩, r.2)
    | .ok bytes => readBlocks bs (n + b.keep) (data ++ bytes.take b.keep) r.2

/-- `Read(start, len, progress)` (R171, R172): success only if `len` bytes were transferred. -/
def readRange (start len : Nat) (progress : Bool) (s : State) : ReadOut × State :=
  let r := readBlocks (readPlan s.cfg start len progress) 0 [] s
  (⟨r.1.ok && decide (r.1.n = len), r.1.n, r.1.data⟩, r.2)

/-- The range check (R174). -/
def rangeOk (addr len : Word) : Bool := decide (addr.toNat + len.toNat ≤ ADDR_SPACE)

/-- The state FL_READ leaves (R173). -/
def flRead (start len : Word) (progress : Bool) (s : State) : State :=
  if rangeOk start len then
    let r := readRange start.toNat len.toNat progress s
    if r.1.ok then finish ⟨.ok, BitVec.ofNat 32 r.1.n, .bytes r.1.data⟩ r.2
    else finish ⟨.errPrimRead, BitVec.ofNat 32 r.1.n, .bytes r.1.data⟩ r.2
  else raiseCode .errRange s

/-- FL_READ (R173). -/
def execFlRead (start length : Word) (progress : Bool) (s : State) : Host.Outcome State Fault Refusal :=
  .next (flRead start length progress s)

/-! ## Writing -/

/-- What FL_WRITE was asked to do, in naturals (R182). -/
structure WriteJob where
  dest : Nat
  len : Nat
  src : List Byte
deriving DecidableEq, Repr

/-- `end` of R175. -/
def WriteJob.stop (j : WriteJob) : Nat := j.dest + j.len

/-- The number of erase pages the range touches (R175). -/
def pageCount (c : Config) (j : WriteJob) : Nat := (j.len + j.dest % erasePage c + (erasePage c - 1)) / erasePage c

/-- The addresses of those pages, ascending from `p0` (R175). -/
def pageList (c : Config) (j : WriteJob) : List Nat :=
  (List.range (pageCount c j)).map fun i => alignDown j.dest (erasePage c) + i * erasePage c

/-- First spliced offset in the page at `p` (R176). -/
def spliceLo (j : WriteJob) (p : Nat) : Nat := max j.dest p - p

/-- One past the last spliced offset in the page at `p` (R176). -/
def spliceHi (c : Config) (j : WriteJob) (p : Nat) : Nat := min j.stop (p + erasePage c) - p

/-- `NB`: the page with the new bytes in their place (R176). -/
def splice (c : Config) (j : WriteJob) (p : Nat) (pb : List Byte) : List Byte :=
  let lo := spliceLo j p
  let hi := spliceHi c j p
  pb.take lo ++ (j.src.drop (p + lo - j.dest)).take (hi - lo) ++ pb.drop hi

/-- Bytes `[k·W, (k+1)·W)` of a page. -/
def subPage (c : Config) (nb : List Byte) (k : Nat) : List Byte := (nb.drop (k * writePage c)).take (writePage c)

/-- The write pages of the erase page at `p` in ascending order, to the first that fails (R176). -/
def writeSubPages (p : Nat) (nb : List Byte) : List Nat → State → Option ResultCode × State
  | [], s => (none, s)
  | k :: ks, s =>
    let r := memWrite (p + k * writePage s.cfg) (writePage s.cfg) (subPage s.cfg nb k) s
    match r.1 with
    | .fail => (some .errPrimWrite, r.2)
    | .ok _ => writeSubPages p nb ks r.2

/-- Erase the page at `p` and write all of it (R176). -/
def rewritePage (p : Nat) (nb : List Byte) (s : State) : Option ResultCode × State :=
  let r := memErase p s
  match r.1 with
  | .fail => (some .errPrimErase, r.2)
  | .ok _ => writeSubPages p nb (List.range (erasePage s.cfg / writePage s.cfg)) r.2

/-- One turn of the page loop (R176): read, splice, and rewrite only what differs. `none` is: go on. -/
def doPage (j : WriteJob) (p : Nat) (s : State) : Option ResultCode × State :=
  let r := readRange p (erasePage s.cfg) false s
  if r.1.ok then
    if splice s.cfg j p r.1.data = r.1.data then (none, r.2)
    else rewritePage p (splice s.cfg j p r.1.data) r.2
  else (some .errPrimRead, r.2)

/-- The page loop (R176). -/
def doPages (j : WriteJob) : List Nat → State → Option ResultCode × State
  | [], s => (none, s)
  | p :: ps, s =>
    let r := doPage j p s
    match r.1 with
    | some code => (some code, r.2)
    | none => doPages j ps r.2

/-- One comparison of the verification: read `len` bytes at `addr` and compare (R177). -/
def checkRange (addr len : Nat) (want : List Byte) (s : State) : Option ResultCode × State :=
  let r := readRange addr len false s
  if r.1.ok then (if r.1.data = want then (none, r.2) else (some .errVerify, r.2)) else (some .errPrimRead, r.2)

/-- `m` of R177. -/
def edgeLen (j : WriteJob) : Nat := min VERIFY_EDGE j.len

/-- The fallback verification: the first and the last `m` bytes (R177). -/
def verifyEdges (j : WriteJob) (s : State) : Option ResultCode × State :=
  let a := checkRange j.dest (edgeLen j) (j.src.take (edgeLen j)) s
  match a.1 with
  | some code => (some code, a.2)
  | none => checkRange (j.stop - edgeLen j) (edgeLen j) ((j.src.drop (j.len - edgeLen j)).take (edgeLen j)) a.2

/-- The verification (R177). -/
def verify (j : WriteJob) (s : State) : Option ResultCode × State :=
  if j.len = 0 then (none, s)
  else if j.len ≤ s.cfg.vbufSize then checkRange j.dest j.len j.src s
  else verifyEdges j s

/-- The page loop and then the verification (R178). -/
def runJob (j : WriteJob) (s : State) : Option ResultCode × State :=
  let r := doPages j (pageList s.cfg j) s
  match r.1 with
  | some code => (some code, r.2)
  | none => verify j r.2

/-- The operands of FL_WRITE as a job. -/
def jobOf (dest len : Word) (src : List Byte) : WriteJob := ⟨dest.toNat, len.toNat, src⟩

/-- The state FL_WRITE leaves (R178); `show_progress` has no effect on it. -/
def flWrite (dest len : Word) (src : List Byte) (s : State) : State :=
  if rangeOk dest len then
    let r := runJob (jobOf dest len src) s
    match r.1 with
    | some code => raiseCode code r.2
    | none => returnOk r.2
  else raiseCode .errRange s

/-- FL_WRITE (R178). -/
def execFlWrite (dest length : Word) (_progress : Bool) (src : List Byte) (s : State) :
    Host.Outcome State Fault Refusal :=
  .next (flWrite dest length src s)

end Sys2Proof.Machine
end

