-- ==== Sys2Proof/Machine/Cipher.lean ====
section
/-! DEFINITION. The block cipher and its key schedule (41_cipher.md): `F`, `Enc`, `Dec`, `KS_LOAD`, `KS_APPLY`, `KS_SETUP`
and the operations ENC, DEC, KSBUILD. -/

namespace Sys2Proof.Machine

/-! ## The network -/

/-- Round key `i` of a schedule (10_state.md R25). -/
def pWord (S : Schedule) (i : Fin PLEN) : Word :=
  S[i.val]'(by have := i.isLt; simp only [KS_LEN, PLEN, NR, SBOX_COUNT, SBOX_LEN] at *; omega)

/-- Entry `j` of S-box `k` (R25, 41_cipher.md R121, R132). -/
def sWord (S : Schedule) (k : Fin SBOX_COUNT) (j : Byte) : Word :=
  S[PLEN + SBOX_LEN * k.val + j.toNat]'(by
    have := j.isLt; have := k.isLt; simp only [KS_LEN, PLEN, NR, SBOX_COUNT, SBOX_LEN] at *; omega)

/-- `F(S, z)` (R121). -/
def roundF (S : Schedule) (z : Word) : Word :=
  ((sWord S 0 (z.extractLsb' 24 8) + sWord S 1 (z.extractLsb' 16 8)) ^^^ sWord S 2 (z.extractLsb' 8 8))
    + sWord S 3 (z.extractLsb' 0 8)

/-- One round on the pair (X, Y) with round key `i` (R122). -/
def feistelRound (S : Schedule) (xy : Word × Word) (i : Fin PLEN) : Word × Word :=
  (roundF S (pWord S i ^^^ xy.1) ^^^ xy.2, pWord S i ^^^ xy.1)

/-- The round keys of `Enc` in order: 0, 1, …, NR − 1. -/
def encRounds : List (Fin PLEN) := (List.finRange PLEN).take NR

/-- The round keys of `Dec` in order: NR + 1, NR, …, 2. -/
def decRounds : List (Fin PLEN) := (List.finRange PLEN).reverse.take NR

/-- `Enc(S, (w0, w1))` (R122). -/
def enc (S : Schedule) (w : Word × Word) : Word × Word :=
  let r := encRounds.foldl (feistelRound S) (w.2, w.1)
  (r.1 ^^^ pWord S ⟨NR, by decide⟩, r.2 ^^^ pWord S ⟨NR + 1, by decide⟩)

/-- `Dec(S, (w0, w1))` (R123). -/
def dec (S : Schedule) (w : Word × Word) : Word × Word :=
  let r := decRounds.foldl (feistelRound S) (w.2, w.1)
  (r.1 ^^^ pWord S 1, r.2 ^^^ pWord S 0)

/-- `EncryptWord(W)` under a schedule (42_protocol.md R146). -/
def encryptWord (S : Schedule) (w : CmdWord) : CmdWord :=
  let e := enc S (w.extractLsb' 0 32, w.extractLsb' 32 32)
  e.2 ++ e.1

/-! ## The key schedule -/

/-- Step 0 of `KS_APPLY`: the key words encrypted with the current schedule, (KEY[1], KEY[2]) and then (KEY[0], KEY[1]), the
second with the KEY[1] the first wrote (R125 note (a)). -/
def premixKey (S : Schedule) (k : Key) : Key :=
  let a := enc S (k.k1, k.k2)
  let b := enc S (k.k0, a.1)
  ⟨b.1, b.2, a.2⟩

/-- Step 1 for one entry: `KS[i] <- KS[i] ^ bswap32(KEY[i mod 2])`. -/
def xorEntry (k : Key) (S : Schedule) (i : Fin PLEN) : Schedule :=
  S.set i.val (pWord S i ^^^ bswap32 (keyParity k i.val))
    (by have := i.isLt; simp only [KS_LEN, PLEN, NR, SBOX_COUNT, SBOX_LEN] at *; omega)

/-- Step 1 of `KS_APPLY`, over the P-array. -/
def xorKey (k : Key) (S : Schedule) : Schedule := (List.finRange PLEN).foldl (xorEntry k) S

/-- Pairs of the schedule: 521. -/
abbrev KS_PAIRS : Nat := KS_LEN / 2

/-- Step 2 for the pair `i = 2j`, on the schedule as it is now and the working pair (R125 notes (c), (d)). -/
def remixPair (st : Schedule × (Word × Word)) (j : Fin KS_PAIRS) : Schedule × (Word × Word) :=
  let p := enc st.1 st.2
  ((st.1.set (2 * j.val) p.2
      (by have := j.isLt; simp only [KS_PAIRS, KS_LEN, PLEN, NR, SBOX_COUNT, SBOX_LEN] at *; omega)).set (2 * j.val + 1) p.1
      (by have := j.isLt; simp only [KS_PAIRS, KS_LEN, PLEN, NR, SBOX_COUNT, SBOX_LEN] at *; omega), p)

/-- Step 2 of `KS_APPLY`, from the working pair (0, 0) over the whole array (R125 notes (b), (d)). -/
def remix (S : Schedule) : Schedule := ((List.finRange KS_PAIRS).foldl remixPair (S, (0, 0))).1

/-- `KS_APPLY()` as a function of KS_PREMIX and of what `KS` and `KEY` hold (R125). -/
def ksPass (premix : Bool) (p : Schedule × Key) : Schedule × Key :=
  let k := if premix then premixKey p.1 p.2 else p.2
  (remix (xorKey k p.1), k)

/-- `KS_LOAD` of a seed schedule and a key (R124). -/
def ksLoad (seed : Schedule) (k : Key) (s : State) : State := setSchedule (seed, k) s

/-- `KS_APPLY()` (R125). -/
def ksApply (s : State) : State := setSchedule (ksPass s.cfg.ksPremix (s.cs.ks, s.key)) s

/-- `KS_SETUP`: the seed copied once, the pass applied twice (R129). -/
def ksSetup (seed : Schedule) (k : Key) (s : State) : State := ksApply (ksApply (ksLoad seed k s))

/-- SEED_ROM[`seed_sel`], where there is one: none is the illegal descriptor of 30_encoding.md R87(c). -/
def seedOf (c : Config) (seedSel : Byte) : Option Schedule := c.seedRom[seedSel.toNat]?

/-! ## The operations -/

/-- ENC (R126). -/
def execEnc (io0 io1 : Word) (s : State) : Host.Outcome State Fault Refusal :=
  let r := enc s.cs.ks (io0, io1)
  .next (finish ⟨.ok, 0, .words [r.1, r.2]⟩ s)

/-- DEC (R127). -/
def execDec (io0 io1 : Word) (s : State) : Host.Outcome State Fault Refusal :=
  let r := dec s.cs.ks (io0, io1)
  .next (finish ⟨.ok, 0, .words [r.1, r.2]⟩ s)

/-- The state KSBUILD leaves (R128): illegal before state (60_exceptions.md R200). -/
def ksbuild (seedSel : Byte) (k : Key) (s : State) : State :=
  match seedOf s.cfg seedSel with
  | none => raiseCode .errIllegal s
  | some seed =>
    match s.cs.status with
    | .raw => returnOk (ksApply (ksLoad seed k s))
    | .cipher1 => raiseCode .errState s
    | .cipher2 => raiseCode .errState s

/-- KSBUILD (R128). -/
def execKsbuild (seedSel : Byte) (key0 key1 key2 : Word) (s : State) : Host.Outcome State Fault Refusal :=
  .next (ksbuild seedSel ⟨key0, key1, key2⟩ s)

end Sys2Proof.Machine
end

