-- ==== Sys2Proof/Machine/Send.lean ====
section
/-! DEFINITION. Sending one framed command (42_protocol.md R144 to R148): the eleven rows of the wire command map
(30_encoding.md R95, R154) as instructions. Each is the transaction the operations of Link.lean issue, with its answer. -/

namespace Sys2Proof.Machine

/-- Send a raw-framed command: the frame as built, no counter (R89, R92, R148). `tf` is the stage's `timing_flags`. -/
def sendRaw (op8 : Byte) (args : Args) (rlen : Half) (tf : Word) (s : State) : Reply × State :=
  tSend (toBytes (frameRaw op8 args)) rlen tf s

/-- Send the raw "activate cipher1" command (R90, R148). -/
def sendAct (s : State) : Reply × State := tSend (toBytes (actWord s)) 0 (rawFlags s) s

/-- `C1_CMD(op8, L, rlen)` (R147): framed with the counter as it is now, encrypted, and the counter advanced whatever the
answer. -/
def c1Cmd (op8 : Byte) (l : Half) (rlen : Half) (s : State) : Reply × State :=
  let a := tSend (toBytes (encryptWord s.cs.ks (c1Word s op8 l))) rlen (c1Flags s) s
  (a.1, bumpCounter a.2)

/-! The block's own commands (R95), as the operations issue them. -/

def sendDummy (s : State) : Reply × State := sendRaw s.cfg.opDummy 0 s.cfg.dummyLen (rawFlags s) s

def sendReadBlock (s : State) : Reply × State := sendRaw s.cfg.opReadBlock 0 s.cfg.idBlockLen (slowFlags s) s

def sendChipidRaw (s : State) : Reply × State := sendRaw s.cfg.opChipidRaw 0 4 (slowFlags s) s

def sendC1InitC2 (s : State) : Reply × State := c1Cmd s.cfg.opC1InitC2 s.cs.nonceL 0 s

def sendC1Chipid (s : State) : Reply × State := c1Cmd s.cfg.opC1Chipid s.cs.nonceL 4 s

def sendC1ActC2 (s : State) : Reply × State := c1Cmd s.cfg.opC1ActC2 s.cs.nonceL 0 s

def sendC2Chipid (s : State) : Reply × State := sendRaw s.cfg.opC2Chipid 0 4 (c2Flags s) s

/-- What SEND_CMD sends in Raw (R154). -/
def sendHostRaw (op8 : Byte) (args : Args) (rlen : Half) (s : State) : Reply × State :=
  sendRaw op8 args rlen (rawFlags s) s

/-- What SEND_CMD sends in Cipher1: of `args` only the low 16 bits, and those only when non-zero (R154). -/
def sendHostC1 (op8 : Byte) (args : Args) (rlen : Half) (s : State) : Reply × State :=
  c1Cmd op8 (cmdL s.cs.nonceL args) rlen s

/-- What SEND_CMD sends in Cipher2 (R154). -/
def sendHostC2 (op8 : Byte) (args : Args) (rlen : Half) (s : State) : Reply × State :=
  sendRaw op8 args rlen (c2Flags s) s

/-! The rows as instructions: one transaction each, whatever `cs.status` is (DESIGN CHOICE, notes/assumptions 10). They
return no result record, which is an operation's (R84). -/

def execDummy (s : State) : Host.Outcome State Fault Refusal := .next (sendDummy s).2

def execReadBlock (s : State) : Host.Outcome State Fault Refusal := .next (sendReadBlock s).2

def execChipidRaw (s : State) : Host.Outcome State Fault Refusal := .next (sendChipidRaw s).2

def execActC1 (s : State) : Host.Outcome State Fault Refusal := .next (sendAct s).2

def execC1InitC2 (s : State) : Host.Outcome State Fault Refusal := .next (sendC1InitC2 s).2

def execC1Chipid (s : State) : Host.Outcome State Fault Refusal := .next (sendC1Chipid s).2

def execC1ActC2 (s : State) : Host.Outcome State Fault Refusal := .next (sendC1ActC2 s).2

def execC2Chipid (s : State) : Host.Outcome State Fault Refusal := .next (sendC2Chipid s).2

def execHostCmdRaw (opcode : Byte) (args : Args) (rlen : Half) (s : State) : Host.Outcome State Fault Refusal :=
  .next (sendHostRaw opcode args rlen s).2

def execHostCmdC1 (opcode : Byte) (args : Args) (rlen : Half) (s : State) : Host.Outcome State Fault Refusal :=
  .next (sendHostC1 opcode args rlen s).2

def execHostCmdC2 (opcode : Byte) (args : Args) (rlen : Half) (s : State) : Host.Outcome State Fault Refusal :=
  .next (sendHostC2 opcode args rlen s).2

end Sys2Proof.Machine
end

