-- ==== Sys2Proof/Machine/Link.lean ====
section
/-! DEFINITION. The protocol engine's operations (42_protocol.md §3): RESET_LINK, READ_ID, BEGIN_C1, BEGIN_C2, SEND_CMD.
Each step of a rule's pseudocode is a line here, in its order. -/

namespace Sys2Proof.Machine

/-- The state RESET_LINK leaves (R150). -/
def resetLink (s : State) : State :=
  let a := tReset s
  match a.1 with
  | .fail => raiseCode .errTransport a.2
  | .ok _ =>
    let b := sendDummy a.2
    returnOk (setStatus .raw b.2)

/-- RESET_LINK (R150). -/
def execResetLink (s : State) : Host.Outcome State Fault Refusal := .next (resetLink s)

/-- The five registers READ_ID writes, from the identification block `b` and the chip-id response `c` (R151, 20_memory.md
R65). -/
def loadId (b c : List Byte) (s : State) : State :=
  { s with cs := { s.cs with
      gameCode := le32At b s.cfg.offGameCode
      keySeedByte := b.getD s.cfg.offSeedByte 0
      timingC1 := timingIdC1 s.cfg (le32At b s.cfg.offTC1)
      timingC2 := timingIdC2 s.cfg (le32At b s.cfg.offTC2)
      chipId := le32At c 0 } }

/-- READ_ID once the state test has passed (R151). -/
def readIdRaw (s : State) : State :=
  let a := sendReadBlock s
  match a.1 with
  | .fail => raiseCode .errTransport a.2
  | .ok b =>
    let d := sendChipidRaw a.2
    match d.1 with
    | .fail => raiseCode .errTransport d.2
    | .ok c => returnOk (loadId b c d.2)

/-- The state READ_ID leaves (R151, R142). -/
def readId (s : State) : State :=
  match s.cs.status with
  | .raw => readIdRaw s
  | .cipher1 => raiseCode .errState s
  | .cipher2 => raiseCode .errState s

/-- READ_ID (R151). -/
def execReadId (s : State) : Host.Outcome State Fault Refusal := .next (readId s)

/-- Step 2 of BEGIN_C1: the session values of the operands (R152). -/
def loadNonces (ij k : Word) (l : Half) (s : State) : State :=
  { s with cs := { s.cs with nonceIj := ij, nonceCounter := k, nonceL := l } }

/-- Step 5 of BEGIN_C1 (R152). -/
def mergeTimingC1 (s : State) : State :=
  { s with cs := { s.cs with timingC1 := timingMergeC1 s.cfg s.cs.timingC1 s.cs.timingC2 } }

/-- Step 3 of BEGIN_C2 (R153). -/
def maskTimingC2 (s : State) : State :=
  { s with cs := { s.cs with timingC2 := timingMaskC2 s.cfg s.cs.timingC2 } }

/-- Whether a chip-id response is the id READ_ID kept: all 32 bits equal (R145). -/
def idMatches (r : List Byte) (s : State) : Bool := le32At r 0 == s.cs.chipId

/-- Steps 9 to 13 of BEGIN_C1 (R152). -/
def beginC1Query (s : State) : State :=
  let r := sendC1Chipid s
  match r.1 with
  | .fail => raiseCode .errTransport r.2
  | .ok b => if idMatches b r.2 then returnOk (setStatus .cipher1 r.2) else raiseCode .errHandshake r.2

/-- Steps 7 and 8 of BEGIN_C1, and the rest (R152). -/
def beginC1Seed (s : State) : State :=
  let r := tSeedC2 (c2Seed s.cfg s.cs.keySeedByte s.cs.nonceIj) s
  match r.1 with
  | .fail => raiseCode .errTransport r.2
  | .ok _ => beginC1Query r.2

/-- Steps 5 and 6 of BEGIN_C1, and the rest (R152). -/
def beginC1Init (s : State) : State :=
  let r := sendC1InitC2 (mergeTimingC1 s)
  match r.1 with
  | .fail => raiseCode .errTransport r.2
  | .ok _ => beginC1Seed r.2

/-- Steps 2 to 4 of BEGIN_C1, and the rest (R152). -/
def beginC1Raw (seed : Schedule) (ij k : Word) (l : Half) (s : State) : State :=
  let s2 := loadNonces ij k l s
  let r := sendAct (ksSetup seed (deriveKey s2.cs.gameCode) s2)
  match r.1 with
  | .fail => raiseCode .errTransport r.2
  | .ok _ => beginC1Init r.2

/-- The state BEGIN_C1 leaves (R152): illegal, then state, then its steps (60_exceptions.md R200). -/
def beginC1 (seedSel : Byte) (ij k : Word) (l : Half) (s : State) : State :=
  match seedOf s.cfg seedSel with
  | none => raiseCode .errIllegal s
  | some seed =>
    match s.cs.status with
    | .raw => beginC1Raw seed ij k l s
    | .cipher1 => raiseCode .errState s
    | .cipher2 => raiseCode .errState s

/-- BEGIN_C1 (R152). -/
def execBeginC1 (seedSel : Byte) (ij k : Word) (l : Half) (s : State) : Host.Outcome State Fault Refusal :=
  .next (beginC1 seedSel ij k l s)

/-- Steps 3 to 8 of BEGIN_C2 (R153). -/
def beginC2Query (s : State) : State :=
  let r := sendC2Chipid (maskTimingC2 s)
  match r.1 with
  | .fail => raiseCode .errTransport r.2
  | .ok b => if idMatches b r.2 then returnOk (setStatus .cipher2 r.2) else raiseCode .errHandshake r.2

/-- The state BEGIN_C2 leaves (R153). -/
def beginC2 (s : State) : State :=
  match s.cs.status with
  | .raw => raiseCode .errState s
  | .cipher1 =>
    let r := sendC1ActC2 s
    match r.1 with
    | .fail => raiseCode .errTransport r.2
    | .ok _ => beginC2Query r.2
  | .cipher2 => raiseCode .errState s

/-- BEGIN_C2 (R153). -/
def execBeginC2 (s : State) : Host.Outcome State Fault Refusal := .next (beginC2 s)

/-- The transaction of SEND_CMD: the frame is chosen by `cs.status` alone (30_encoding.md R94). -/
def sendByStatus (op8 : Byte) (args : Args) (rlen : Half) (s : State) : Reply × State :=
  match s.cs.status with
  | .raw => sendHostRaw op8 args rlen s
  | .cipher1 => sendHostC1 op8 args rlen s
  | .cipher2 => sendHostC2 op8 args rlen s

/-- The state SEND_CMD leaves (R154). -/
def sendCmd (op8 : Byte) (args : Args) (rlen : Half) (s : State) : State :=
  let r := sendByStatus op8 args rlen s
  match r.1 with
  | .fail => raiseCode .errTransport r.2
  | .ok b => returnBytes b r.2

/-- SEND_CMD (R154). -/
def execSendCmd (opcode : Byte) (args : Args) (responseLen : Half) (s : State) : Host.Outcome State Fault Refusal :=
  .next (sendCmd opcode args responseLen s)

end Sys2Proof.Machine
end

