-- ==== Sys2Proof/Machine/Reserved.lean ====
section
/-! DEFINITION. The reserved selectors (30_encoding.md R87(a)): the descriptor is illegal and ends at once with
ERR_ILLEGAL; no state is written, no transaction is issued. -/

namespace Sys2Proof.Machine

/-- OPSEL 0x0. -/
def execReserved0 (_rest : BitVec 28) (_d1 _d2 _d3 : Word) (s : State) : Host.Outcome State Fault Refusal :=
  .next (raiseCode .errIllegal s)

/-- OPSEL 0xB. -/
def execReservedB (_rest : BitVec 28) (_d1 _d2 _d3 : Word) (s : State) : Host.Outcome State Fault Refusal :=
  .next (raiseCode .errIllegal s)

/-- OPSEL 0xC to 0xF. -/
def execReservedCF (_sel : BitVec 2) (_rest : BitVec 28) (_d1 _d2 _d3 : Word) (s : State) :
    Host.Outcome State Fault Refusal :=
  .next (raiseCode .errIllegal s)

end Sys2Proof.Machine
end

