-- ==== Sys2Proof/Machine/Dispatch.lean ====
section
/-! DEFINITION. One arm a constructor of `Instr`, each one call of its meaning. -/

namespace Sys2Proof.Machine

def exec (i : Instr) (s : State) : Host.Outcome State Fault Refusal :=
  match i with
  | .enc io0 io1 => Sys2Proof.Machine.execEnc io0 io1 s
  | .dec io0 io1 => Sys2Proof.Machine.execDec io0 io1 s
  | .ksbuild seedSel key0 key1 key2 => Sys2Proof.Machine.execKsbuild seedSel key0 key1 key2 s
  | .resetLink => Sys2Proof.Machine.execResetLink s
  | .readId => Sys2Proof.Machine.execReadId s
  | .beginC1 seedSel ij k l => Sys2Proof.Machine.execBeginC1 seedSel ij k l s
  | .beginC2 => Sys2Proof.Machine.execBeginC2 s
  | .sendCmd opcode args responseLen => Sys2Proof.Machine.execSendCmd opcode args responseLen s
  | .flRead start length progress => Sys2Proof.Machine.execFlRead start length progress s
  | .flWrite dest length progress src => Sys2Proof.Machine.execFlWrite dest length progress src s
  | .reserved0 rest d1 d2 d3 => Sys2Proof.Machine.execReserved0 rest d1 d2 d3 s
  | .reservedB rest d1 d2 d3 => Sys2Proof.Machine.execReservedB rest d1 d2 d3 s
  | .reservedCF sel rest d1 d2 d3 => Sys2Proof.Machine.execReservedCF sel rest d1 d2 d3 s
  | .dummy => Sys2Proof.Machine.execDummy s
  | .readBlock => Sys2Proof.Machine.execReadBlock s
  | .chipidRaw => Sys2Proof.Machine.execChipidRaw s
  | .actC1 => Sys2Proof.Machine.execActC1 s
  | .c1InitC2 => Sys2Proof.Machine.execC1InitC2 s
  | .c1Chipid => Sys2Proof.Machine.execC1Chipid s
  | .c1ActC2 => Sys2Proof.Machine.execC1ActC2 s
  | .c2Chipid => Sys2Proof.Machine.execC2Chipid s
  | .hostCmdRaw opcode args responseLen => Sys2Proof.Machine.execHostCmdRaw opcode args responseLen s
  | .hostCmdC1 opcode args responseLen => Sys2Proof.Machine.execHostCmdC1 opcode args responseLen s
  | .hostCmdC2 opcode args responseLen => Sys2Proof.Machine.execHostCmdC2 opcode args responseLen s

end Sys2Proof.Machine
end

