-- ==== Sys2Proof/Machine/Step.lean ====
section
/-! DEFINITION. One step: the block takes the host's next request and runs it to its end (00_scope.md R19, 20_memory.md
R62, R66). With no request it waits (70_reset_and_hazards.md R220). -/

namespace Sys2Proof.Machine

def step (s : State) : Host.Outcome State Fault Refusal :=
  match fetch s with
  | none => .next s
  | some (r, s1) =>
    match decode (wireCtx s1) r with
    | .ok i => exec i s1
    | .rejected why => onReject why s1

/-- The state whose next step runs the instruction with the bits `w`: its request stands first, and for a command word
the nonce registers are those its fields carry, since the block sends no other (notes/assumptions 12). -/
def State.withFetchWord (s : State) (nbits w : Nat) : State :=
  let r := tableRequest s.cfg nbits w
  let x := fieldCtx (wireCtx s) r
  { s with
    cs := { s.cs with nonceL := x.nonceL, nonceIj := x.nonceIj, nonceCounter := x.nonceCounter }
    requests := r :: s.requests }

end Sys2Proof.Machine
end

