-- ==== Sys2Proof/Safety.lean ====
section
/-! DEFINITION. What counts as a safe run, in the terms the statements use: the moves a host has, what every transaction
on the ports looks like, the invariant of the machine, and the words for what an operation adds to the history. -/

namespace Sys2Proof.Machine

/-! ## The host's moves -/

/-- A request the host can present (10_state.md R32, 20_memory.md R53): a descriptor with the data stream its operation
takes. It need not be a legal descriptor. -/
def HostMove : Request → Prop
  | .descriptor d => decodeDescriptor d ≠ .rejected .dataStream
  | .wire _ => False

/-! ## Descriptors -/

/-- OPSEL (30_encoding.md R81). -/
def opselOf (d : Descriptor) : BitVec 4 := d.d0.extractLsb' 28 4

/-- A bit that R83 leaves unassigned in the sub-format of the descriptor's operation is 1 (R87(b)). -/
def UnassignedBit (d : Descriptor) : Prop :=
  ((opselOf d = 1 ∨ opselOf d = 2) ∧ (d.d0 &&& 0x0FFFFFFF ≠ 0 ∨ d.d3 ≠ 0)) ∨
  (opselOf d = 3 ∧ d.d0 &&& 0x0FFFFF00 ≠ 0) ∨
  ((opselOf d = 4 ∨ opselOf d = 5 ∨ opselOf d = 7) ∧
    (d.d0 &&& 0x0FFFFFFF ≠ 0 ∨ d.d1 ≠ 0 ∨ d.d2 ≠ 0 ∨ d.d3 ≠ 0)) ∨
  (opselOf d = 6 ∧ (d.d0 &&& 0x0F000000 ≠ 0 ∨ d.d3 ≠ 0)) ∨
  (opselOf d = 8 ∧ (d.d0 &&& 0x0FFF0000 ≠ 0 ∨ d.d3 ≠ 0)) ∨
  ((opselOf d = 9 ∨ opselOf d = 10) ∧ (d.d0 &&& 0x0FFFFFFE ≠ 0 ∨ d.d3 ≠ 0))

/-- The illegal descriptors (R87): a reserved selector, an unassigned bit, or a seed there is not. -/
def IllegalDescriptor (c : Config) (d : Descriptor) : Prop :=
  (opselOf d = 0 ∨ 11 ≤ (opselOf d).toNat) ∨ UnassignedBit d ∨
  ((opselOf d = 3 ∨ opselOf d = 6) ∧ c.nseed ≤ (d.d0.extractLsb' 0 8).toNat)

/-! ## Transactions -/

/-- An answer carries as many bytes as were asked for (00_scope.md R14, 93_implementation_defined.md U7). -/
def replyFits (n : Nat) : Reply → Prop
  | .fail => True
  | .ok b => b.length = n

/-- What every transaction and its answer obey: exactly the requested bytes come back (R14, R54, R55), `T.delay` is never
issued (R14), an erase is at a multiple of E and a write at a multiple of W and W bytes long (20_memory.md R59), and
no address is beyond the 32-bit space (43_flash.md R182). -/
def eventOk (c : Config) (e : Event) : Prop :=
  match e.txn with
  | .t (.send _ rlen _) => replyFits rlen.toNat e.reply
  | .t .reset => replyFits 0 e.reply
  | .t (.delay _) => False
  | .t (.seedC2 _ _) => replyFits 0 e.reply
  | .f (.memRead addr n) => addr < ADDR_SPACE ∧ replyFits n e.reply
  | .f (.memErase addr) => addr % erasePage c = 0 ∧ addr < ADDR_SPACE ∧ replyFits 0 e.reply
  | .f (.memWrite addr n v) =>
    addr % writePage c = 0 ∧ addr < ADDR_SPACE ∧ n = writePage c ∧ v.length = writePage c ∧ replyFits 0 e.reply

/-- The flash in canonical form and inside the address space. -/
def FlashInv (m : Memory) : Prop := m.wf ∧ ∀ c ∈ m, c.1 < ADDR_SPACE

/-- The invariant of the machine: the flash is canonical, and every transaction ever issued was a proper one. -/
def Inv (s : State) : Prop := FlashInv s.env.flash ∧ ∀ e ∈ s.trace, eventOk s.cfg e

/-! ## Results -/

/-- The record of an operation that ends with `code` and neither count nor data. -/
def plainResult (code : ResultCode) : Result := ⟨code, 0, .bytes []⟩

/-- The record SEND_CMD returns for an answer (30_encoding.md R84, 42_protocol.md R154). -/
def sendResult (rlen : Half) : Reply → Result
  | .fail => plainResult .errTransport
  | .ok b => ⟨.ok, rlen.setWidth 32, .bytes b⟩

/-- The code of the last result record. -/
def codeOf (s : State) : Option ResultCode := s.result.map (·.code)

/-! ## The environment after transactions -/

/-- The environment once `n` transactions of port T were answered. -/
def afterT (e : Env) (n : Nat) : Env := { e with tScript := e.tScript.drop n, draws := e.draws + n }

/-- The environment once port F has answered `x`. -/
def afterF (c : Config) (e : Env) (x : FTxn) : Env :=
  { e with fScript := e.fScript.tail, flash := (fAnswer c e x).2, draws := e.draws + 1 }

/-- The ideal flash of 95_test_vectors.md §0 answers every transaction of port F, and has `size` bytes. -/
def IdealPort (e : Env) (size : Nat) : Prop := e.fScript = [] ∧ e.fRest = .ideal ∧ e.flashSize = size

/-! ## Histories -/

/-- The addresses of the erases in a piece of history, in order. -/
def erasesOf (evs : List Event) : List Nat :=
  evs.filterMap fun e => match e.txn with
    | .f (.memErase a) => some a
    | .f (.memRead _ _) => none
    | .f (.memWrite _ _ _) => none
    | .t _ => none

/-- The addresses of the writes in a piece of history, in order. -/
def writesOf (evs : List Event) : List Nat :=
  evs.filterMap fun e => match e.txn with
    | .f (.memWrite a _ _) => some a
    | .f (.memRead _ _) => none
    | .f (.memErase _) => none
    | .t _ => none

/-- The transaction that asks for a block of a read. -/
def blkTxn (b : ReadBlk) : Txn := .f (.memRead b.addr b.n)

/-- The bytes that a piece of history delivers for the blocks it answers (43_flash.md R172). -/
def delivered (bs : List ReadBlk) (evs : List Event) : List Byte :=
  (bs.zip evs).flatMap fun p => match p.2.reply with
    | .fail => []
    | .ok d => d.take p.1.keep

/-- `evs` is a whole successful `Read` along `plan` that delivered `data` (R171, R172). -/
def ReadRun (plan : List ReadBlk) (data : List Byte) (evs : List Event) : Prop :=
  evs.map (·.txn) = plan.map blkTxn ∧ (∀ e ∈ evs, e.reply ≠ .fail) ∧ delivered plan evs = data

/-- The transactions that erase the page at `p` and write `nb` to it, write page by write page (R176). -/
def rewriteTxns (c : Config) (p : Nat) (nb : List Byte) : List Txn :=
  .f (.memErase p) :: (List.range (erasePage c / writePage c)).map fun k =>
    .f (.memWrite (p + k * writePage c) (writePage c) (subPage c nb k))

/-- `evs` is one successful turn of the page loop for the page at `p` (R176): it was read as `pb`; the new contents either
equal `pb`, and nothing else happened, or they do not, and the page was erased and wholly written. -/
def PageRun (c : Config) (j : WriteJob) (p : Nat) (evs : List Event) : Prop :=
  ∃ pb rs ws, evs = rs ++ ws ∧ ReadRun (readPlan c p (erasePage c) false) pb rs ∧ pb.length = erasePage c ∧
    ((splice c j p pb = pb ∧ ws = []) ∨
     (splice c j p pb ≠ pb ∧ ws.map (·.txn) = rewriteTxns c p (splice c j p pb) ∧ ∀ e ∈ ws, e.reply ≠ .fail))

/-- `evs` is a successful verification (R177). -/
def VerifyRun (c : Config) (j : WriteJob) (evs : List Event) : Prop :=
  if j.len = 0 then evs = []
  else if j.len ≤ c.vbufSize then ReadRun (readPlan c j.dest j.len false) j.src evs
  else ∃ as bs, evs = as ++ bs ∧
    ReadRun (readPlan c j.dest (edgeLen j) false) (j.src.take (edgeLen j)) as ∧
    ReadRun (readPlan c (j.stop - edgeLen j) (edgeLen j) false) (j.src.drop (j.len - edgeLen j)) bs

/-- `evs` went along `plan` in order up to its first failed transaction, the last of them (60_exceptions.md R202). -/
def StoppedRun (plan : List Txn) (evs : List Event) : Prop :=
  ∃ good bad, evs = good ++ [bad] ∧ bad.reply = .fail ∧ (∀ e ∈ good, e.reply ≠ .fail) ∧ evs.map (·.txn) <+: plan

/-- `evs` is a turn of the page loop for the page at `p` that ended the operation with `code` (R176): its read failed; or
it was read as `pb`, the new contents differ, and the erase, the first of the rewriting transactions, or one of the
writes failed. -/
def PageStop (c : Config) (j : WriteJob) (p : Nat) (code : ResultCode) (evs : List Event) : Prop :=
  (code = .errPrimRead ∧ StoppedRun ((readPlan c p (erasePage c) false).map blkTxn) evs) ∨
  ∃ pb rs ws, evs = rs ++ ws ∧ ReadRun (readPlan c p (erasePage c) false) pb rs ∧ pb.length = erasePage c ∧
    splice c j p pb ≠ pb ∧ StoppedRun (rewriteTxns c p (splice c j p pb)) ws ∧
    code = if ws.length = 1 then .errPrimErase else .errPrimWrite

/-- `evs` is a comparison of the verification that ended the operation with `code` (R177): the read failed, or it delivered
other bytes than `want`. -/
def CheckStop (c : Config) (addr len : Nat) (want : List Byte) (code : ResultCode) (evs : List Event) : Prop :=
  (code = .errPrimRead ∧ StoppedRun ((readPlan c addr len false).map blkTxn) evs) ∨
  (code = .errVerify ∧ ∃ got, got ≠ want ∧ ReadRun (readPlan c addr len false) got evs)

/-- `evs` is a verification that ended the operation with `code` (R177). -/
def VerifyStop (c : Config) (j : WriteJob) (code : ResultCode) (evs : List Event) : Prop :=
  j.len ≠ 0 ∧
  if j.len ≤ c.vbufSize then CheckStop c j.dest j.len j.src code evs
  else CheckStop c j.dest (edgeLen j) (j.src.take (edgeLen j)) code evs ∨
    ∃ as bs, evs = as ++ bs ∧ ReadRun (readPlan c j.dest (edgeLen j) false) (j.src.take (edgeLen j)) as ∧
      CheckStop c (j.stop - edgeLen j) (edgeLen j) (j.src.drop (j.len - edgeLen j)) code bs

/-- The new bytes of the job where the range covers `a`, else what `m` holds there. -/
def writtenByte (m : Memory) (j : WriteJob) (a : Nat) : Byte :=
  if j.dest ≤ a ∧ a < j.stop then j.src.getD (a - j.dest) 0 else flashByte m a

end Sys2Proof.Machine
end

