-- ==== Sys2Proof/Certificates/Slice0/Obligations.lean ====
section
/-! DEFINITION. The statements for the provers, in the order of OBLIGATIONS.json. -/

open Sys2Proof Sys2Proof.Machine

/-! ## Reset, steps, invariants -/

/-- 70_reset_and_hazards.md R220: after reset `cs.status` = Raw, no operation is running, and the parameters are as
constructed; R221: neither port was touched. Holds of a block of every configuration. -/
def Obligations.ResetIsRawAndIdle : Prop :=
  ∀ c : Config, (State.resetWith c).cs.status = .raw ∧ (State.resetWith c).cfg = c ∧
    (State.resetWith c).requests = [] ∧ (State.resetWith c).result = none ∧ (State.resetWith c).trace = [] ∧
    step (State.resetWith c) = .next (State.resetWith c)

/-- The invariant holds after reset. -/
def Obligations.ResetMeetsInv : Prop :=
  Inv State.reset ∧ ∀ c : Config, Inv (State.resetWith c)

/-- Every step keeps the invariant: the flash stays canonical and inside the address space, and every transaction issued
is a proper one (00_scope.md R14; 20_memory.md R54, R55, R59; 43_flash.md R182). -/
def Obligations.StepKeepsInv : Prop :=
  ∀ s t : State, Inv s → step s = .next t → Inv t

/-- The parameters of the block are constants (10_state.md R37, R38). -/
def Obligations.StepKeepsConfig : Prop :=
  ∀ s t : State, step s = .next t → t.cfg = s.cfg

/-- 42_protocol.md R140: the initial value and the complete transition relation of `cs.status`. -/
def Obligations.StatusTransitionsComplete : Prop :=
  (∀ c : Config, (State.resetWith c).cs.status = .raw) ∧ ∀ (i : Instr) (s t : State), exec i s = .next t →
    (t.cs.status = s.cs.status ∨
     (s.cs.status = .raw ∧ t.cs.status = .cipher1 ∧ ∃ sel ij k l, i = .beginC1 sel ij k l) ∨
     (s.cs.status = .cipher1 ∧ t.cs.status = .cipher2 ∧ i = .beginC2) ∨
     (t.cs.status = .raw ∧ i = .resetLink ∧ ∃ b, tReply s.env 0 0 = .ok b)) ∧
    (∀ sel ij k l, i = .beginC1 sel ij k l → (codeOf t = some .ok ↔ s.cs.status = .raw ∧ t.cs.status = .cipher1)) ∧
    (i = .beginC2 → (codeOf t = some .ok ↔ s.cs.status = .cipher1 ∧ t.cs.status = .cipher2)) ∧
    (i = .resetLink → (codeOf t = some .ok ↔ ∃ b, tReply s.env 0 0 = .ok b)) ∧
    (i = .resetLink → codeOf t = some .ok → t.cs.status = .raw)

/-- 10_state.md R20, R32: a register changes only in the operations of the table of R20 (the counter also in the
Cipher1-framed command words those operations send, which are instructions of this model). -/
def Obligations.RegistersWrittenOnlyByTheirOperations : Prop :=
  ∀ (i : Instr) (s t : State), exec i s = .next t →
    (t.cs.status ≠ s.cs.status → i = .resetLink ∨ i = .beginC2 ∨ ∃ sel ij k l, i = .beginC1 sel ij k l) ∧
    (t.cs.chipId ≠ s.cs.chipId ∨ t.cs.gameCode ≠ s.cs.gameCode ∨ t.cs.keySeedByte ≠ s.cs.keySeedByte → i = .readId) ∧
    (t.cs.ks ≠ s.cs.ks ∨ t.key ≠ s.key →
      (∃ sel a b c, i = .ksbuild sel a b c) ∨ ∃ sel ij k l, i = .beginC1 sel ij k l) ∧
    (t.cs.nonceIj ≠ s.cs.nonceIj ∨ t.cs.nonceL ≠ s.cs.nonceL → ∃ sel ij k l, i = .beginC1 sel ij k l) ∧
    (t.cs.nonceCounter ≠ s.cs.nonceCounter →
      (∃ sel ij k l, i = .beginC1 sel ij k l) ∨ i = .beginC2 ∨
      (s.cs.status = .cipher1 ∧ ∃ op args n, i = .sendCmd op args n) ∨
      i = .c1InitC2 ∨ i = .c1Chipid ∨ i = .c1ActC2 ∨ ∃ op args n, i = .hostCmdC1 op args n) ∧
    (t.cs.timingC1 ≠ s.cs.timingC1 → i = .readId ∨ ∃ sel ij k l, i = .beginC1 sel ij k l) ∧
    (t.cs.timingC2 ≠ s.cs.timingC2 → i = .readId ∨ i = .beginC2)

/-- A step takes the first request and runs exactly the instruction it decodes to. -/
def Obligations.StepRunsDecodedInstruction : Prop :=
  ∀ (s : State) (r : Request) (rest : List Request) (i : Instr), s.requests = r :: rest →
    decode (wireCtx s) r = .ok i → step s = exec i { s with requests := rest }

/-- 30_encoding.md R87: an illegal descriptor, in each of its three ways, ends at once with ERR_ILLEGAL in every state: no
register is written, no transaction issued, the counter stays, and no other test comes first. The descriptor is one a
host can present: its data stream is the one R80(a) and 20_memory.md R53 allow (notes/assumptions 9). The reserved rows
and the two operations with a `seed_sel` say the same as instructions. -/
def Obligations.IllegalDescriptorsDoNothing : Prop :=
  (∀ (s : State) (d : Descriptor) (rest : List Request), s.requests = .descriptor d :: rest →
    HostMove (.descriptor d) → IllegalDescriptor s.cfg d →
    step s = .next { s with requests := rest, result := some (plainResult .errIllegal) }) ∧
  (∀ (s : State) (r : BitVec 28) (a b c : Word),
    exec (.reserved0 r a b c) s = .next { s with result := some (plainResult .errIllegal) } ∧
    exec (.reservedB r a b c) s = .next { s with result := some (plainResult .errIllegal) } ∧
    ∀ sel, exec (.reservedCF sel r a b c) s = .next { s with result := some (plainResult .errIllegal) }) ∧
  (∀ (s : State) (sel : Byte), s.cfg.nseed ≤ sel.toNat →
    (∀ a b c, exec (.ksbuild sel a b c) s = .next { s with result := some (plainResult .errIllegal) }) ∧
    (∀ ij k l, exec (.beginC1 sel ij k l) s = .next { s with result := some (plainResult .errIllegal) }))

/-- Which descriptors the decoder rejects for their bits (30_encoding.md R81, R83, R87(b)): exactly those whose OPSEL names
an operation and which have a bit set that the operation's sub-format leaves unassigned. -/
def Obligations.MustBeZeroBitsAreExactlyTheUnassigned : Prop :=
  ∀ d : Descriptor, decodeDescriptor d = .rejected .mustBeZero ↔ UnassignedBit d

/-- 60_exceptions.md R197: nothing is fatal. Whatever came before, a block whose next request is one the host can present
(or that has none) answers with a next state, and so does every instruction run by itself. -/
def Obligations.NothingIsFatal : Prop :=
  (∀ s : State, (∀ r ∈ s.requests, HostMove r) → ∃ t, step s = .next t ∧ ∀ r ∈ t.requests, HostMove r) ∧
  ∀ (i : Instr) (s : State), ∃ t, exec i s = .next t ∧ t.requests = s.requests

/-! ## Encodings -/

/-- Decoding the descriptor of a well-formed operation, or of a reserved word, gives it back with every operand. -/
def Obligations.DescriptorRoundTrip : Prop :=
  ∀ (x : WireCtx) (i : Instr) (d : Descriptor), WellFormed x.cfg i = true → encode x i = .descriptor d →
    decodeDescriptor d = .ok i

/-- What the decoder accepts, the encoder writes back bit for bit: no bit of a descriptor is dropped. That a data stream
behind a reserved selector is not looked at, and that its other bits are operands, is the model's choice
(notes/assumptions 23). -/
def Obligations.DescriptorDecodeLosesNothing : Prop :=
  ∀ (x : WireCtx) (d : Descriptor) (i : Instr), decodeDescriptor d = .ok i →
    encode x i = .descriptor d ∨
    (encode x i = .descriptor { d with src := [] } ∧
      (d.d0.extractLsb' 28 4 = 0 ∨ 11 ≤ (d.d0.extractLsb' 28 4).toNat))

/-- Descriptors written out from the assembly table of 95_test_vectors.md V20. -/
def Obligations.AssemblyTableDecodes : Prop :=
  decodeDescriptor ⟨0x10000000, 0x11111111, 0x22222222, 0, []⟩ = .ok (.enc 0x11111111 0x22222222) ∧
  decodeDescriptor ⟨0x30000001, 0x1234, 0x091A, 0x2468, []⟩ = .ok (.ksbuild 1 0x1234 0x091A 0x2468) ∧
  decodeDescriptor ⟨0x60ABCD01, 0x00123456, 1, 0, []⟩ = .ok (.beginC1 1 0x123456 1 0xABCD) ∧
  decodeDescriptor ⟨0x80000200, 0xB7001234, 0x56000000, 0, []⟩ = .ok (.sendCmd 0xB7 0x00123456000000 0x200) ∧
  decodeDescriptor ⟨0x90000001, 3, 6, 0, []⟩ = .ok (.flRead 3 6 true) ∧
  decodeDescriptor ⟨0xA0000000, 0xE, 5, 0, [0xA0, 0xA1, 0xA2, 0xA3, 0xA4]⟩ =
    .ok (.flWrite 0xE 5 false [0xA0, 0xA1, 0xA2, 0xA3, 0xA4]) ∧
  decodeDescriptor ⟨0xB0000000, 0, 0, 0, []⟩ = .ok (.reservedB 0 0 0 0) ∧
  decodeDescriptor ⟨0x80010010, 0, 0, 0, []⟩ = .rejected .mustBeZero

/-- What the decoder of command words accepts, the frames build again bit for bit (30_encoding.md R89 to R92). -/
def Obligations.WireDecodeIsSound : Prop :=
  ∀ (x : WireCtx) (y : WireWord) (i : Instr), decodeWire x y = .ok i → encode x i = .wire y

/-- The eight commands the block itself sends decode to their own rows (R95), when the opcodes that share a frame and a
response length differ. That command words are instructions, and the decoder's order of tests, are the model's choice
(notes/assumptions 10, 11). -/
def Obligations.BlockCommandsDecodeToTheirRows : Prop :=
  ∀ x : WireCtx, x.cfg.opDummy ≠ x.cfg.opReadBlock → x.cfg.opDummy ≠ x.cfg.opChipidRaw →
    x.cfg.opReadBlock ≠ x.cfg.opChipidRaw → x.cfg.opC1InitC2 ≠ x.cfg.opC1ActC2 →
    decode x (encode x .dummy) = .ok .dummy ∧ decode x (encode x .readBlock) = .ok .readBlock ∧
    decode x (encode x .chipidRaw) = .ok .chipidRaw ∧ decode x (encode x .actC1) = .ok .actC1 ∧
    decode x (encode x .c1InitC2) = .ok .c1InitC2 ∧ decode x (encode x .c1Chipid) = .ok .c1Chipid ∧
    decode x (encode x .c1ActC2) = .ok .c1ActC2 ∧ decode x (encode x .c2Chipid) = .ok .c2Chipid

/-- 30_encoding.md R91: the fields of a Cipher1 frame, the opcode's low nibble ORed with the top of `L`. -/
def Obligations.Cipher1FrameFields : Prop :=
  ∀ (op8 : Byte) (l : Half) (ij k : Word),
    (frameC1 op8 l ij k).extractLsb' 60 4 = op8.extractLsb' 4 4 ∧
    (frameC1 op8 l ij k).extractLsb' 56 4 = op8.extractLsb' 0 4 ||| l.extractLsb' 12 4 ∧
    (frameC1 op8 l ij k).extractLsb' 44 12 = l.extractLsb' 0 12 ∧
    (frameC1 op8 l ij k).extractLsb' 20 24 = ij.extractLsb' 0 24 ∧
    (frameC1 op8 l ij k).extractLsb' 0 20 = k.extractLsb' 0 20 ∧
    (op8.extractLsb' 0 4 = 0 → (frameC1 op8 l ij k).extractLsb' 44 16 = l)

/-- R89, R90: the fields of the raw frame and of the activate frame. -/
def Obligations.RawAndActivateFrameFields : Prop :=
  ∀ (op8 : Byte) (args : Args) (ij k : Word),
    (frameRaw op8 args).extractLsb' 56 8 = op8 ∧ (frameRaw op8 args).extractLsb' 0 56 = args ∧
    (frameAct op8 ij k).extractLsb' 56 8 = op8 ∧ (frameAct op8 ij k).extractLsb' 32 24 = ij.extractLsb' 0 24 ∧
    (frameAct op8 ij k).extractLsb' 28 4 = 0 ∧ (frameAct op8 ij k).extractLsb' 8 20 = k.extractLsb' 0 20 ∧
    (frameAct op8 ij k).extractLsb' 0 8 = 0

/-- R93: byte `k` on the wire is bits 63 − 8k down to 56 − 8k of the word, so the bytes determine the word. -/
def Obligations.WireBytesMostSignificantFirst : Prop :=
  (∀ (w : CmdWord) (k : Fin 8), (toBytes w)[k.val] = w.extractLsb' (56 - 8 * k.val) 8) ∧
  ∀ v w : CmdWord, toBytes v = toBytes w → v = w

/-! ## The cipher -/

/-- 41_cipher.md R121: the round function, with the words of the flat schedule. -/
def Obligations.RoundFunctionFormula : Prop :=
  ∀ (S : Schedule) (z : Word),
    roundF S z =
      ((S.toList.getD (18 + (z.extractLsb' 24 8).toNat) 0 + S.toList.getD (274 + (z.extractLsb' 16 8).toNat) 0)
        ^^^ S.toList.getD (530 + (z.extractLsb' 8 8).toNat) 0)
        + S.toList.getD (786 + (z.extractLsb' 0 8).toNat) 0

/-- 41_cipher.md R130: the round trip, for every schedule; the other direction is R123's last sentence. -/
def Obligations.CipherRoundTrip : Prop :=
  ∀ (S : Schedule) (x : Word × Word), dec S (enc S x) = x ∧ enc S (dec S x) = x

/-- 41_cipher.md R122, R123: the sixteen rounds of `Enc` and of `Dec`, value by value; `X` and `Y` are the two halves. -/
def Obligations.CipherFollowsItsRounds : Prop :=
  ∀ (S : Schedule) (w0 w1 : Word),
    (∃ X Y : Nat → Word, X 0 = w1 ∧ Y 0 = w0 ∧
      (∀ i, i < 16 → Y (i + 1) = S.toList.getD i 0 ^^^ X i ∧ X (i + 1) = roundF S (Y (i + 1)) ^^^ Y i) ∧
      enc S (w0, w1) = (X 16 ^^^ S.toList.getD 16 0, Y 16 ^^^ S.toList.getD 17 0)) ∧
    ∃ X Y : Nat → Word, X 0 = w1 ∧ Y 0 = w0 ∧
      (∀ i, i < 16 → Y (i + 1) = S.toList.getD (17 - i) 0 ^^^ X i ∧ X (i + 1) = roundF S (Y (i + 1)) ^^^ Y i) ∧
      dec S (w0, w1) = (X 16 ^^^ S.toList.getD 1 0, Y 16 ^^^ S.toList.getD 0 0)

/-- 41_cipher.md R126, R127: ENC and DEC return the transformed pair in every state and write nothing. -/
def Obligations.EncAndDecReturnThePair : Prop :=
  ∀ (s : State) (a b : Word),
    exec (.enc a b) s = .next { s with result := some ⟨.ok, 0, .words [(enc s.cs.ks (a, b)).1, (enc s.cs.ks (a, b)).2]⟩ } ∧
    exec (.dec a b) s = .next { s with result := some ⟨.ok, 0, .words [(dec s.cs.ks (a, b)).1, (dec s.cs.ks (a, b)).2]⟩ }

/-- The round trip at the level of operations: DEC of the words ENC returned returns ENC's operands. -/
def Obligations.DecOfEncReturnsTheOperands : Prop :=
  ∀ (s : State) (a b : Word), ∃ t u v, exec (.enc a b) s = .next t ∧
    t.result = some ⟨.ok, 0, .words [u, v]⟩ ∧
    exec (.dec u v) t = .next { s with result := some ⟨.ok, 0, .words [a, b]⟩ }

/-- 41_cipher.md R122's worked example for every pair: under a schedule of zeros the cipher swaps the words. -/
def Obligations.ZeroScheduleSwaps : Prop :=
  ∀ (S : Schedule), (∀ i : Fin KS_LEN, S[i.val] = 0) → ∀ a b : Word, enc S (a, b) = (b, a) ∧ dec S (a, b) = (b, a)

/-- 41_cipher.md R125 with its notes: what one pass of the key schedule leaves. `K` is the key after step 0, `X` the
schedule after step 1, `M j` the schedule before turn `j` of step 2 and `c j` the working pair then. -/
def Obligations.KeySchedulePassFollowsItsSteps : Prop :=
  ∀ (premix : Bool) (S : Schedule) (k : Key), ∃ (K : Key) (X : Schedule) (M : Nat → Schedule) (c : Nat → Word × Word),
    (premix = false → K = k) ∧
    (premix = true → ∃ m : Word × Word, m = enc S (k.k1, k.k2) ∧ K.k2 = m.2 ∧ (K.k0, K.k1) = enc S (k.k0, m.1)) ∧
    (∀ i : Fin KS_LEN, X[i.val] =
      if i.val < 18 then S[i.val] ^^^ bswap32 (if i.val % 2 = 0 then K.k0 else K.k1) else S[i.val]) ∧
    M 0 = X ∧ c 0 = (0, 0) ∧
    (∀ j, j < 521 → c (j + 1) = enc (M j) (c j)) ∧
    (∀ j, j ≤ 521 → ∀ i : Fin KS_LEN, (M j)[i.val] =
      if i.val < 2 * j then (if i.val % 2 = 0 then (c (i.val / 2 + 1)).2 else (c (i.val / 2 + 1)).1) else X[i.val]) ∧
    ksPass premix (S, k) = (M 521, K)

/-- 41_cipher.md R125, corner case: a schedule and a key of zeros stay zeros. -/
def Obligations.ZeroKeyAndScheduleStayZero : Prop :=
  ∀ (premix : Bool) (S : Schedule), (∀ i : Fin KS_LEN, S[i.val] = 0) →
    ksPass premix (S, ⟨0, 0, 0⟩) = (S, ⟨0, 0, 0⟩)

/-- 41_cipher.md R128: KSBUILD, exit by exit: no such seed, not in Raw, and one load and one pass; nothing else changes. -/
def Obligations.KsbuildLoadsAndAppliesOnce : Prop :=
  ∀ (s : State) (sel : Byte) (a b c : Word),
    (s.cfg.nseed ≤ sel.toNat → exec (.ksbuild sel a b c) s = .next { s with result := some (plainResult .errIllegal) }) ∧
    (∀ seed : Schedule, s.cfg.seedRom[sel.toNat]? = some seed →
      (s.cs.status ≠ .raw → exec (.ksbuild sel a b c) s = .next { s with result := some (plainResult .errState) }) ∧
      (s.cs.status = .raw → exec (.ksbuild sel a b c) s = .next { s with
        cs := { s.cs with ks := (ksPass s.cfg.ksPremix (seed, ⟨a, b, c⟩)).1 }
        key := (ksPass s.cfg.ksPremix (seed, ⟨a, b, c⟩)).2
        result := some (plainResult .ok) }))

/-- 41_cipher.md R131: what `KS_LOAD` and `KS_SETUP` leave in KS and KEY depends on the seed, the key and the parameters
alone, whatever KS, KEY and every other register held; what `KS_APPLY` leaves, on KS and KEY. The same of KSBUILD. -/
def Obligations.KeyScheduleIsDeterministic : Prop :=
  (∀ (s s' : State) (seed : Schedule) (k : Key), s.cfg = s'.cfg →
    (ksLoad seed k s).cs.ks = (ksLoad seed k s').cs.ks ∧ (ksLoad seed k s).key = (ksLoad seed k s').key ∧
    (ksSetup seed k s).cs.ks = (ksSetup seed k s').cs.ks ∧ (ksSetup seed k s).key = (ksSetup seed k s').key) ∧
  (∀ s s' : State, s.cfg = s'.cfg → s.cs.ks = s'.cs.ks → s.key = s'.key →
    (ksApply s).cs.ks = (ksApply s').cs.ks ∧ (ksApply s).key = (ksApply s').key) ∧
  ∀ (s s' t t' : State) (sel : Byte) (a b c : Word), s.cfg = s'.cfg → s.cs.status = .raw → s'.cs.status = .raw →
    sel.toNat < s.cfg.nseed → exec (.ksbuild sel a b c) s = .next t → exec (.ksbuild sel a b c) s' = .next t' →
    t.cs.ks = t'.cs.ks ∧ t.key = t'.key

/-! ## The protocol -/

/-- 42_protocol.md R142, 41_cipher.md R128: in the wrong stage READ_ID, BEGIN_C1, BEGIN_C2 and KSBUILD do nothing at all
and return ERR_STATE (a bad `seed_sel` is reported first, 60_exceptions.md R200); RESET_LINK and SEND_CMD never do. -/
def Obligations.WrongStageDoesNothing : Prop :=
  ∀ s : State,
    (s.cs.status ≠ .raw → exec .readId s = .next { s with result := some (plainResult .errState) }) ∧
    (s.cs.status ≠ .cipher1 → exec .beginC2 s = .next { s with result := some (plainResult .errState) }) ∧
    (∀ sel ij k l, s.cs.status ≠ .raw → sel.toNat < s.cfg.nseed →
      exec (.beginC1 sel ij k l) s = .next { s with result := some (plainResult .errState) }) ∧
    (∀ sel a b c, s.cs.status ≠ .raw → sel.toNat < s.cfg.nseed →
      exec (.ksbuild sel a b c) s = .next { s with result := some (plainResult .errState) }) ∧
    (∀ t, exec .resetLink s = .next t → codeOf t ≠ some .errState) ∧
    ∀ op8 args n t, exec (.sendCmd op8 args n) s = .next t → codeOf t ≠ some .errState

/-- 42_protocol.md R143: the three key words, whose shifts are logical. -/
def Obligations.DerivedKeyWords : Prop :=
  ∀ g : Word, (deriveKey g).k0 = g ∧ (deriveKey g).k1.toNat = g.toNat / 2 ∧ (deriveKey g).k2.toNat = 2 * g.toNat % 2 ^ 32

/-- 42_protocol.md R146: the word a Cipher1 frame is sent as decrypts, as a pair, to the frame. -/
def Obligations.EncryptedWordDecryptsBack : Prop :=
  ∀ (S : Schedule) (w : CmdWord),
    dec S ((encryptWord S w).extractLsb' 0 32, (encryptWord S w).extractLsb' 32 32) =
      (w.extractLsb' 0 32, w.extractLsb' 32 32)

/-- 42_protocol.md R150: RESET_LINK. A failed reset changes nothing and sends no dummy; otherwise the dummy's answer is
ignored and `cs.status` is the one register written. -/
def Obligations.ResetLinkEffect : Prop :=
  ∀ s : State,
    (tReply s.env 0 0 = .fail → exec .resetLink s = .next { s with
      env := afterT s.env 1
      trace := s.trace ++ [⟨.t .reset, .fail⟩]
      result := some (plainResult .errTransport) }) ∧
    (∀ b, tReply s.env 0 0 = .ok b → exec .resetLink s = .next { s with
      cs := { s.cs with status := .raw }
      env := afterT s.env 2
      trace := s.trace ++ [⟨.t .reset, .ok b⟩,
        ⟨.t (.send (toBytes (frameRaw s.cfg.opDummy 0)) s.cfg.dummyLen s.cfg.timingRaw),
          tReply s.env 1 s.cfg.dummyLen.toNat⟩]
      result := some (plainResult .ok) })

/-- 42_protocol.md R151: READ_ID, exit by exit. All five registers or none. -/
def Obligations.ReadIdEffect : Prop :=
  ∀ s : State,
    (s.cs.status ≠ .raw → exec .readId s = .next { s with result := some (plainResult .errState) }) ∧
    (s.cs.status = .raw →
    (tReply s.env 0 s.cfg.idBlockLen.toNat = .fail → exec .readId s = .next { s with
      env := afterT s.env 1
      trace := s.trace ++
        [⟨.t (.send (toBytes (frameRaw s.cfg.opReadBlock 0)) s.cfg.idBlockLen s.cfg.timingSlow), .fail⟩]
      result := some (plainResult .errTransport) }) ∧
    (∀ b, tReply s.env 0 s.cfg.idBlockLen.toNat = .ok b →
      (tReply s.env 1 4 = .fail → exec .readId s = .next { s with
        env := afterT s.env 2
        trace := s.trace ++
          [⟨.t (.send (toBytes (frameRaw s.cfg.opReadBlock 0)) s.cfg.idBlockLen s.cfg.timingSlow), .ok b⟩,
           ⟨.t (.send (toBytes (frameRaw s.cfg.opChipidRaw 0)) 4 s.cfg.timingSlow), .fail⟩]
        result := some (plainResult .errTransport) }) ∧
      (∀ c0 c1 c2 c3 g0 g1 g2 g3 sb u0 u1 u2 u3 v0 v1 v2 v3 : Byte, tReply s.env 1 4 = .ok [c0, c1, c2, c3] →
        (b.drop s.cfg.offGameCode).take 4 = [g0, g1, g2, g3] → b[s.cfg.offSeedByte]? = some sb →
        (b.drop s.cfg.offTC1).take 4 = [u0, u1, u2, u3] → (b.drop s.cfg.offTC2).take 4 = [v0, v1, v2, v3] →
        exec .readId s = .next { s with
          cs := { s.cs with
            gameCode := g3 ++ g2 ++ g1 ++ g0
            keySeedByte := sb
            timingC1 := timingIdC1 s.cfg (u3 ++ u2 ++ u1 ++ u0)
            timingC2 := timingIdC2 s.cfg (v3 ++ v2 ++ v1 ++ v0)
            chipId := c3 ++ c2 ++ c1 ++ c0 }
          env := afterT s.env 2
          trace := s.trace ++
            [⟨.t (.send (toBytes (frameRaw s.cfg.opReadBlock 0)) s.cfg.idBlockLen s.cfg.timingSlow), .ok b⟩,
             ⟨.t (.send (toBytes (frameRaw s.cfg.opChipidRaw 0)) 4 s.cfg.timingSlow), .ok [c0, c1, c2, c3]⟩]
          result := some (plainResult .ok) })))

/-- Every identification block READ_ID can receive has the fields that `ReadIdEffect` takes from it: its length is
ID_BLOCK_LEN and the offsets lie inside (93_implementation_defined.md U18, U19). -/
def Obligations.IdBlockHasEveryField : Prop :=
  ∀ (c : Config) (e : Env) (j : Nat) (b : List Byte), tReply e j c.idBlockLen.toNat = .ok b →
    (∃ g0 g1 g2 g3, (b.drop c.offGameCode).take 4 = [g0, g1, g2, g3]) ∧ (∃ sb, b[c.offSeedByte]? = some sb) ∧
    (∃ u0 u1 u2 u3, (b.drop c.offTC1).take 4 = [u0, u1, u2, u3]) ∧
    (∃ v0 v1 v2 v3, (b.drop c.offTC2).take 4 = [v0, v1, v2, v3])

/-- 42_protocol.md R152: BEGIN_C1, exit by exit as its table has them. The registers after step 3 are `r3`, the
merged timing word is `m`; the frames carry the counter as it is when each is sent. -/
def Obligations.BeginC1Exits : Prop :=
  ∀ (s : State) (sel : Byte) (ij k : Word) (l : Half),
    (s.cfg.nseed ≤ sel.toNat → exec (.beginC1 sel ij k l) s = .next { s with result := some (plainResult .errIllegal) }) ∧
    ∀ seed : Schedule, s.cfg.seedRom[sel.toNat]? = some seed →
    (s.cs.status ≠ .raw → exec (.beginC1 sel ij k l) s = .next { s with result := some (plainResult .errState) }) ∧
    (s.cs.status = .raw → ∀ (p : Schedule × Key) (r3 : CardState) (m : Word) (e4 e6 e9 : Txn) (sv : SeedWord × SeedWord),
    p = ksPass s.cfg.ksPremix (ksPass s.cfg.ksPremix (seed, deriveKey s.cs.gameCode)) →
    r3 = { s.cs with nonceIj := ij, nonceCounter := k, nonceL := l, ks := p.1 } →
    m = timingMergeC1 s.cfg s.cs.timingC1 s.cs.timingC2 →
    e4 = .t (.send (toBytes (frameAct s.cfg.opActC1 ij k)) 0 s.cfg.timingRaw) →
    e6 = .t (.send (toBytes (encryptWord p.1 (frameC1 s.cfg.opC1InitC2 l ij k))) 0 m) →
    sv = c2Seed s.cfg s.cs.keySeedByte ij →
    e9 = .t (.send (toBytes (encryptWord p.1 (frameC1 s.cfg.opC1Chipid l ij (k + 1)))) 4 m) →
    (tReply s.env 0 0 = .fail → exec (.beginC1 sel ij k l) s = .next { s with
      cs := r3, key := p.2, env := afterT s.env 1, trace := s.trace ++ [⟨e4, .fail⟩]
      result := some (plainResult .errTransport) }) ∧
    (∀ b4, tReply s.env 0 0 = .ok b4 →
      (tReply s.env 1 0 = .fail → exec (.beginC1 sel ij k l) s = .next { s with
        cs := { r3 with timingC1 := m, nonceCounter := k + 1 }, key := p.2, env := afterT s.env 2
        trace := s.trace ++ [⟨e4, .ok b4⟩, ⟨e6, .fail⟩]
        result := some (plainResult .errTransport) }) ∧
      (∀ b6, tReply s.env 1 0 = .ok b6 →
        (tReply s.env 2 0 = .fail → exec (.beginC1 sel ij k l) s = .next { s with
          cs := { r3 with timingC1 := m, nonceCounter := k + 1 }, key := p.2, env := afterT s.env 3
          trace := s.trace ++ [⟨e4, .ok b4⟩, ⟨e6, .ok b6⟩, ⟨.t (.seedC2 sv.1 sv.2), .fail⟩]
          result := some (plainResult .errTransport) }) ∧
        (∀ b8, tReply s.env 2 0 = .ok b8 →
          (tReply s.env 3 4 = .fail → exec (.beginC1 sel ij k l) s = .next { s with
            cs := { r3 with timingC1 := m, nonceCounter := k + 2 }, key := p.2, env := afterT s.env 4
            trace := s.trace ++ [⟨e4, .ok b4⟩, ⟨e6, .ok b6⟩, ⟨.t (.seedC2 sv.1 sv.2), .ok b8⟩, ⟨e9, .fail⟩]
            result := some (plainResult .errTransport) }) ∧
          (∀ c0 c1 c2 c3 : Byte, tReply s.env 3 4 = .ok [c0, c1, c2, c3] →
            (c3 ++ c2 ++ c1 ++ c0 ≠ s.cs.chipId → exec (.beginC1 sel ij k l) s = .next { s with
              cs := { r3 with timingC1 := m, nonceCounter := k + 2 }, key := p.2, env := afterT s.env 4
              trace := s.trace ++ [⟨e4, .ok b4⟩, ⟨e6, .ok b6⟩, ⟨.t (.seedC2 sv.1 sv.2), .ok b8⟩,
                ⟨e9, .ok [c0, c1, c2, c3]⟩]
              result := some (plainResult .errHandshake) }) ∧
            (c3 ++ c2 ++ c1 ++ c0 = s.cs.chipId → exec (.beginC1 sel ij k l) s = .next { s with
              cs := { r3 with timingC1 := m, nonceCounter := k + 2, status := .cipher1 }, key := p.2
              env := afterT s.env 4
              trace := s.trace ++ [⟨e4, .ok b4⟩, ⟨e6, .ok b6⟩, ⟨.t (.seedC2 sv.1 sv.2), .ok b8⟩,
                ⟨e9, .ok [c0, c1, c2, c3]⟩]
              result := some (plainResult .ok) }))))))

/-- 42_protocol.md R153: BEGIN_C2, exit by exit. -/
def Obligations.BeginC2Exits : Prop :=
  ∀ s : State,
    (s.cs.status ≠ .cipher1 → exec .beginC2 s = .next { s with result := some (plainResult .errState) }) ∧
    (s.cs.status = .cipher1 → ∀ (m : Word) (e2 e4 : Txn),
    m = timingMaskC2 s.cfg s.cs.timingC2 →
    e2 = .t (.send (toBytes (encryptWord s.cs.ks
      (frameC1 s.cfg.opC1ActC2 s.cs.nonceL s.cs.nonceIj s.cs.nonceCounter))) 0 s.cs.timingC1) →
    e4 = .t (.send (toBytes (frameRaw s.cfg.opC2Chipid 0)) 4 m) →
    (tReply s.env 0 0 = .fail → exec .beginC2 s = .next { s with
      cs := { s.cs with nonceCounter := s.cs.nonceCounter + 1 }, env := afterT s.env 1
      trace := s.trace ++ [⟨e2, .fail⟩], result := some (plainResult .errTransport) }) ∧
    (∀ b2, tReply s.env 0 0 = .ok b2 →
      (tReply s.env 1 4 = .fail → exec .beginC2 s = .next { s with
        cs := { s.cs with nonceCounter := s.cs.nonceCounter + 1, timingC2 := m }, env := afterT s.env 2
        trace := s.trace ++ [⟨e2, .ok b2⟩, ⟨e4, .fail⟩], result := some (plainResult .errTransport) }) ∧
      (∀ c0 c1 c2 c3 : Byte, tReply s.env 1 4 = .ok [c0, c1, c2, c3] →
        (c3 ++ c2 ++ c1 ++ c0 ≠ s.cs.chipId → exec .beginC2 s = .next { s with
          cs := { s.cs with nonceCounter := s.cs.nonceCounter + 1, timingC2 := m }, env := afterT s.env 2
          trace := s.trace ++ [⟨e2, .ok b2⟩, ⟨e4, .ok [c0, c1, c2, c3]⟩]
          result := some (plainResult .errHandshake) }) ∧
        (c3 ++ c2 ++ c1 ++ c0 = s.cs.chipId → exec .beginC2 s = .next { s with
          cs := { s.cs with nonceCounter := s.cs.nonceCounter + 1, timingC2 := m, status := .cipher2 }
          env := afterT s.env 2
          trace := s.trace ++ [⟨e2, .ok b2⟩, ⟨e4, .ok [c0, c1, c2, c3]⟩]
          result := some (plainResult .ok) }))))

/-- 42_protocol.md R154: SEND_CMD, framed by `cs.status` alone; only in Cipher1 does it write a register, the counter, by
one on OK and on ERR_TRANSPORT alike. -/
def Obligations.SendCmdByStage : Prop :=
  ∀ (s : State) (op8 : Byte) (args : Args) (n : Half) (r : Reply), r = tReply s.env 0 n.toNat →
    (s.cs.status = .raw → exec (.sendCmd op8 args n) s = .next { s with
      env := afterT s.env 1
      trace := s.trace ++ [⟨.t (.send (toBytes (frameRaw op8 args)) n s.cfg.timingRaw), r⟩]
      result := some (sendResult n r) }) ∧
    (s.cs.status = .cipher1 → ∀ L : Half,
      L = (if args.extractLsb' 0 16 = 0 then s.cs.nonceL else args.extractLsb' 0 16) →
      exec (.sendCmd op8 args n) s = .next { s with
        cs := { s.cs with nonceCounter := s.cs.nonceCounter + 1 }
        env := afterT s.env 1
        trace := s.trace ++ [⟨.t (.send (toBytes (encryptWord s.cs.ks
          (frameC1 op8 L s.cs.nonceIj s.cs.nonceCounter))) n s.cs.timingC1), r⟩]
        result := some (sendResult n r) }) ∧
    (s.cs.status = .cipher2 → exec (.sendCmd op8 args n) s = .next { s with
      env := afterT s.env 1
      trace := s.trace ++ [⟨.t (.send (toBytes (frameRaw op8 args)) n s.cs.timingC2), r⟩]
      result := some (sendResult n r) })

/-- 42_protocol.md R147: every Cipher1-framed command is sent encrypted with the counter as it is, and advances it by
exactly one whatever the answer. -/
def Obligations.Cipher1CommandAdvancesCounter : Prop :=
  ∀ (s : State) (i : Instr) (op8 : Byte) (L : Half) (n : Half),
    (i = .c1InitC2 ∧ op8 = s.cfg.opC1InitC2 ∧ L = s.cs.nonceL ∧ n = 0 ∨
     i = .c1Chipid ∧ op8 = s.cfg.opC1Chipid ∧ L = s.cs.nonceL ∧ n = 4 ∨
     i = .c1ActC2 ∧ op8 = s.cfg.opC1ActC2 ∧ L = s.cs.nonceL ∧ n = 0 ∨
     ∃ args, i = .hostCmdC1 op8 args n ∧
       L = (if args.extractLsb' 0 16 = 0 then s.cs.nonceL else args.extractLsb' 0 16)) →
    exec i s = .next { s with
      cs := { s.cs with nonceCounter := s.cs.nonceCounter + 1 }
      env := afterT s.env 1
      trace := s.trace ++ [⟨.t (.send (toBytes (encryptWord s.cs.ks
        (frameC1 op8 L s.cs.nonceIj s.cs.nonceCounter))) n s.cs.timingC1), tReply s.env 0 n.toNat⟩] }

/-- 30_encoding.md R89, R92, R95, 42_protocol.md R144, R148: the commands that are not Cipher1-framed go out as built, with
the stage's timing word, and write no register; the activate command leaves the counter. -/
def Obligations.UnencryptedCommandsLeaveRegisters : Prop :=
  ∀ (s : State) (i : Instr) (w : CmdWord) (n : Half) (tf : Word),
    (i = .dummy ∧ w = frameRaw s.cfg.opDummy 0 ∧ n = s.cfg.dummyLen ∧ tf = s.cfg.timingRaw ∨
     i = .readBlock ∧ w = frameRaw s.cfg.opReadBlock 0 ∧ n = s.cfg.idBlockLen ∧ tf = s.cfg.timingSlow ∨
     i = .chipidRaw ∧ w = frameRaw s.cfg.opChipidRaw 0 ∧ n = 4 ∧ tf = s.cfg.timingSlow ∨
     i = .actC1 ∧ w = frameAct s.cfg.opActC1 s.cs.nonceIj s.cs.nonceCounter ∧ n = 0 ∧ tf = s.cfg.timingRaw ∨
     i = .c2Chipid ∧ w = frameRaw s.cfg.opC2Chipid 0 ∧ n = 4 ∧ tf = s.cs.timingC2 ∨
     (∃ op8 args, i = .hostCmdRaw op8 args n ∧ w = frameRaw op8 args ∧ tf = s.cfg.timingRaw) ∨
     (∃ op8 args, i = .hostCmdC2 op8 args n ∧ w = frameRaw op8 args ∧ tf = s.cs.timingC2)) →
    exec i s = .next { s with
      env := afterT s.env 1
      trace := s.trace ++ [⟨.t (.send (toBytes w) n tf), tReply s.env 0 n.toNat⟩] }

/-- 42_protocol.md R155: N consecutive SEND_CMD in Cipher1 frame the counter values c, c + 1, …, each carried by its own
transaction, whatever the answers. -/
def Obligations.CounterRisesByOnePerCommand : Prop :=
  ∀ (cmds : List (Byte × Args × Half)) (s : State), s.cs.status = .cipher1 →
    s.requests = cmds.map (fun q => encode (wireCtx s) (.sendCmd q.1 q.2.1 q.2.2)) →
    ∃ (t : State) (evs : List Event), Host.Core.run Sys2Proof.core cmds.length s = .next t ∧
      t.requests = [] ∧ t.trace = s.trace ++ evs ∧ evs.length = cmds.length ∧
      t.cs = { s.cs with nonceCounter := s.cs.nonceCounter + BitVec.ofNat 32 cmds.length } ∧ t.key = s.key ∧
      ∀ (i : Nat) (q : Byte × Args × Half), cmds[i]? = some q → ∃ L : Half,
        (L = if q.2.1.extractLsb' 0 16 = 0 then s.cs.nonceL else q.2.1.extractLsb' 0 16) ∧
        (evs.map (·.txn))[i]? = some (.t (.send (toBytes (encryptWord s.cs.ks
          (frameC1 q.1 L s.cs.nonceIj (s.cs.nonceCounter + BitVec.ofNat 32 i)))) q.2.2 s.cs.timingC1))

/-- 42_protocol.md R156: the counter account of a full handshake. -/
def Obligations.HandshakeCounterAccount : Prop :=
  ∀ (s t u : State) (sel : Byte) (ij k : Word) (l : Half),
    exec (.beginC1 sel ij k l) s = .next t → codeOf t = some .ok →
    t.cs.nonceCounter = k + 2 ∧
    (exec .beginC2 t = .next u → codeOf u = some .ok → u.cs.nonceCounter = k + 3 ∧ u.cs.status = .cipher2)

/-! ## The flash sequencer -/

/-- 43_flash.md R171, R172: what a read asks for. On the fast path one request for the whole; else blocks counted from
`start`, whole ones of CH bytes and a last one rounded up to whole granules, of which the rest is delivered. -/
def Obligations.ReadPlanBlocks : Prop :=
  ∀ (c : Config) (start len : Nat) (progress : Bool),
    (c.rp = 0 ∧ progress = false → readPlan c start len progress = [⟨start, len, len⟩]) ∧
    (¬(c.rp = 0 ∧ progress = false) →
      (readPlan c start len progress).length = (len + (chunk c - 1)) / chunk c ∧
      ∀ (i : Nat) (b : ReadBlk), (readPlan c start len progress)[i]? = some b →
        b.addr = start + i * chunk c ∧ b.keep = min (chunk c) (len - i * chunk c) ∧
        (chunk c ≤ len - i * chunk c → b.n = chunk c) ∧
        (len - i * chunk c < chunk c →
          b.n % gran c = 0 ∧ len - i * chunk c ≤ b.n ∧ b.n < len - i * chunk c + gran c)) ∧
    chunk c = max 4096 (2 ^ c.rp.val) ∧ gran c = 2 ^ c.rp.val

/-- 43_flash.md R173 (with R171, R172): FL_READ. A range beyond the address space ends with ERR_RANGE; else it asks along
its plan until a primitive fails. OK exactly if none did, with `count` = `length`; else ERR_PRIM_READ with the bytes
of the blocks that succeeded, fewer than `length`. Nothing but the result, the history and port F's environment
changes. -/
def Obligations.FlReadDeliversTheBlocks : Prop :=
  ∀ (s : State) (start len : Word) (progress : Bool),
    (2 ^ 32 < start.toNat + len.toNat →
      exec (.flRead start len progress) s = .next { s with result := some (plainResult .errRange) }) ∧
    (start.toNat + len.toNat ≤ 2 ^ 32 →
    ∃ (t : State) (evs : List Event) (plan : List ReadBlk),
      exec (.flRead start len progress) s = .next t ∧ t.trace = s.trace ++ evs ∧
      t = { s with env := t.env, trace := t.trace, result := t.result } ∧
      t.env.tScript = s.env.tScript ∧ t.env.flash = s.env.flash ∧
      plan = readPlan s.cfg start.toNat len.toNat progress ∧
      ((ReadRun plan (delivered plan evs) evs ∧ (delivered plan evs).length = len.toNat ∧
        t.result = some ⟨.ok, len, .bytes (delivered plan evs)⟩) ∨
       (∃ good bad, evs = good ++ [bad] ∧ bad.reply = .fail ∧ (∀ e ∈ good, e.reply ≠ .fail) ∧
        evs.map (·.txn) = (plan.take evs.length).map blkTxn ∧ evs.length ≤ plan.length ∧
        ((delivered plan good).length < len.toNat ∨ len = 0) ∧
        t.result = some ⟨.errPrimRead, BitVec.ofNat 32 (delivered plan good).length, .bytes (delivered plan good)⟩)))

/-- 43_flash.md R174: the range check, at its edge: a range that ends exactly at 2^32 is accepted, a longer one ends with
ERR_RANGE before any transaction, and no other test of the two operations gives that code. -/
def Obligations.RangeCheckAtTheTop : Prop :=
  ∀ (s : State) (addr len : Word) (progress : Bool) (src : List Byte),
    (2 ^ 32 < addr.toNat + len.toNat →
      exec (.flRead addr len progress) s = .next { s with result := some (plainResult .errRange) } ∧
      exec (.flWrite addr len progress src) s = .next { s with result := some (plainResult .errRange) }) ∧
    (addr.toNat + len.toNat ≤ 2 ^ 32 → ∀ t,
      (exec (.flRead addr len progress) s = .next t ∨ exec (.flWrite addr len progress src) s = .next t) →
      codeOf t ≠ some .errRange)

/-- 43_flash.md R175: the pages of a range: exactly the multiples of E from `align_down(dest, E)` up to below the end,
each once and in ascending order, `ceil((len + (dest mod E)) / E)` of them. -/
def Obligations.PagesCoverTheRange : Prop :=
  ∀ (c : Config) (j : WriteJob),
    (∀ p, p ∈ pageList c j ↔ p % erasePage c = 0 ∧ j.dest < p + erasePage c ∧ p < j.dest + j.len) ∧
    (pageList c j).Pairwise (fun a b => a < b) ∧
    (∀ q, (pageList c j).length ≤ q ↔ j.len + j.dest % erasePage c ≤ q * erasePage c)

/-- 43_flash.md R176, R177, R178: FL_WRITE that returns OK: page by page in ascending order each page was read and either
found unchanged or erased once and wholly written, and then the range was verified; the operation's record is plain. -/
def Obligations.FlWriteOkHistory : Prop :=
  ∀ (s t : State) (dest len : Word) (progress : Bool) (src : List Byte), src.length = len.toNat →
    exec (.flWrite dest len progress src) s = .next t → codeOf t = some .ok →
    ∃ (pages : List (List Event)) (ver : List Event) (j : WriteJob), j = ⟨dest.toNat, len.toNat, src⟩ ∧
      t.trace = s.trace ++ pages.flatten ++ ver ∧ pages.length = (pageList s.cfg j).length ∧
      (∀ (i : Nat) (p : Nat) (evs : List Event), (pageList s.cfg j)[i]? = some p → pages[i]? = some evs →
        PageRun s.cfg j p evs) ∧
      VerifyRun s.cfg j ver ∧ t.result = some (plainResult .ok)

/-- What FL_WRITE leaves alone, in every case (10_state.md R32, 43_flash.md R178): all but the result, the history and
port F; on the ideal flash every byte outside the pages of the range. `show_progress` changes nothing. -/
def Obligations.FlWriteFrame : Prop :=
  ∀ (s : State) (dest len : Word) (progress : Bool) (src : List Byte), FlashInv s.env.flash →
    ∃ (t : State) (evs : List Event), exec (.flWrite dest len progress src) s = .next t ∧
      (∀ progress', exec (.flWrite dest len progress' src) s = .next t) ∧
      t = { s with env := t.env, trace := s.trace ++ evs, result := t.result } ∧
      t.env.tScript = s.env.tScript ∧ (∃ code, t.result = some (plainResult code)) ∧
      (∀ a, (∀ p ∈ pageList s.cfg ⟨dest.toNat, len.toNat, src⟩, ¬(p ≤ a ∧ a < p + erasePage s.cfg)) →
        flashByte t.env.flash a = flashByte s.env.flash a)

/-- The document's property S6 (43_flash.md R175, R176): whatever the answers, FL_WRITE erases only pages of the range, in
ascending order, each at most once. -/
def Obligations.PagesErasedAtMostOnce : Prop :=
  ∀ (s t : State) (dest len : Word) (progress : Bool) (src : List Byte),
    exec (.flWrite dest len progress src) s = .next t →
    ∃ evs, t.trace = s.trace ++ evs ∧
      (erasesOf evs).Sublist (pageList s.cfg ⟨dest.toNat, len.toNat, src⟩) ∧ (erasesOf evs).Nodup

/-- 70_reset_and_hazards.md R232: every MemWrite of FL_WRITE follows a successful MemErase of its page in the same
operation, and lies inside that page. -/
def Obligations.WriteFollowsErase : Prop :=
  ∀ (s t : State) (dest len : Word) (progress : Bool) (src : List Byte) (pre post : List Event) (a n : Nat)
    (v : List Byte) (r : Reply),
    exec (.flWrite dest len progress src) s = .next t →
    t.trace = s.trace ++ (pre ++ ⟨.f (.memWrite a n v), r⟩ :: post) →
    ∃ p b, (⟨.f (.memErase p), .ok b⟩ : Event) ∈ pre ∧ p % erasePage s.cfg = 0 ∧ p ≤ a ∧
      a + writePage s.cfg ≤ p + erasePage s.cfg

/-- 43_flash.md R178 and the document's scenario S9 on the ideal flash: a well-formed FL_WRITE inside the device returns
OK, the range holds the new bytes, and every byte outside it, inside the rewritten pages too, is numerically
unchanged. (`2^RP − 1` bytes of room after the last page are there because a read may be rounded up, R234.) -/
def Obligations.IdealFlashWrite : Prop :=
  ∀ (s : State) (dest len : Word) (progress : Bool) (src : List Byte) (size : Nat),
    FlashInv s.env.flash → IdealPort s.env size → src.length = len.toNat → dest.toNat + len.toNat ≤ 2 ^ 32 →
    (∀ p ∈ pageList s.cfg ⟨dest.toNat, len.toNat, src⟩, p + erasePage s.cfg + (gran s.cfg - 1) ≤ size) →
    ∃ t, exec (.flWrite dest len progress src) s = .next t ∧ t.result = some (plainResult .ok) ∧
      IdealPort t.env size ∧
      ∀ a, flashByte t.env.flash a = writtenByte s.env.flash ⟨dest.toNat, len.toNat, src⟩ a

/-- 43_flash.md R173 on the ideal flash: FL_READ inside the device returns OK and the bytes of the flash. -/
def Obligations.IdealFlashRead : Prop :=
  ∀ (s : State) (start len : Word) (progress : Bool) (size : Nat),
    IdealPort s.env size → start.toNat + len.toNat ≤ 2 ^ 32 → start.toNat + len.toNat + (gran s.cfg - 1) ≤ size →
    ∃ t, exec (.flRead start len progress) s = .next t ∧
      t.result = some ⟨.ok, len, .bytes ((List.range len.toNat).map fun i => flashByte s.env.flash (start.toNat + i))⟩ ∧
      t.env.flash = s.env.flash ∧ IdealPort t.env size

/-- 43_flash.md R179: of two equal FL_WRITE on the ideal flash both return OK, and the second erases nothing and writes
nothing. -/
def Obligations.SecondWriteIsIdempotent : Prop :=
  ∀ (s : State) (dest len : Word) (progress : Bool) (src : List Byte) (size : Nat),
    FlashInv s.env.flash → IdealPort s.env size → src.length = len.toNat → dest.toNat + len.toNat ≤ 2 ^ 32 →
    (∀ p ∈ pageList s.cfg ⟨dest.toNat, len.toNat, src⟩, p + erasePage s.cfg + (gran s.cfg - 1) ≤ size) →
    ∃ t u evs, exec (.flWrite dest len progress src) s = .next t ∧ exec (.flWrite dest len progress src) t = .next u ∧
      t.result = some (plainResult .ok) ∧ u.result = some (plainResult .ok) ∧
      u.trace = t.trace ++ evs ∧ erasesOf evs = [] ∧ writesOf evs = [] ∧
      u.env.flash = t.env.flash

/-- 43_flash.md R177, R233: with any device, an FL_WRITE that returns OK with `0 < length ≤ VBUF_SIZE` has, as its last
transactions, reads whose answers deliver exactly `src`. -/
def Obligations.FullVerificationReadsTheSource : Prop :=
  ∀ (s t : State) (dest len : Word) (progress : Bool) (src : List Byte), src.length = len.toNat → len ≠ 0 →
    len.toNat ≤ s.cfg.vbufSize → exec (.flWrite dest len progress src) s = .next t → codeOf t = some .ok →
    ∃ evs ver, t.trace = s.trace ++ evs ++ ver ∧ ReadRun (readPlan s.cfg dest.toNat len.toNat false) src ver

/-! ## Failures -/

/-- 60_exceptions.md R193, 42_protocol.md R149: whatever the instruction, no transaction follows a failed one. -/
def Obligations.FailureEndsTheOperation : Prop :=
  ∀ (i : Instr) (s t : State), exec i s = .next t →
    ∃ evs, t.trace = s.trace ++ evs ∧
      ∀ (pre post : List Event) (e : Event), evs = pre ++ e :: post → e.reply = .fail → post = []

/-- 70_reset_and_hazards.md R237: how many transactions each operation issues at most. R237 counts operations only: that a
command word run by itself is one transaction is the model's choice (notes/assumptions 10); a reserved row issues none
by 30_encoding.md R87. -/
def Obligations.TransactionBounds : Prop :=
  ∀ (i : Instr) (s t : State), exec i s = .next t →
    ∃ evs, t.trace = s.trace ++ evs ∧ match i with
      | .enc _ _ | .dec _ _ | .ksbuild _ _ _ _ => evs.length = 0
      | .reserved0 _ _ _ _ | .reservedB _ _ _ _ | .reservedCF _ _ _ _ _ => evs.length = 0
      | .resetLink | .readId | .beginC2 => evs.length ≤ 2
      | .beginC1 _ _ _ _ => evs.length ≤ 4
      | .flRead _ len _ => evs.length ≤ 1 + len.toNat / chunk s.cfg
      | .flWrite dest len _ src =>
        evs.length ≤ (pageList s.cfg ⟨dest.toNat, len.toNat, src⟩).length *
            (2 + erasePage s.cfg / chunk s.cfg + erasePage s.cfg / writePage s.cfg) +
          2 * (1 + len.toNat / chunk s.cfg)
      | .sendCmd _ _ _ => evs.length = 1
      | .dummy | .readBlock | .chipidRaw | .actC1 | .c1InitC2 | .c1Chipid | .c1ActC2 | .c2Chipid => evs.length = 1
      | .hostCmdRaw _ _ _ | .hostCmdC1 _ _ _ | .hostCmdC2 _ _ _ => evs.length = 1

/-- 60_exceptions.md R190: which operations raise which code; the command words return no record. -/
def Obligations.ResultCodesOfEachOperation : Prop :=
  ∀ (i : Instr) (s t : State), exec i s = .next t → match i with
    | .enc _ _ | .dec _ _ => codeOf t = some .ok
    | .ksbuild _ _ _ _ => codeOf t ∈ [some .ok, some .errIllegal, some .errState]
    | .reserved0 _ _ _ _ | .reservedB _ _ _ _ | .reservedCF _ _ _ _ _ => codeOf t = some .errIllegal
    | .resetLink => codeOf t ∈ [some .ok, some .errTransport]
    | .readId => codeOf t ∈ [some .ok, some .errState, some .errTransport]
    | .beginC1 _ _ _ _ => codeOf t ∈ [some .ok, some .errIllegal, some .errState, some .errTransport, some .errHandshake]
    | .beginC2 => codeOf t ∈ [some .ok, some .errState, some .errTransport, some .errHandshake]
    | .sendCmd _ _ _ => codeOf t ∈ [some .ok, some .errTransport]
    | .flRead _ _ _ => codeOf t ∈ [some .ok, some .errPrimRead, some .errRange]
    | .flWrite _ _ _ _ =>
      codeOf t ∈ [some .ok, some .errPrimRead, some .errPrimErase, some .errPrimWrite, some .errVerify, some .errRange]
    | .dummy | .readBlock | .chipidRaw | .actC1 | .c1InitC2 | .c1Chipid | .c1ActC2 | .c2Chipid => t.result = s.result
    | .hostCmdRaw _ _ _ | .hostCmdC1 _ _ _ | .hostCmdC2 _ _ _ => t.result = s.result

/-- 60_exceptions.md R190, R193: the code of a failed flash operation names the primitive that answered `Fail`, which is the
last transaction; ERR_VERIFY only when none failed. -/
def Obligations.PrimitiveCodeNamesTheLastTransaction : Prop :=
  ∀ (i : Instr) (s t : State), ((∃ a n p, i = .flRead a n p) ∨ ∃ a n p src, i = .flWrite a n p src) →
    exec i s = .next t → ∃ evs, t.trace = s.trace ++ evs ∧
      (codeOf t = some .errPrimRead ↔ ∃ pre a n, evs = pre ++ [⟨.f (.memRead a n), .fail⟩]) ∧
      (codeOf t = some .errPrimErase ↔ ∃ pre a, evs = pre ++ [⟨.f (.memErase a), .fail⟩]) ∧
      (codeOf t = some .errPrimWrite ↔ ∃ pre a n v, evs = pre ++ [⟨.f (.memWrite a n v), .fail⟩]) ∧
      (codeOf t = some .errVerify → ∀ e ∈ evs, e.reply ≠ .fail)

/-! ## Command words, and every exit of FL_WRITE -/

/-- 30_encoding.md R89 to R92: every command word the encoder writes, with every operand at every value, is accepted by the
decoder, and what it reads from the word is written as the same word. That command words are instructions, and the
decoder's order of tests, are the model's choice (notes/assumptions 10, 11). -/
def Obligations.EveryCommandWordDecodes : Prop :=
  ∀ (x : WireCtx) (i : Instr) (y : WireWord), encode x i = .wire y →
    ∃ j, decodeWire x y = .ok j ∧ encode x j = .wire y

/-- 42_protocol.md R154: what SEND_CMD sends decodes to its own row with every operand, when the opcode is none of the
block's own in that frame. In W_C1 the operands are those a word can hold: a zero low nibble of the opcode and an
argument that is a non-zero `L` (notes/assumptions 10, 11). -/
def Obligations.HostCommandsDecodeToTheirRows : Prop :=
  ∀ (x : WireCtx) (op8 : Byte) (args : Args) (n : Half),
    (op8 ≠ x.cfg.opDummy → op8 ≠ x.cfg.opReadBlock → op8 ≠ x.cfg.opChipidRaw →
      decode x (encode x (.hostCmdRaw op8 args n)) = .ok (.hostCmdRaw op8 args n)) ∧
    (op8 ≠ x.cfg.opC2Chipid → decode x (encode x (.hostCmdC2 op8 args n)) = .ok (.hostCmdC2 op8 args n)) ∧
    (op8 ≠ x.cfg.opC1InitC2 → op8 ≠ x.cfg.opC1Chipid → op8 ≠ x.cfg.opC1ActC2 → op8.extractLsb' 0 4 = 0 →
      ∀ L : Half, L ≠ 0 → args = L.setWidth 56 →
        decode x (encode x (.hostCmdC1 op8 args n)) = .ok (.hostCmdC1 op8 args n))

/-- 43_flash.md R174 to R178, 60_exceptions.md R202: the history and the code of every exit of a well-formed FL_WRITE. A
range beyond the address space: no transaction. Else whole turns of the page loop for the first pages, in order, and
then: after all pages a successful verification (OK); or the turn of the next page up to its failed read, erase or
write; or after all pages a verification up to its failed read or its mismatch. No register is written. -/
def Obligations.FlWriteHistoryOfEveryExit : Prop :=
  ∀ (s : State) (dest len : Word) (progress : Bool) (src : List Byte) (j : WriteJob), src.length = len.toNat →
    j = ⟨dest.toNat, len.toNat, src⟩ →
    (2 ^ 32 < dest.toNat + len.toNat →
      exec (.flWrite dest len progress src) s = .next { s with result := some (plainResult .errRange) }) ∧
    (dest.toNat + len.toNat ≤ 2 ^ 32 →
      ∃ (t : State) (pages : List (List Event)) (last : List Event) (code : ResultCode),
        exec (.flWrite dest len progress src) s = .next t ∧
        t = { s with
          env := t.env, trace := s.trace ++ (pages.flatten ++ last), result := some (plainResult code) } ∧
        (∀ (i p : Nat) (evs : List Event), (pageList s.cfg j)[i]? = some p → pages[i]? = some evs →
          PageRun s.cfg j p evs) ∧
        ((code = .ok ∧ pages.length = (pageList s.cfg j).length ∧ VerifyRun s.cfg j last) ∨
         (∃ p, (pageList s.cfg j)[pages.length]? = some p ∧ PageStop s.cfg j p code last) ∨
         (pages.length = (pageList s.cfg j).length ∧ VerifyStop s.cfg j code last)))
end

