-- ==== Sys2Proof/Laws/State.lean ====
section
/-! SUPPORT. One lemma a field and update of the state, true by unfolding. -/

namespace Sys2Proof.Machine

section Updates
variable (s : State) (r : Result) (st : Status) (p : Schedule × Key) (ij k : Word) (l : Half) (b c : List Byte)
variable (x : TTxn) (y : FTxn) (n : Nat)

@[simp] theorem finish_cfg : (finish r s).cfg = s.cfg := rfl
@[simp] theorem finish_cs : (finish r s).cs = s.cs := rfl
@[simp] theorem finish_key : (finish r s).key = s.key := rfl
@[simp] theorem finish_requests : (finish r s).requests = s.requests := rfl
@[simp] theorem finish_result : (finish r s).result = some r := rfl
@[simp] theorem finish_env : (finish r s).env = s.env := rfl
@[simp] theorem finish_trace : (finish r s).trace = s.trace := rfl

@[simp] theorem setStatus_cfg : (setStatus st s).cfg = s.cfg := rfl
@[simp] theorem setStatus_cs : (setStatus st s).cs = { s.cs with status := st } := rfl
@[simp] theorem setStatus_key : (setStatus st s).key = s.key := rfl
@[simp] theorem setStatus_requests : (setStatus st s).requests = s.requests := rfl
@[simp] theorem setStatus_result : (setStatus st s).result = s.result := rfl
@[simp] theorem setStatus_env : (setStatus st s).env = s.env := rfl
@[simp] theorem setStatus_trace : (setStatus st s).trace = s.trace := rfl

@[simp] theorem bumpCounter_cfg : (bumpCounter s).cfg = s.cfg := rfl
@[simp] theorem bumpCounter_cs : (bumpCounter s).cs = { s.cs with nonceCounter := s.cs.nonceCounter + 1 } := rfl
@[simp] theorem bumpCounter_key : (bumpCounter s).key = s.key := rfl
@[simp] theorem bumpCounter_requests : (bumpCounter s).requests = s.requests := rfl
@[simp] theorem bumpCounter_result : (bumpCounter s).result = s.result := rfl
@[simp] theorem bumpCounter_env : (bumpCounter s).env = s.env := rfl
@[simp] theorem bumpCounter_trace : (bumpCounter s).trace = s.trace := rfl

@[simp] theorem setSchedule_cfg : (setSchedule p s).cfg = s.cfg := rfl
@[simp] theorem setSchedule_cs : (setSchedule p s).cs = { s.cs with ks := p.1 } := rfl
@[simp] theorem setSchedule_key : (setSchedule p s).key = p.2 := rfl
@[simp] theorem setSchedule_requests : (setSchedule p s).requests = s.requests := rfl
@[simp] theorem setSchedule_result : (setSchedule p s).result = s.result := rfl
@[simp] theorem setSchedule_env : (setSchedule p s).env = s.env := rfl
@[simp] theorem setSchedule_trace : (setSchedule p s).trace = s.trace := rfl

@[simp] theorem loadNonces_cfg : (loadNonces ij k l s).cfg = s.cfg := rfl
@[simp] theorem loadNonces_cs :
    (loadNonces ij k l s).cs = { s.cs with nonceIj := ij, nonceCounter := k, nonceL := l } := rfl
@[simp] theorem loadNonces_key : (loadNonces ij k l s).key = s.key := rfl
@[simp] theorem loadNonces_requests : (loadNonces ij k l s).requests = s.requests := rfl
@[simp] theorem loadNonces_result : (loadNonces ij k l s).result = s.result := rfl
@[simp] theorem loadNonces_env : (loadNonces ij k l s).env = s.env := rfl
@[simp] theorem loadNonces_trace : (loadNonces ij k l s).trace = s.trace := rfl

@[simp] theorem mergeTimingC1_cfg : (mergeTimingC1 s).cfg = s.cfg := rfl
@[simp] theorem mergeTimingC1_cs :
    (mergeTimingC1 s).cs = { s.cs with timingC1 := timingMergeC1 s.cfg s.cs.timingC1 s.cs.timingC2 } := rfl
@[simp] theorem mergeTimingC1_key : (mergeTimingC1 s).key = s.key := rfl
@[simp] theorem mergeTimingC1_requests : (mergeTimingC1 s).requests = s.requests := rfl
@[simp] theorem mergeTimingC1_result : (mergeTimingC1 s).result = s.result := rfl
@[simp] theorem mergeTimingC1_env : (mergeTimingC1 s).env = s.env := rfl
@[simp] theorem mergeTimingC1_trace : (mergeTimingC1 s).trace = s.trace := rfl

@[simp] theorem maskTimingC2_cfg : (maskTimingC2 s).cfg = s.cfg := rfl
@[simp] theorem maskTimingC2_cs :
    (maskTimingC2 s).cs = { s.cs with timingC2 := timingMaskC2 s.cfg s.cs.timingC2 } := rfl
@[simp] theorem maskTimingC2_key : (maskTimingC2 s).key = s.key := rfl
@[simp] theorem maskTimingC2_requests : (maskTimingC2 s).requests = s.requests := rfl
@[simp] theorem maskTimingC2_result : (maskTimingC2 s).result = s.result := rfl
@[simp] theorem maskTimingC2_env : (maskTimingC2 s).env = s.env := rfl
@[simp] theorem maskTimingC2_trace : (maskTimingC2 s).trace = s.trace := rfl

@[simp] theorem loadId_cfg : (loadId b c s).cfg = s.cfg := rfl
@[simp] theorem loadId_cs : (loadId b c s).cs = { s.cs with
    gameCode := le32At b s.cfg.offGameCode
    keySeedByte := b.getD s.cfg.offSeedByte 0
    timingC1 := timingIdC1 s.cfg (le32At b s.cfg.offTC1)
    timingC2 := timingIdC2 s.cfg (le32At b s.cfg.offTC2)
    chipId := le32At c 0 } := rfl
@[simp] theorem loadId_key : (loadId b c s).key = s.key := rfl
@[simp] theorem loadId_requests : (loadId b c s).requests = s.requests := rfl
@[simp] theorem loadId_result : (loadId b c s).result = s.result := rfl
@[simp] theorem loadId_env : (loadId b c s).env = s.env := rfl
@[simp] theorem loadId_trace : (loadId b c s).trace = s.trace := rfl

@[simp] theorem issueT_reply : (issueT x n s).1 = tReply s.env 0 n := rfl
@[simp] theorem issueT_cfg : (issueT x n s).2.cfg = s.cfg := rfl
@[simp] theorem issueT_cs : (issueT x n s).2.cs = s.cs := rfl
@[simp] theorem issueT_key : (issueT x n s).2.key = s.key := rfl
@[simp] theorem issueT_requests : (issueT x n s).2.requests = s.requests := rfl
@[simp] theorem issueT_result : (issueT x n s).2.result = s.result := rfl
@[simp] theorem issueT_trace : (issueT x n s).2.trace = s.trace ++ [⟨.t x, tReply s.env 0 n⟩] := rfl

@[simp] theorem issueF_reply : (issueF y s).1 = (fAnswer s.cfg s.env y).1 := rfl
@[simp] theorem issueF_cfg : (issueF y s).2.cfg = s.cfg := rfl
@[simp] theorem issueF_cs : (issueF y s).2.cs = s.cs := rfl
@[simp] theorem issueF_key : (issueF y s).2.key = s.key := rfl
@[simp] theorem issueF_requests : (issueF y s).2.requests = s.requests := rfl
@[simp] theorem issueF_result : (issueF y s).2.result = s.result := rfl
@[simp] theorem issueF_env : (issueF y s).2.env = afterF s.cfg s.env y := rfl
@[simp] theorem issueF_trace : (issueF y s).2.trace = s.trace ++ [⟨.f y, (fAnswer s.cfg s.env y).1⟩] := rfl

end Updates

/-! The states that end an operation, spelled out. -/

theorem raiseCode_eq (code : ResultCode) (s : State) :
    raiseCode code s = { s with result := some (plainResult code) } := rfl

theorem returnOk_eq (s : State) : returnOk s = { s with result := some (plainResult .ok) } := rfl

theorem ksApply_eq (s : State) : ksApply s = { s with
    cs := { s.cs with ks := (ksPass s.cfg.ksPremix (s.cs.ks, s.key)).1 }
    key := (ksPass s.cfg.ksPremix (s.cs.ks, s.key)).2 } := rfl

theorem ksLoad_eq (seed : Schedule) (k : Key) (s : State) :
    ksLoad seed k s = { s with cs := { s.cs with ks := seed }, key := k } := rfl

/-- `KS_SETUP` writes KS and KEY and nothing else, whatever they held (41_cipher.md R129). -/
theorem ksSetup_eq (seed : Schedule) (k : Key) (s : State) : ksSetup seed k s = { s with
    cs := { s.cs with ks := (ksPass s.cfg.ksPremix (ksPass s.cfg.ksPremix (seed, k))).1 }
    key := (ksPass s.cfg.ksPremix (ksPass s.cfg.ksPremix (seed, k))).2 } := by
  simp only [ksSetup, ksApply_eq, ksLoad_eq]

end Sys2Proof.Machine
end

