-- ==== Sys2Proof/Laws/Cipher.lean ====
section
/-! SUPPORT. The cipher's small lemmas: which round keys it takes, where its words stand in the flat schedule, and how one
round is undone by a round with the same key. -/

namespace Sys2Proof.Machine

/-- `Enc` runs over the round keys 0 to 15 (41_cipher.md R122). -/
theorem encRounds_eq : encRounds = [0, 1, 2, 3, 4, 5, 6, 7, 8, 9, 10, 11, 12, 13, 14, 15] := by decide

/-- `Dec` runs over the round keys 17 down to 2 (R123). -/
theorem decRounds_eq : decRounds = [17, 16, 15, 14, 13, 12, 11, 10, 9, 8, 7, 6, 5, 4, 3, 2] := by decide

theorem length_encRounds : encRounds.length = NR := by decide
theorem length_decRounds : decRounds.length = NR := by decide

theorem pWord_index_lt (i : Fin PLEN) : i.val < KS_LEN := by
  have := i.isLt
  simp only [KS_LEN, PLEN, NR, SBOX_COUNT, SBOX_LEN] at *
  omega

theorem sWord_index_lt (k : Fin SBOX_COUNT) (j : Byte) : PLEN + SBOX_LEN * k.val + j.toNat < KS_LEN := by
  have := j.isLt
  have := k.isLt
  simp only [KS_LEN, PLEN, NR, SBOX_COUNT, SBOX_LEN] at *
  omega

/-- Round key `i` is word `i` of the flat schedule (10_state.md R25). -/
theorem pWord_eq_getD (S : Schedule) (i : Fin PLEN) : pWord S i = S.toList.getD i.val 0 := by
  unfold pWord
  have h : i.val < S.toList.length := by rw [Vector.length_toList]; exact pWord_index_lt i
  rw [List.getD_eq_getElem _ _ h]
  simp

/-- Entry `j` of S-box `k` is word `18 + 256 k + j` of the flat schedule (R25). -/
theorem sWord_eq_getD (S : Schedule) (k : Fin SBOX_COUNT) (j : Byte) :
    sWord S k j = S.toList.getD (PLEN + SBOX_LEN * k.val + j.toNat) 0 := by
  unfold sWord
  have h : PLEN + SBOX_LEN * k.val + j.toNat < S.toList.length := by
    rw [Vector.length_toList]; exact sWord_index_lt k j
  rw [List.getD_eq_getElem _ _ h]
  simp

/-- A round with key `b` undoes the XOR with key `b` and the round with key `a` before it: what both directions of the
round trip fold over. -/
theorem feistelRound_undo (S : Schedule) (p : Word × Word) (a b c : Fin PLEN) :
    feistelRound S ((feistelRound S p a).2 ^^^ pWord S b, (feistelRound S p a).1 ^^^ pWord S c) b =
      (p.2 ^^^ pWord S c, p.1 ^^^ pWord S a) := by
  obtain ⟨x, y⟩ := p
  have h1 : pWord S b ^^^ (pWord S a ^^^ x ^^^ pWord S b) = pWord S a ^^^ x := by
    rw [BitVec.xor_comm (pWord S a ^^^ x), ← BitVec.xor_assoc, BitVec.xor_self, BitVec.zero_xor]
  simp only [feistelRound, h1]
  refine Prod.ext ?_ (BitVec.xor_comm _ _)
  simp only [← BitVec.xor_assoc, BitVec.xor_self, BitVec.zero_xor]

/-- Step 1 of the pass changes one entry at a time (R125). -/
theorem getElem_xorEntry (k : Key) (S : Schedule) (i : Fin PLEN) (n : Nat) (h : n < KS_LEN) :
    (xorEntry k S i)[n] = if i.val = n then pWord S i ^^^ bswap32 (keyParity k i.val) else S[n] := by
  simp [xorEntry, Vector.getElem_set]

/-- Step 2 of the pass writes the pair it computed, the halves swapped, and carries it on (R125 notes (c), (d)). -/
theorem getElem_remixPair (st : Schedule × (Word × Word)) (j : Fin KS_PAIRS) (n : Nat) (h : n < KS_LEN) :
    (remixPair st j).1[n] =
      if n = 2 * j.val then (enc st.1 st.2).2 else if n = 2 * j.val + 1 then (enc st.1 st.2).1 else st.1[n] := by
  simp only [remixPair, Vector.getElem_set]
  split_ifs <;> first | rfl | omega

@[simp] theorem remixPair_snd (st : Schedule × (Word × Word)) (j : Fin KS_PAIRS) :
    (remixPair st j).2 = enc st.1 st.2 := rfl

/-- A seed there is, and one there is not (30_encoding.md R87(c)). -/
theorem seedOf_of_lt {c : Config} {sel : Byte} (h : sel.toNat < c.nseed) : ∃ seed, seedOf c sel = some seed :=
  ⟨_, List.getElem?_eq_getElem h⟩

theorem seedOf_of_le {c : Config} {sel : Byte} (h : c.nseed ≤ sel.toNat) : seedOf c sel = none :=
  List.getElem?_eq_none h

end Sys2Proof.Machine
end

