-- ==== Sys2Proof/Laws/Ports.lean ====
section
/-! SUPPORT. What a transaction on port T or F does, once: its answer, and the state after it. -/

namespace Sys2Proof.Machine

/-! ## Answers carry what was asked for -/

theorem replyFits_fitReply (k n : Nat) (r : Reply) : replyFits n (fitReply k n r) := by
  cases r with
  | fail => trivial
  | ok b =>
    simp only [fitReply, replyFits, List.length_append, List.length_take, List.length_map, List.length_range']
    omega

theorem replyFits_freeReply (k n : Nat) : replyFits n (freeReply k n) := by
  unfold freeReply
  split
  · simp [replyFits]
  · trivial

/-- Every answer of port T carries exactly the requested bytes (00_scope.md R14). -/
theorem replyFits_tReply (e : Env) (j n : Nat) : replyFits n (tReply e j n) := by
  unfold tReply
  split
  · exact replyFits_fitReply _ _ _
  · exact replyFits_freeReply _ _

theorem length_of_tReply {e : Env} {j n : Nat} {b : List Byte} (h : tReply e j n = .ok b) : b.length = n := by
  have := replyFits_tReply e j n
  rw [h] at this
  exact this

theorem replyFits_idealFlash (c : Config) (e : Env) (x : FTxn) : replyFits (fBytes x) (idealFlash c e x).1 := by
  cases x <;> simp only [idealFlash] <;> split <;> simp [replyFits, fBytes, flashBytes]

/-- Every answer of port F carries exactly the requested bytes (R14). -/
theorem replyFits_fAnswer (c : Config) (e : Env) (x : FTxn) : replyFits (fBytes x) (fAnswer c e x).1 := by
  unfold fAnswer
  split
  · trivial
  · exact replyFits_fitReply e.draws (fBytes x) (.ok _)
  · exact replyFits_idealFlash _ _ _
  · split
    · exact replyFits_freeReply e.draws (fBytes x)
    · exact replyFits_idealFlash _ _ _

theorem length_of_fAnswer_memRead {c : Config} {e : Env} {a n : Nat} {b : List Byte}
    (h : (fAnswer c e (.memRead a n)).1 = .ok b) : b.length = n := by
  have := replyFits_fAnswer c e (.memRead a n)
  rw [h] at this
  exact this

/-! ## The environment moves on -/

@[simp] theorem afterT_zero (e : Env) : afterT e 0 = e := rfl

@[simp] theorem afterT_afterT (e : Env) (a b : Nat) : afterT (afterT e a) b = afterT e (a + b) := by
  simp [afterT, Nat.add_assoc]

@[simp] theorem tReply_afterT (e : Env) (a j n : Nat) : tReply (afterT e a) j n = tReply e (a + j) n := by
  simp [tReply, afterT, Nat.add_assoc]

@[simp] theorem afterT_fScript (e : Env) (n : Nat) : (afterT e n).fScript = e.fScript := rfl
@[simp] theorem afterT_fRest (e : Env) (n : Nat) : (afterT e n).fRest = e.fRest := rfl
@[simp] theorem afterT_flashSize (e : Env) (n : Nat) : (afterT e n).flashSize = e.flashSize := rfl
@[simp] theorem afterT_flash (e : Env) (n : Nat) : (afterT e n).flash = e.flash := rfl

@[simp] theorem afterF_tScript (c : Config) (e : Env) (x : FTxn) : (afterF c e x).tScript = e.tScript := rfl
@[simp] theorem afterF_fRest (c : Config) (e : Env) (x : FTxn) : (afterF c e x).fRest = e.fRest := rfl
@[simp] theorem afterF_flashSize (c : Config) (e : Env) (x : FTxn) : (afterF c e x).flashSize = e.flashSize := rfl
@[simp] theorem afterF_flash (c : Config) (e : Env) (x : FTxn) : (afterF c e x).flash = (fAnswer c e x).2 := rfl

@[simp] theorem issueT_env (x : TTxn) (n : Nat) (s : State) : (issueT x n s).2.env = afterT s.env 1 := by
  simp [issueT, afterT]

/-- All that a transaction on port T does. -/
theorem issueT_eq (x : TTxn) (n : Nat) (s : State) : issueT x n s = (tReply s.env 0 n,
    { s with env := afterT s.env 1, trace := s.trace ++ [⟨.t x, tReply s.env 0 n⟩] }) := by
  simp [issueT, afterT]

/-- All that a transaction on port F does. -/
theorem issueF_eq (x : FTxn) (s : State) : issueF x s = ((fAnswer s.cfg s.env x).1,
    { s with env := afterF s.cfg s.env x, trace := s.trace ++ [⟨.f x, (fAnswer s.cfg s.env x).1⟩] }) := rfl

/-! ## The framed commands -/

/-- All that a raw-framed command does (42_protocol.md R144, R148). -/
theorem sendRaw_eq (op8 : Byte) (args : Args) (rlen : Half) (tf : Word) (s : State) :
    sendRaw op8 args rlen tf s = (tReply s.env 0 rlen.toNat, { s with
      env := afterT s.env 1
      trace := s.trace ++ [⟨.t (.send (toBytes (frameRaw op8 args)) rlen tf), tReply s.env 0 rlen.toNat⟩] }) := by
  rw [sendRaw, tSend, issueT_eq]

/-- All that the activate command does: the counter stays (R148). -/
theorem sendAct_eq (s : State) : sendAct s = (tReply s.env 0 0, { s with
      env := afterT s.env 1
      trace := s.trace ++ [⟨.t (.send (toBytes (actWord s)) 0 s.cfg.timingRaw), tReply s.env 0 0⟩] }) := by
  rw [sendAct, tSend, issueT_eq]
  rfl

/-- All that `C1_CMD` does: one transaction, and the counter advanced by one whatever the answer (R147). -/
theorem c1Cmd_eq (op8 : Byte) (l : Half) (rlen : Half) (s : State) :
    c1Cmd op8 l rlen s = (tReply s.env 0 rlen.toNat, { s with
      cs := { s.cs with nonceCounter := s.cs.nonceCounter + 1 }
      env := afterT s.env 1
      trace := s.trace ++ [⟨.t (.send (toBytes (encryptWord s.cs.ks (c1Word s op8 l))) rlen s.cs.timingC1),
        tReply s.env 0 rlen.toNat⟩] }) := by
  rw [c1Cmd, tSend, issueT_eq]
  rfl

theorem tReset_eq (s : State) : tReset s = (tReply s.env 0 0, { s with
      env := afterT s.env 1, trace := s.trace ++ [⟨.t .reset, tReply s.env 0 0⟩] }) := by
  rw [tReset, issueT_eq]

theorem tSeedC2_eq (v : SeedWord × SeedWord) (s : State) : tSeedC2 v s = (tReply s.env 0 0, { s with
      env := afterT s.env 1, trace := s.trace ++ [⟨.t (.seedC2 v.1 v.2), tReply s.env 0 0⟩] }) := by
  rw [tSeedC2, issueT_eq]

end Sys2Proof.Machine
end

