-- ==== Sys2Proof/Laws/Memory.lean ====
section
/-! SUPPORT. The ideal flash: a read gives what was written last, and every operation keeps the canonical form. -/

namespace Sys2Proof.Machine

/-! ## Reading -/

/-- A byte below the first listed address is erased. -/
theorem flashByte_of_lt {m : Memory} {a : Nat} (h : ∀ c ∈ m, a < c.1) : flashByte m a = erasedByte := by
  induction m with
  | nil => rfl
  | cons c m ih =>
    have hc := h c (by simp)
    rw [flashByte, if_neg (by omega)]
    exact ih fun d hd => h d (by simp [hd])

/-- Read after write, at the same address and at every other. -/
theorem flashByte_flashSet {m : Memory} (h : m.wf) (a : Nat) (b : Byte) (a' : Nat) :
    flashByte (flashSet m a b) a' = if a' = a then b else flashByte m a' := by
  induction m with
  | nil =>
    simp only [flashSet]
    split <;> rename_i hb
    · simp [flashByte, hb]
    · simp only [flashByte]; split <;> rename_i h1
      · simp [h1]
      · rw [if_neg (fun e => h1 e.symm)]
  | cons c m ih =>
    obtain ⟨hs, hn⟩ := h
    rw [List.pairwise_cons] at hs
    have hm : Memory.wf m := ⟨hs.2, fun d hd => hn d (by simp [hd])⟩
    have hlow : ∀ x, x ≤ c.1 → flashByte m x = erasedByte := fun x hx =>
      flashByte_of_lt fun d hd => by have := hs.1 d hd; omega
    simp only [flashSet]
    split
    · simp only [flashByte, ih hm]
      split_ifs <;> first | rfl | omega
    · split <;> rename_i h1 h2
      · subst h2
        split <;> rename_i hb
        · by_cases ha : a' = c.1
          · rw [ha, hlow c.1 (le_refl _), if_pos rfl, hb]
          · simp only [flashByte]; rw [if_neg ha, if_neg (fun e => ha e.symm)]
        · simp only [flashByte]
          split_ifs <;> first | rfl | omega
      · split <;> rename_i hb
        · by_cases ha : a' = a
          · rw [if_pos ha, ha, hb]; simp only [flashByte]
            rw [if_neg (by omega)]; exact hlow a (by omega)
          · rw [if_neg ha]
        · simp only [flashByte]
          split_ifs <;> first | rfl | omega

theorem flashByte_flashErase (m : Memory) (a n a' : Nat) :
    flashByte (flashErase m a n) a' = if a ≤ a' ∧ a' < a + n then erasedByte else flashByte m a' := by
  induction m with
  | nil => simp [flashErase, flashByte]
  | cons c m ih =>
    simp only [flashErase, List.filter_cons] at ih ⊢
    by_cases hc : a ≤ c.1 ∧ c.1 < a + n
    · rw [if_neg (by simp; omega), ih]
      simp only [flashByte]
      split_ifs <;> first | rfl | omega
    · rw [if_pos (by simp; omega)]
      simp only [flashByte, ih]
      split_ifs <;> first | rfl | omega

/-! ## The canonical form -/

theorem mem_flashSet {m : Memory} {a : Nat} {b : Byte} {c : Host.Cell} (h : c ∈ flashSet m a b) :
    c ∈ m ∨ (c = (a, b) ∧ b ≠ erasedByte) := by
  induction m with
  | nil =>
    simp only [flashSet] at h
    split at h <;> simp_all
  | cons d m ih =>
    simp only [flashSet] at h
    split at h
    · rcases List.mem_cons.mp h with h | h
      · exact .inl (by simp [h])
      · rcases ih h with h | h
        · exact .inl (by simp [h])
        · exact .inr h
    · split at h <;> split at h <;> simp_all <;> tauto

theorem flashSet_wf {m : Memory} (h : m.wf) (a : Nat) (b : Byte) : (flashSet m a b).wf := by
  refine ⟨?_, fun c hc => ?_⟩
  · induction m with
    | nil => simp only [flashSet]; split <;> simp
    | cons d m ih =>
      obtain ⟨hs, hn⟩ := h
      have hs' := hs
      rw [List.pairwise_cons] at hs
      have hm : Memory.wf m := ⟨hs.2, fun e he => hn e (by simp [he])⟩
      simp only [flashSet]
      split
      · rename_i hlt
        refine List.pairwise_cons.mpr ⟨fun e he => ?_, ih hm⟩
        rcases mem_flashSet he with he | ⟨rfl, -⟩
        · exact hs.1 e he
        · exact hlt
      · split
        · rename_i heq
          split
          · exact hs.2
          · exact List.pairwise_cons.mpr ⟨fun e he => heq ▸ hs.1 e he, hs.2⟩
        · split
          · exact hs'
          · refine List.pairwise_cons.mpr ⟨fun e he => ?_, hs'⟩
            rcases List.mem_cons.mp he with rfl | he
            · simp only; omega
            · have := hs.1 e he; simp only; omega
  · rcases mem_flashSet hc with hc | ⟨rfl, hb⟩
    · exact h.2 c hc
    · exact hb

theorem flashErase_wf {m : Memory} (h : m.wf) (a n : Nat) : (flashErase m a n).wf :=
  ⟨h.1.filter _, fun c hc => h.2 c (List.mem_of_mem_filter hc)⟩

theorem flashProgram_wf {m : Memory} (h : m.wf) (a : Nat) (v : List Byte) : (flashProgram m a v).wf := by
  induction v generalizing m a with
  | nil => exact h
  | cons b v ih => exact ih (flashSet_wf h _ _) _

theorem flashByte_flashProgram {m : Memory} (h : m.wf) (a : Nat) (v : List Byte) (a' : Nat) :
    flashByte (flashProgram m a v) a' =
      if a ≤ a' ∧ a' < a + v.length then flashByte m a' &&& v.getD (a' - a) 0 else flashByte m a' := by
  induction v generalizing m a with
  | nil =>
    rw [flashProgram, if_neg]
    simp only [List.length_nil]
    omega
  | cons b v ih =>
    rw [flashProgram, ih (flashSet_wf h _ _)]
    simp only [flashByte_flashSet h, List.length_cons]
    by_cases h0 : a' = a
    · subst h0
      rw [if_neg (by omega), if_pos rfl, if_pos (by omega)]
      simp
    · by_cases h1 : a + 1 ≤ a' ∧ a' < a + 1 + v.length
      · rw [if_pos h1, if_neg h0, if_pos (by omega)]
        have : a' - a = (a' - (a + 1)) + 1 := by omega
        rw [this, List.getD_cons_succ]
      · rw [if_neg h1, if_neg h0, if_neg (by omega)]

/-- Program and erase list no address outside what they touch. -/
theorem mem_flashProgram {m : Memory} {a : Nat} {v : List Byte} {c : Host.Cell} (h : c ∈ flashProgram m a v) :
    c ∈ m ∨ (a ≤ c.1 ∧ c.1 < a + v.length) := by
  induction v generalizing m a with
  | nil => exact .inl h
  | cons b v ih =>
    rw [flashProgram] at h
    rcases ih h with h | h
    · rcases mem_flashSet h with h | ⟨rfl, -⟩
      · exact .inl h
      · exact .inr (by simp)
    · exact .inr (by simp only [List.length_cons]; omega)

/-- No answer of port F breaks the canonical form. -/
theorem fAnswer_wf (c : Config) {e : Env} (h : e.flash.wf) (x : FTxn) : (fAnswer c e x).2.wf := by
  have hi : (idealFlash c e x).2.wf := by
    cases x <;> simp only [idealFlash] <;> split <;>
      first | exact h | exact flashErase_wf h _ _ | exact flashProgram_wf h _ _
  unfold fAnswer
  split
  · exact h
  · exact h
  · exact hi
  · split
    · exact h
    · exact hi

/-- A read leaves the flash alone. -/
@[simp] theorem fAnswer_memRead_flash (c : Config) (e : Env) (a n : Nat) : (fAnswer c e (.memRead a n)).2 = e.flash := by
  have hi : (idealFlash c e (.memRead a n)).2 = e.flash := by simp only [idealFlash]; split <;> rfl
  unfold fAnswer
  split
  · rfl
  · rfl
  · exact hi
  · split
    · rfl
    · exact hi

end Sys2Proof.Machine
end

