-- ==== Sys2Proof/Laws/Flash.lean ====
section
/-! SUPPORT. What the functions of the flash sequencer do, once: which transactions they issue, what they answer, and what
they leave alone. -/

namespace Sys2Proof.Machine

/-! ## Pieces of a run that use only port F -/

/-- A transaction of port F with an answer of the right length. -/
def fEvent (e : Event) : Prop :=
  match e.txn with
  | .f x => replyFits (fBytes x) e.reply
  | .t _ => False

/-- From `s` to `t` the transactions `evs` were issued, all on port F, and no register was written. -/
structure FRun (s t : State) (evs : List Event) : Prop where
  cfg : t.cfg = s.cfg
  cs : t.cs = s.cs
  key : t.key = s.key
  requests : t.requests = s.requests
  result : t.result = s.result
  tScript : t.env.tScript = s.env.tScript
  fRest : t.env.fRest = s.env.fRest
  flashSize : t.env.flashSize = s.env.flashSize
  fScript : t.env.fScript = s.env.fScript.drop evs.length
  trace : t.trace = s.trace ++ evs
  events : ∀ e ∈ evs, fEvent e

theorem FRun.refl (s : State) : FRun s s [] := by constructor <;> simp

theorem FRun.trans {s t u : State} {as bs : List Event} (h : FRun s t as) (k : FRun t u bs) : FRun s u (as ++ bs) where
  cfg := k.cfg.trans h.cfg
  cs := k.cs.trans h.cs
  key := k.key.trans h.key
  requests := k.requests.trans h.requests
  result := k.result.trans h.result
  tScript := k.tScript.trans h.tScript
  fRest := k.fRest.trans h.fRest
  flashSize := k.flashSize.trans h.flashSize
  fScript := by rw [k.fScript, h.fScript, List.drop_drop, List.length_append]
  trace := by rw [k.trace, h.trace, List.append_assoc]
  events := fun e he => (List.mem_append.mp he).elim (h.events e) (k.events e)

/-- The frame of such a run, as one equation. -/
theorem FRun.eq {s t : State} {evs : List Event} (h : FRun s t evs) :
    t = { s with env := t.env, trace := s.trace ++ evs } := by
  cases s; cases t
  simp only [State.mk.injEq]
  exact ⟨h.cfg, h.cs, h.key, h.requests, h.result, trivial, h.trace⟩

theorem FRun.idealPort {s t : State} {evs : List Event} (h : FRun s t evs) {size : Nat} (hp : IdealPort s.env size) :
    IdealPort t.env size := by
  obtain ⟨h1, h2, h3⟩ := hp
  exact ⟨by rw [h.fScript, h1, List.drop_nil], h.fRest.trans h2, h.flashSize.trans h3⟩

theorem issueF_run (x : FTxn) (s : State) :
    FRun s (issueF x s).2 [⟨.f x, (fAnswer s.cfg s.env x).1⟩] := by
  constructor <;> simp [fEvent, replyFits_fAnswer, afterF]

/-- On the ideal flash the script is empty and the flash answers. -/
theorem fAnswer_of_ideal {c : Config} {e : Env} {size : Nat} (h : IdealPort e size) (x : FTxn) :
    fAnswer c e x = idealFlash c e x := by
  obtain ⟨h1, h2, -⟩ := h
  simp [fAnswer, h1, h2]

/-! ## Reading -/

theorem delivered_nil (bs : List ReadBlk) : delivered bs [] = [] := by simp [delivered]

theorem delivered_cons_ok (b : ReadBlk) (bs : List ReadBlk) (x : Txn) (d : List Byte) (evs : List Event) :
    delivered (b :: bs) (⟨x, .ok d⟩ :: evs) = d.take b.keep ++ delivered bs evs := by
  simp [delivered]

/-- The loop over the blocks: along the plan to its end, or to the first failure (43_flash.md R172). -/
theorem readBlocks_cases (bs : List ReadBlk) (n : Nat) (data : List Byte) (s : State) :
    ∃ evs, FRun s (readBlocks bs n data s).2 evs ∧ (readBlocks bs n data s).2.env.flash = s.env.flash ∧
      (((readBlocks bs n data s).1 = ⟨true, n + (bs.map (·.keep)).sum, data ++ delivered bs evs⟩ ∧
          ReadRun bs (delivered bs evs) evs) ∨
       (∃ good bad, evs = good ++ [bad] ∧ bad.reply = .fail ∧ (∀ e ∈ good, e.reply ≠ .fail) ∧
          evs.map (·.txn) = (bs.take evs.length).map blkTxn ∧ evs.length ≤ bs.length ∧
          (readBlocks bs n data s).1 =
            ⟨false, n + ((bs.take good.length).map (·.keep)).sum, data ++ delivered bs good⟩)) := by
  induction bs generalizing n data s with
  | nil => exact ⟨[], FRun.refl s, rfl, .inl ⟨by simp [readBlocks, delivered], by simp [ReadRun, delivered]⟩⟩
  | cons b bs ih =>
    have hrun := issueF_run (.memRead b.addr b.n) s
    have hfl : (issueF (.memRead b.addr b.n) s).2.env.flash = s.env.flash := by simp
    cases hr : (fAnswer s.cfg s.env (.memRead b.addr b.n)).1 with
    | fail =>
      rw [hr] at hrun
      have he : readBlocks (b :: bs) n data s = (⟨false, n, data⟩, (issueF (.memRead b.addr b.n) s).2) := by
        simp only [readBlocks, memRead, issueF_reply, hr]
      rw [he]
      exact ⟨_, hrun, hfl, .inr ⟨[], _, rfl, rfl, by simp, by simp [blkTxn], by simp, by simp [delivered]⟩⟩
    | ok d =>
      rw [hr] at hrun
      have he : readBlocks (b :: bs) n data s =
          readBlocks bs (n + b.keep) (data ++ d.take b.keep) (issueF (.memRead b.addr b.n) s).2 := by
        simp only [readBlocks, memRead, issueF_reply, hr]
      rw [he]
      obtain ⟨evs, h1, h2, h3⟩ := ih (n + b.keep) (data ++ d.take b.keep) (issueF (.memRead b.addr b.n) s).2
      refine ⟨_, hrun.trans h1, h2.trans hfl, ?_⟩
      rcases h3 with ⟨ho, ht, hok, -⟩ | ⟨good, bad, hev, hb, hg, ht, hl, ho⟩
      · refine .inl ⟨?_, ?_, ?_, rfl⟩
        · rw [ho, List.singleton_append, delivered_cons_ok]
          simp [Nat.add_assoc]
        · simp [ht, blkTxn]
        · intro e he
          rcases List.mem_append.mp he with he | he
          · rw [List.mem_singleton.mp he]; exact Reply.noConfusion
          · exact hok e he
      · refine .inr ⟨⟨.f (.memRead b.addr b.n), .ok d⟩ :: good, bad, by simp [hev], hb, ?_, ?_, ?_, ?_⟩
        · intro e he
          rcases List.mem_cons.mp he with he | he
          · rw [he]; exact Reply.noConfusion
          · exact hg e he
        · simp [ht, blkTxn]
        · simpa using hl
        · rw [ho, delivered_cons_ok]
          simp [Nat.add_assoc]

theorem gran_pos (c : Config) : 0 < gran c := Nat.two_pow_pos _
theorem erasePage_pos (c : Config) : 0 < erasePage c := Nat.two_pow_pos _
theorem writePage_pos (c : Config) : 0 < writePage c := Nat.two_pow_pos _
theorem gran_le_chunk (c : Config) : gran c ≤ chunk c := Nat.le_max_right _ _
theorem chunk_pos (c : Config) : 0 < chunk c := Nat.lt_of_lt_of_le (gran_pos c) (gran_le_chunk c)

/-- `align_up` (00_scope.md R12): the least multiple that is not smaller. -/
theorem alignUp_bounds {e : Nat} (he : 0 < e) (a : Nat) :
    alignUp a e % e = 0 ∧ a ≤ alignUp a e ∧ alignUp a e < a + e := by
  unfold alignUp
  have h1 := Nat.div_add_mod (a + (e - 1)) e
  have h2 := Nat.mod_lt (a + (e - 1)) he
  rw [Nat.mul_comm] at h1
  exact ⟨Nat.mul_mod_left _ _, by omega, by omega⟩

/-- Every block of a plan lies in the range, asks for what it keeps and less than a granule more, and keeps something
unless the range is empty. -/
theorem mem_readPlan {c : Config} {start len : Nat} {progress : Bool} {b : ReadBlk}
    (h : b ∈ readPlan c start len progress) :
    start ≤ b.addr ∧ b.addr + b.keep ≤ start + len ∧ b.keep ≤ b.n ∧ b.n < b.keep + gran c ∧
      (len ≠ 0 → 0 < b.keep) := by
  have hg := gran_pos c
  have hc := chunk_pos c
  have hd := Nat.div_add_mod len (chunk c)
  unfold readPlan at h
  split at h
  · rw [List.mem_singleton] at h
    subst h
    simp only
    omega
  · unfold slowBlocks at h
    rcases List.mem_append.mp h with h | h
    · obtain ⟨i, hi, rfl⟩ := List.mem_map.mp h
      rw [List.mem_range] at hi
      have := Nat.mul_le_mul_right (chunk c) (Nat.succ_le_of_lt hi)
      rw [Nat.succ_mul, Nat.mul_comm (len / chunk c)] at this
      simp only
      omega
    · split at h
      · simp at h
      · rw [List.mem_singleton] at h
        subst h
        have := alignUp_bounds hg (len % chunk c)
        simp only
        rw [Nat.mul_comm (len / chunk c)]
        omega

/-- The blocks of a plan deliver the whole range. -/
theorem sum_keep_readPlan (c : Config) (start len : Nat) (progress : Bool) :
    ((readPlan c start len progress).map (·.keep)).sum = len := by
  unfold readPlan
  split
  · simp
  · have hd := Nat.div_add_mod len (chunk c)
    rw [Nat.mul_comm] at hd
    unfold slowBlocks
    rw [List.map_append, List.sum_append, List.map_map]
    have h1 : ((List.range (len / chunk c)).map ((·.keep) ∘ fun i => (⟨start + i * chunk c, chunk c, chunk c⟩ : ReadBlk))).sum
        = len / chunk c * chunk c := by
      simp [Function.comp_def]
    rw [h1]
    split <;> rename_i h0
    · simp only [List.map_nil, List.sum_nil]; omega
    · simp only [List.map_cons, List.map_nil, List.sum_cons, List.sum_nil]; omega

/-- What a piece of history delivers is as long as the blocks it answers say. -/
theorem length_delivered {bs : List ReadBlk} {evs : List Event} (hb : ∀ b ∈ bs, b.keep ≤ b.n)
    (he : ∀ e ∈ evs, fEvent e) (hok : ∀ e ∈ evs, e.reply ≠ .fail)
    (ht : evs.map (·.txn) = (bs.take evs.length).map blkTxn) :
    (delivered bs evs).length = ((bs.take evs.length).map (·.keep)).sum := by
  induction evs generalizing bs with
  | nil => simp [delivered]
  | cons e evs ih =>
    cases bs with
    | nil => simp at ht
    | cons b bs =>
      obtain ⟨x, r⟩ := e
      simp only [List.length_cons, List.take_succ_cons, List.map_cons, List.cons.injEq] at ht
      cases r with
      | fail => exact absurd rfl (hok _ List.mem_cons_self)
      | ok d =>
        have hd := he _ List.mem_cons_self
        simp only [fEvent, ht.1, blkTxn, replyFits, fBytes] at hd
        have hk := hb _ List.mem_cons_self
        rw [delivered_cons_ok, List.length_append, List.length_cons, List.take_succ_cons, List.map_cons, List.sum_cons,
          ih (fun b h => hb b (List.mem_cons_of_mem _ h)) (fun e h => he e (List.mem_cons_of_mem _ h))
            (fun e h => hok e (List.mem_cons_of_mem _ h)) ht.2, List.length_take]
        omega

/-- `Read` (43_flash.md R171, R172): the whole range, or what was delivered before the first failure. -/
theorem readRange_cases (start len : Nat) (progress : Bool) (s : State) :
    ∃ evs, FRun s (readRange start len progress s).2 evs ∧ (readRange start len progress s).2.env.flash = s.env.flash ∧
      (((readRange start len progress s).1 = ⟨true, len, delivered (readPlan s.cfg start len progress) evs⟩ ∧
          ReadRun (readPlan s.cfg start len progress) (delivered (readPlan s.cfg start len progress) evs) evs ∧
          (delivered (readPlan s.cfg start len progress) evs).length = len) ∨
       (∃ good bad, evs = good ++ [bad] ∧ bad.reply = .fail ∧ (∀ e ∈ good, e.reply ≠ .fail) ∧
          evs.map (·.txn) = ((readPlan s.cfg start len progress).take evs.length).map blkTxn ∧
          evs.length ≤ (readPlan s.cfg start len progress).length ∧
          (readRange start len progress s).1 = ⟨false, (delivered (readPlan s.cfg start len progress) good).length,
            delivered (readPlan s.cfg start len progress) good⟩ ∧
          ((delivered (readPlan s.cfg start len progress) good).length < len ∨ len = 0))) := by
  have hm : ∀ b ∈ readPlan s.cfg start len progress, b.keep ≤ b.n := fun b hb => (mem_readPlan hb).2.2.1
  obtain ⟨evs, h1, h2, h3⟩ := readBlocks_cases (readPlan s.cfg start len progress) 0 [] s
  refine ⟨evs, h1, h2, ?_⟩
  rcases h3 with ⟨ho, hr⟩ | ⟨good, bad, hev, hb, hg, ht, hl, ho⟩
  · have hlen : evs.length = (readPlan s.cfg start len progress).length := by
      simpa using congrArg List.length hr.1
    refine .inl ⟨?_, hr, ?_⟩
    · simp only [readRange, ho, sum_keep_readPlan]
      simp
    · rw [length_delivered hm h1.events hr.2.1 (by rw [hlen, List.take_length]; exact hr.1), hlen, List.take_length,
        sum_keep_readPlan]
  · have hgl : good.length < (readPlan s.cfg start len progress).length := by
      rw [hev] at hl; simpa using hl
    have htg : good.map (·.txn) = ((readPlan s.cfg start len progress).take good.length).map blkTxn := by
      have h := congrArg (List.take good.length) ht
      rw [hev] at h
      simpa [List.take_take] using h
    have hge : ∀ e ∈ good, fEvent e := fun e he => h1.events e (by rw [hev]; simp [he])
    have hdl := length_delivered hm hge hg htg
    refine .inr ⟨good, bad, hev, hb, hg, ht, hl, ?_, ?_⟩
    · simp only [readRange, ho, hdl]
      simp
    · rw [hdl]
      by_cases h0 : len = 0
      · exact .inr h0
      · refine .inl ?_
        have hs := sum_keep_readPlan s.cfg start len progress
        rw [← List.take_append_drop good.length (readPlan s.cfg start len progress), List.map_append,
          List.sum_append] at hs
        have hcons := List.drop_eq_getElem_cons hgl
        rw [hcons, List.map_cons, List.sum_cons] at hs
        have hpos := (mem_readPlan (List.getElem_mem hgl)).2.2.2.2 h0
        omega

/-- A read that failed went along its plan to the failure. -/
theorem StoppedRun.of_read {plan : List ReadBlk} {good evs : List Event} {bad : Event} (he : evs = good ++ [bad])
    (hb : bad.reply = .fail) (hg : ∀ e ∈ good, e.reply ≠ .fail)
    (ht : evs.map (·.txn) = (plan.take evs.length).map blkTxn) : StoppedRun (plan.map blkTxn) evs :=
  ⟨good, bad, he, hb, hg, by rw [ht]; exact (List.take_prefix _ _).map _⟩

/-- One more transaction before a piece that stopped. -/
theorem StoppedRun.cons {plan : List Txn} {evs : List Event} {x : Txn} {r : Reply} (hr : r ≠ .fail)
    (h : StoppedRun plan evs) : StoppedRun (x :: plan) (⟨x, r⟩ :: evs) := by
  obtain ⟨good, bad, rfl, h1, h2, h3⟩ := h
  refine ⟨⟨x, r⟩ :: good, bad, rfl, h1, fun e he => ?_, ?_⟩
  · rcases List.mem_cons.mp he with he | he
    · rw [he]; exact hr
    · exact h2 e he
  · rw [List.map_cons]; exact List.cons_prefix_cons.mpr ⟨rfl, h3⟩

theorem StoppedRun.length_pos {plan : List Txn} {evs : List Event} (h : StoppedRun plan evs) : 0 < evs.length := by
  obtain ⟨good, bad, rfl, -⟩ := h
  simp

/-! ## One page -/

/-- The result code that names a failed primitive (60_exceptions.md R190). -/
def primCode : Txn → Option ResultCode
  | .f (.memRead _ _) => some .errPrimRead
  | .f (.memErase _) => some .errPrimErase
  | .f (.memWrite _ _ _) => some .errPrimWrite
  | .t _ => none

/-- A piece of history that ended at its first failure, which `code` names. -/
def Failed (code : ResultCode) (evs : List Event) : Prop :=
  ∃ good bad, evs = good ++ [bad] ∧ bad.reply = .fail ∧ (∀ e ∈ good, e.reply ≠ .fail) ∧ primCode bad.txn = some code

theorem Failed.prepend {code : ResultCode} {as bs : List Event} (h : Failed code bs) (ha : ∀ e ∈ as, e.reply ≠ .fail) :
    Failed code (as ++ bs) := by
  obtain ⟨good, bad, rfl, h1, h2, h3⟩ := h
  exact ⟨as ++ good, bad, by simp, h1, fun e he => (List.mem_append.mp he).elim (ha e) (h2 e), h3⟩

/-- What the page at `p` was asked for, failed or not: a read of it, and then perhaps its erase and writes. -/
def PageShape (c : Config) (j : WriteJob) (p : Nat) (evs : List Event) : Prop :=
  ∃ pb rs ws, evs = rs ++ ws ∧ rs.map (·.txn) <+: (readPlan c p (erasePage c) false).map blkTxn ∧
    ws.map (·.txn) <+: rewriteTxns c p (splice c j p pb) ∧ pb.length = erasePage c

theorem fAnswer_memErase_flash (c : Config) (e : Env) (p : Nat) :
    (fAnswer c e (.memErase p)).2 = e.flash ∨ (fAnswer c e (.memErase p)).2 = flashErase e.flash p (erasePage c) := by
  have hi : (idealFlash c e (.memErase p)).2 = e.flash ∨
      (idealFlash c e (.memErase p)).2 = flashErase e.flash p (erasePage c) := by
    simp only [idealFlash]; split
    · exact .inr rfl
    · exact .inl rfl
  unfold fAnswer
  split
  · exact .inl rfl
  · exact .inl rfl
  · exact hi
  · split
    · exact .inl rfl
    · exact hi

theorem fAnswer_memWrite_flash (c : Config) (e : Env) (a n : Nat) (v : List Byte) :
    (fAnswer c e (.memWrite a n v)).2 = e.flash ∨ (fAnswer c e (.memWrite a n v)).2 = flashProgram e.flash a v := by
  have hi : (idealFlash c e (.memWrite a n v)).2 = e.flash ∨
      (idealFlash c e (.memWrite a n v)).2 = flashProgram e.flash a v := by
    simp only [idealFlash]; split
    · exact .inr rfl
    · exact .inl rfl
  unfold fAnswer
  split
  · exact .inl rfl
  · exact .inl rfl
  · exact hi
  · split
    · exact .inl rfl
    · exact hi

/-- Between `s` and `t` no byte of the ideal flash outside `[p, p + n)` changed, and the canonical form stayed. -/
def FlashKept (s t : State) (p n : Nat) : Prop :=
  s.env.flash.wf → t.env.flash.wf ∧ ∀ a, ¬(p ≤ a ∧ a < p + n) → flashByte t.env.flash a = flashByte s.env.flash a

theorem FlashKept.refl {s t : State} (h : t.env.flash = s.env.flash) (p n : Nat) : FlashKept s t p n :=
  fun hw => ⟨h ▸ hw, fun _ _ => by rw [h]⟩

theorem FlashKept.trans {s t u : State} {p n : Nat} (h : FlashKept s t p n) (k : FlashKept t u p n) :
    FlashKept s u p n := fun hw =>
  ⟨(k (h hw).1).1, fun a ha => ((k (h hw).1).2 a ha).trans ((h hw).2 a ha)⟩

theorem FlashKept.erase (p : Nat) (s : State) : FlashKept s (issueF (.memErase p) s).2 p (erasePage s.cfg) := fun hw => by
  refine ⟨fAnswer_wf _ hw _, fun a ha => ?_⟩
  show flashByte (fAnswer s.cfg s.env (.memErase p)).2 a = _
  rcases fAnswer_memErase_flash s.cfg s.env p with h | h <;> rw [h]
  rw [flashByte_flashErase, if_neg ha]

theorem FlashKept.write {p n a m : Nat} {v : List Byte} (s : State) (h1 : p ≤ a) (h2 : a + v.length ≤ p + n) :
    FlashKept s (issueF (.memWrite a m v) s).2 p n := fun hw => by
  refine ⟨fAnswer_wf _ hw _, fun x hx => ?_⟩
  show flashByte (fAnswer s.cfg s.env (.memWrite a m v)).2 x = _
  rcases fAnswer_memWrite_flash s.cfg s.env a m v with h | h <;> rw [h]
  rw [flashByte_flashProgram hw, if_neg (by omega)]

theorem writePage_dvd_erasePage (c : Config) : writePage c ∣ erasePage c :=
  Nat.pow_dvd_pow 2 c.wp_le_ep

/-- The write pages of an erase page fill it. -/
theorem subPage_end {c : Config} {k : Nat} (h : k < erasePage c / writePage c) :
    k * writePage c + writePage c ≤ erasePage c := by
  have := Nat.mul_le_mul_right (writePage c) (Nat.succ_le_of_lt h)
  rw [Nat.div_mul_cancel (writePage_dvd_erasePage c), Nat.succ_mul] at this
  exact this

theorem length_subPage_le (c : Config) (nb : List Byte) (k : Nat) : (subPage c nb k).length ≤ writePage c := by
  simp [subPage]

/-- The transaction that writes page `k` of the erase page at `p`. -/
def subTxn (c : Config) (p : Nat) (nb : List Byte) (k : Nat) : Txn :=
  .f (.memWrite (p + k * writePage c) (writePage c) (subPage c nb k))

/-- The write pages in order, to the end or to the first failure (43_flash.md R176). -/
theorem writeSubPages_cases (p : Nat) (nb : List Byte) (ks : List Nat) (s : State)
    (hk : ∀ k ∈ ks, k < erasePage s.cfg / writePage s.cfg) :
    ∃ evs, FRun s (writeSubPages p nb ks s).2 evs ∧ FlashKept s (writeSubPages p nb ks s).2 p (erasePage s.cfg) ∧
      evs.map (·.txn) <+: ks.map (subTxn s.cfg p nb) ∧
      (((writeSubPages p nb ks s).1 = none ∧ evs.map (·.txn) = ks.map (subTxn s.cfg p nb) ∧
          ∀ e ∈ evs, e.reply ≠ .fail) ∨
       ((writeSubPages p nb ks s).1 = some .errPrimWrite ∧ Failed .errPrimWrite evs ∧
          StoppedRun (ks.map (subTxn s.cfg p nb)) evs)) := by
  induction ks generalizing s with
  | nil => exact ⟨[], FRun.refl s, FlashKept.refl rfl _ _, by simp, .inl ⟨rfl, by simp, by simp⟩⟩
  | cons k ks ih =>
    have hrun := issueF_run (.memWrite (p + k * writePage s.cfg) (writePage s.cfg) (subPage s.cfg nb k)) s
    have hend := subPage_end (hk k (by simp))
    have hkept : FlashKept s (issueF (.memWrite (p + k * writePage s.cfg) (writePage s.cfg)
        (subPage s.cfg nb k)) s).2 p (erasePage s.cfg) :=
      FlashKept.write (m := writePage s.cfg) (v := subPage s.cfg nb k) (a := p + k * writePage s.cfg) s (by omega)
        (by have := length_subPage_le s.cfg nb k; omega)
    cases hr : (fAnswer s.cfg s.env (.memWrite (p + k * writePage s.cfg) (writePage s.cfg) (subPage s.cfg nb k))).1 with
    | fail =>
      rw [hr] at hrun
      have he : writeSubPages p nb (k :: ks) s = (some .errPrimWrite, (issueF
          (.memWrite (p + k * writePage s.cfg) (writePage s.cfg) (subPage s.cfg nb k)) s).2) := by
        simp only [writeSubPages, memWrite, issueF_reply, hr]
      rw [he]
      exact ⟨_, hrun, hkept, by simp [subTxn], .inr ⟨rfl, ⟨[], _, rfl, rfl, by simp, rfl⟩,
        ⟨[], _, rfl, rfl, by simp, by simp [subTxn]⟩⟩⟩
    | ok d =>
      rw [hr] at hrun
      have he : writeSubPages p nb (k :: ks) s = writeSubPages p nb ks (issueF
          (.memWrite (p + k * writePage s.cfg) (writePage s.cfg) (subPage s.cfg nb k)) s).2 := by
        simp only [writeSubPages, memWrite, issueF_reply, hr]
      rw [he]
      obtain ⟨evs, h1, h2, h3, h4⟩ := ih (issueF
          (.memWrite (p + k * writePage s.cfg) (writePage s.cfg) (subPage s.cfg nb k)) s).2
          (fun k' hk' => hk k' (by simp [hk']))
      have hne : ∀ e ∈ [(⟨.f (.memWrite (p + k * writePage s.cfg) (writePage s.cfg) (subPage s.cfg nb k)), .ok d⟩ : Event)],
          e.reply ≠ .fail := by simp
      refine ⟨_, hrun.trans h1, hkept.trans h2, by simpa [subTxn] using h3, ?_⟩
      rcases h4 with ⟨h5, h6, h7⟩ | ⟨h5, h6, h7⟩
      · exact .inl ⟨h5, by simpa [subTxn] using h6, fun e he => (List.mem_append.mp he).elim (hne e) (h7 e)⟩
      · exact .inr ⟨h5, h6.prepend hne, h7.cons Reply.noConfusion⟩

/-- The erase and the writes of a page (43_flash.md R176). -/
theorem rewritePage_cases (p : Nat) (nb : List Byte) (s : State) :
    ∃ evs, FRun s (rewritePage p nb s).2 evs ∧ FlashKept s (rewritePage p nb s).2 p (erasePage s.cfg) ∧
      evs.map (·.txn) <+: rewriteTxns s.cfg p nb ∧
      (((rewritePage p nb s).1 = none ∧ evs.map (·.txn) = rewriteTxns s.cfg p nb ∧ ∀ e ∈ evs, e.reply ≠ .fail) ∨
       ∃ code, (rewritePage p nb s).1 = some code ∧ Failed code evs ∧ StoppedRun (rewriteTxns s.cfg p nb) evs ∧
          code = if evs.length = 1 then .errPrimErase else .errPrimWrite) := by
  have hrun := issueF_run (.memErase p) s
  have hkept := FlashKept.erase p s
  cases hr : (fAnswer s.cfg s.env (.memErase p)).1 with
  | fail =>
    rw [hr] at hrun
    have he : rewritePage p nb s = (some .errPrimErase, (issueF (.memErase p) s).2) := by
      simp only [rewritePage, memErase, issueF_reply, hr]
    rw [he]
    exact ⟨_, hrun, hkept, by simp [rewriteTxns], .inr ⟨_, rfl, ⟨[], _, rfl, rfl, by simp, rfl⟩,
      ⟨[], _, rfl, rfl, by simp, by simp [rewriteTxns]⟩, rfl⟩⟩
  | ok d =>
    rw [hr] at hrun
    have he : rewritePage p nb s =
        writeSubPages p nb (List.range (erasePage s.cfg / writePage s.cfg)) (issueF (.memErase p) s).2 := by
      simp only [rewritePage, memErase, issueF_reply, hr]
    rw [he]
    obtain ⟨evs, h1, h2, h3, h4⟩ := writeSubPages_cases p nb (List.range (erasePage s.cfg / writePage s.cfg))
      (issueF (.memErase p) s).2 (fun k hk => List.mem_range.mp hk)
    have hne : ∀ e ∈ [(⟨.f (.memErase p), .ok d⟩ : Event)], e.reply ≠ .fail := by simp
    have hcons : ∀ l : List Event, ([(⟨.f (.memErase p), .ok d⟩ : Event)] ++ l).map (·.txn) =
        .f (.memErase p) :: l.map (·.txn) := by simp
    refine ⟨_, hrun.trans h1, hkept.trans h2, ?_, ?_⟩
    · rw [hcons]; exact List.cons_prefix_cons.mpr ⟨rfl, h3⟩
    · rcases h4 with ⟨h5, h6, h7⟩ | ⟨h5, h6, h7⟩
      · exact .inl ⟨h5, by rw [hcons, h6]; rfl, fun e he => (List.mem_append.mp he).elim (hne e) (h7 e)⟩
      · refine .inr ⟨_, h5, h6.prepend hne, h7.cons Reply.noConfusion, ?_⟩
        have := h7.length_pos
        rw [if_neg (by simp only [List.length_append, List.length_singleton]; omega)]

/-- The spliced page is as long as the page, for a page that meets the range (43_flash.md R176). -/
theorem length_splice (c : Config) (j : WriteJob) (p : Nat) (pb : List Byte) (h : pb.length = erasePage c)
    (hsrc : j.src.length = j.len) (h1 : j.dest ≤ p + erasePage c) (h2 : p ≤ j.stop) :
    (splice c j p pb).length = erasePage c := by
  simp only [splice, spliceLo, spliceHi, WriteJob.stop, List.length_append, List.length_take, List.length_drop, h,
    hsrc] at *
  omega

/-- One turn of the page loop (43_flash.md R176). -/
theorem doPage_cases (j : WriteJob) (p : Nat) (s : State) :
    ∃ evs, FRun s (doPage j p s).2 evs ∧ FlashKept s (doPage j p s).2 p (erasePage s.cfg) ∧ PageShape s.cfg j p evs ∧
      (((doPage j p s).1 = none ∧ PageRun s.cfg j p evs ∧ ∀ e ∈ evs, e.reply ≠ .fail) ∨
       ∃ code, (doPage j p s).1 = some code ∧ Failed code evs ∧ PageStop s.cfg j p code evs) := by
  obtain ⟨rs, h1, h2, h3⟩ := readRange_cases p (erasePage s.cfg) false s
  rcases h3 with ⟨ho, hr, hl⟩ | ⟨good, bad, hev, hb, hg, ht, hlen, ho, -⟩
  · generalize hpb : delivered (readPlan s.cfg p (erasePage s.cfg) false) rs = pb at *
    by_cases heq : splice s.cfg j p pb = pb
    · have he : doPage j p s = (none, (readRange p (erasePage s.cfg) false s).2) := by
        simp only [doPage, ho, if_pos heq, if_true]
      rw [he]
      exact ⟨rs, h1, FlashKept.refl h2 _ _, ⟨pb, rs, [], by simp, by rw [hr.1], by simp, hl⟩,
        .inl ⟨rfl, ⟨pb, rs, [], by simp, hr, hl, .inl ⟨heq, rfl⟩⟩, hr.2.1⟩⟩
    · have he : doPage j p s = rewritePage p (splice s.cfg j p pb) (readRange p (erasePage s.cfg) false s).2 := by
        simp only [doPage, ho, if_neg heq, if_true]
      rw [he]
      obtain ⟨ws, w1, w2, w3, w4⟩ := rewritePage_cases p (splice s.cfg j p pb) (readRange p (erasePage s.cfg) false s).2
      rw [h1.cfg] at w2 w3 w4
      refine ⟨rs ++ ws, h1.trans w1, (FlashKept.refl h2 _ _).trans w2,
        ⟨pb, rs, ws, rfl, by rw [hr.1], w3, hl⟩, ?_⟩
      rcases w4 with ⟨w5, w6, w7⟩ | ⟨code, w5, w6, w7, w8⟩
      · exact .inl ⟨w5, ⟨pb, rs, ws, rfl, hr, hl, .inr ⟨heq, w6, w7⟩⟩,
          fun e he => (List.mem_append.mp he).elim (hr.2.1 e) (w7 e)⟩
      · exact .inr ⟨code, w5, w6.prepend hr.2.1, .inr ⟨pb, rs, ws, rfl, hr, hl, heq, w7, w8⟩⟩
  · have he : doPage j p s = (some .errPrimRead, (readRange p (erasePage s.cfg) false s).2) := by
      simp [doPage, ho]
    rw [he]
    refine ⟨rs, h1, FlashKept.refl h2 _ _, ⟨List.replicate (erasePage s.cfg) 0, rs, [], by simp, ?_, by simp, by simp⟩,
      .inr ⟨_, rfl, ⟨good, bad, hev, hb, hg, ?_⟩, .inl ⟨rfl, .of_read hev hb hg ht⟩⟩⟩
    · rw [ht]; exact (List.take_prefix _ _).map _
    · have : bad.txn ∈ rs.map (·.txn) := by rw [hev]; simp
      rw [ht] at this
      obtain ⟨b, -, hb⟩ := List.mem_map.mp this
      rw [← hb]; rfl

/-! ## All pages, and the verification -/

/-- A page loop that ended the operation: whole turns for the first pages, then the one that stopped. -/
def PagesStop (c : Config) (j : WriteJob) (ps : List Nat) (code : ResultCode) (hist : List (List Event)) : Prop :=
  ∃ pages last p, hist = pages ++ [last] ∧ ps[pages.length]? = some p ∧ PageStop c j p code last ∧
    ∀ (i q : Nat) (evs : List Event), ps[i]? = some q → pages[i]? = some evs → PageRun c j q evs

theorem PagesStop.cons {c : Config} {j : WriteJob} {ps : List Nat} {code : ResultCode} {hist : List (List Event)} {p : Nat}
    {evs : List Event} (hp : PageRun c j p evs) (h : PagesStop c j ps code hist) :
    PagesStop c j (p :: ps) code (evs :: hist) := by
  obtain ⟨pages, last, q, rfl, h1, h2, h3⟩ := h
  refine ⟨evs :: pages, last, q, rfl, by simpa using h1, h2, fun i r es hr hes => ?_⟩
  cases i with
  | zero => simp only [List.getElem?_cons_zero, Option.some.injEq] at hr hes; rw [← hr, ← hes]; exact hp
  | succ i => exact h3 i r es hr hes

/-- The page loop (43_flash.md R176): one turn a page, in order, to the end or to the first failure. -/
theorem doPages_cases (j : WriteJob) (ps : List Nat) (s : State) :
    ∃ hist : List (List Event), FRun s (doPages j ps s).2 hist.flatten ∧ hist.length ≤ ps.length ∧
      (∀ (i p : Nat) (evs : List Event), ps[i]? = some p → hist[i]? = some evs → PageShape s.cfg j p evs) ∧
      (((doPages j ps s).1 = none ∧ hist.length = ps.length ∧ (∀ e ∈ hist.flatten, e.reply ≠ .fail) ∧
          ∀ (i p : Nat) (evs : List Event), ps[i]? = some p → hist[i]? = some evs → PageRun s.cfg j p evs) ∨
       ∃ code, (doPages j ps s).1 = some code ∧ Failed code hist.flatten ∧ PagesStop s.cfg j ps code hist) := by
  induction ps generalizing s with
  | nil => exact ⟨[], FRun.refl s, by simp, by simp, .inl ⟨rfl, rfl, by simp, by simp⟩⟩
  | cons p ps ih =>
    obtain ⟨evs, h1, -, h3, h4⟩ := doPage_cases j p s
    rcases h4 with ⟨h5, h6, h7⟩ | ⟨code, h5, h6, h7⟩
    · have he : doPages j (p :: ps) s = doPages j ps (doPage j p s).2 := by simp only [doPages, h5]
      rw [he]
      obtain ⟨hist, k1, k2, k3, k4⟩ := ih (doPage j p s).2
      rw [h1.cfg] at k3 k4
      refine ⟨evs :: hist, by rw [List.flatten_cons]; exact h1.trans k1, by simpa using k2, ?_, ?_⟩
      · intro i q es hq hes
        cases i with
        | zero => simp only [List.getElem?_cons_zero, Option.some.injEq] at hq hes; rw [← hq, ← hes]; exact h3
        | succ i => exact k3 i q es hq hes
      · rcases k4 with ⟨k5, k6, k7, k8⟩ | ⟨code, k5, k6, k7⟩
        · refine .inl ⟨k5, by simp [k6], ?_, ?_⟩
          · intro e he'
            rw [List.flatten_cons] at he'
            exact (List.mem_append.mp he').elim (h7 e) (k7 e)
          · intro i q es hq hes
            cases i with
            | zero => simp only [List.getElem?_cons_zero, Option.some.injEq] at hq hes; rw [← hq, ← hes]; exact h6
            | succ i => exact k8 i q es hq hes
        · exact .inr ⟨code, k5, by rw [List.flatten_cons]; exact k6.prepend h7, k7.cons h6⟩
    · have he : doPages j (p :: ps) s = (some code, (doPage j p s).2) := by simp only [doPages, h5]
      rw [he]
      refine ⟨[evs], by simpa using h1, by simp, ?_,
        .inr ⟨code, rfl, by simpa using h6, [], evs, p, rfl, rfl, h7, by simp⟩⟩
      intro i q es hq hes
      cases i with
      | zero => simp only [List.getElem?_cons_zero, Option.some.injEq] at hq hes; rw [← hq, ← hes]; exact h3
      | succ i => simp at hes

/-- Outside the pages no byte of the ideal flash changes. -/
theorem doPages_flash (j : WriteJob) (ps : List Nat) (s : State) (hw : s.env.flash.wf) :
    (doPages j ps s).2.env.flash.wf ∧ ∀ a, (∀ p ∈ ps, ¬(p ≤ a ∧ a < p + erasePage s.cfg)) →
      flashByte (doPages j ps s).2.env.flash a = flashByte s.env.flash a := by
  induction ps generalizing s with
  | nil => exact ⟨hw, fun _ _ => rfl⟩
  | cons p ps ih =>
    obtain ⟨evs, h1, h2, -, h4⟩ := doPage_cases j p s
    obtain ⟨hw', hk⟩ := h2 hw
    rcases h4 with ⟨h5, -⟩ | ⟨code, h5, -⟩
    · have he : doPages j (p :: ps) s = doPages j ps (doPage j p s).2 := by simp only [doPages, h5]
      rw [he]
      obtain ⟨k1, k2⟩ := ih (doPage j p s).2 hw'
      rw [h1.cfg] at k2
      exact ⟨k1, fun a ha => (k2 a fun q hq => ha q (by simp [hq])).trans (hk a (ha p (by simp)))⟩
    · have he : doPages j (p :: ps) s = (some code, (doPage j p s).2) := by simp only [doPages, h5]
      rw [he]
      exact ⟨hw', fun a ha => hk a (ha p (by simp))⟩

/-- One comparison of the verification (43_flash.md R177). -/
theorem checkRange_cases (addr len : Nat) (want : List Byte) (s : State) :
    ∃ evs, FRun s (checkRange addr len want s).2 evs ∧ (checkRange addr len want s).2.env.flash = s.env.flash ∧
      evs.map (·.txn) <+: (readPlan s.cfg addr len false).map blkTxn ∧
      (((checkRange addr len want s).1 = none ∧ ReadRun (readPlan s.cfg addr len false) want evs) ∨
       ((checkRange addr len want s).1 = some .errVerify ∧ (∀ e ∈ evs, e.reply ≠ .fail) ∧
          CheckStop s.cfg addr len want .errVerify evs) ∨
       ((checkRange addr len want s).1 = some .errPrimRead ∧ Failed .errPrimRead evs ∧
          CheckStop s.cfg addr len want .errPrimRead evs)) := by
  obtain ⟨evs, h1, h2, h3⟩ := readRange_cases addr len false s
  have hs : (checkRange addr len want s).2 = (readRange addr len false s).2 := by
    unfold checkRange; dsimp only; split
    · split <;> rfl
    · rfl
  rw [hs]
  refine ⟨evs, h1, h2, ?_⟩
  rcases h3 with ⟨ho, hr, -⟩ | ⟨good, bad, hev, hb, hg, ht, -, ho, -⟩
  · refine ⟨by rw [hr.1], ?_⟩
    by_cases heq : delivered (readPlan s.cfg addr len false) evs = want
    · refine .inl ⟨by simp [checkRange, ho, heq], ?_⟩
      rw [heq] at hr; exact hr
    · exact .inr (.inl ⟨by simp [checkRange, ho, heq], hr.2.1, .inr ⟨rfl, _, heq, hr⟩⟩)
  · refine ⟨by rw [ht]; exact (List.take_prefix _ _).map _, .inr (.inr ⟨by simp [checkRange, ho],
      ⟨good, bad, hev, hb, hg, ?_⟩, .inl ⟨rfl, .of_read hev hb hg ht⟩⟩)⟩
    have : bad.txn ∈ evs.map (·.txn) := by rw [hev]; simp
    rw [ht] at this
    obtain ⟨b, -, hb⟩ := List.mem_map.mp this
    rw [← hb]; rfl

/-- The reads a verification may issue (43_flash.md R177). -/
def verifyPlan (c : Config) (j : WriteJob) : List ReadBlk :=
  if j.len = 0 then []
  else if j.len ≤ c.vbufSize then readPlan c j.dest j.len false
  else readPlan c j.dest (edgeLen j) false ++ readPlan c (j.stop - edgeLen j) (edgeLen j) false

/-- The verification (43_flash.md R177). -/
theorem verify_cases (j : WriteJob) (s : State) :
    ∃ evs, FRun s (verify j s).2 evs ∧ (verify j s).2.env.flash = s.env.flash ∧
      evs.map (·.txn) <+: (verifyPlan s.cfg j).map blkTxn ∧
      (((verify j s).1 = none ∧ (j.src.length = j.len → VerifyRun s.cfg j evs) ∧ ∀ e ∈ evs, e.reply ≠ .fail) ∨
       ((verify j s).1 = some .errVerify ∧ (∀ e ∈ evs, e.reply ≠ .fail) ∧
          (j.src.length = j.len → VerifyStop s.cfg j .errVerify evs)) ∨
       ((verify j s).1 = some .errPrimRead ∧ Failed .errPrimRead evs ∧
          (j.src.length = j.len → VerifyStop s.cfg j .errPrimRead evs))) := by
  unfold verify verifyPlan VerifyRun VerifyStop
  split
  · exact ⟨[], FRun.refl s, rfl, by simp, .inl ⟨rfl, fun _ => rfl, by simp⟩⟩
  · rename_i h0
    split
    · obtain ⟨evs, h1, h2, h3, h4⟩ := checkRange_cases j.dest j.len j.src s
      refine ⟨evs, h1, h2, h3, ?_⟩
      rcases h4 with ⟨a, b⟩ | ⟨a, b, k⟩ | ⟨a, b, k⟩
      · exact .inl ⟨a, fun _ => b, b.2.1⟩
      · exact .inr (.inl ⟨a, b, fun _ => ⟨h0, k⟩⟩)
      · exact .inr (.inr ⟨a, b, fun _ => ⟨h0, k⟩⟩)
    · obtain ⟨as, h1, h2, h3, h4⟩ := checkRange_cases j.dest (edgeLen j) (j.src.take (edgeLen j)) s
      rcases h4 with ⟨h5, h6⟩ | ⟨h5, h6, h7⟩ | ⟨h5, h6, h7⟩
      · obtain ⟨bs, k1, k2, k3, k4⟩ := checkRange_cases (j.stop - edgeLen j) (edgeLen j)
          ((j.src.drop (j.len - edgeLen j)).take (edgeLen j)) (checkRange j.dest (edgeLen j) (j.src.take (edgeLen j)) s).2
        have hv : verifyEdges j s = checkRange (j.stop - edgeLen j) (edgeLen j)
            ((j.src.drop (j.len - edgeLen j)).take (edgeLen j))
            (checkRange j.dest (edgeLen j) (j.src.take (edgeLen j)) s).2 := by simp only [verifyEdges, h5]
        have htl : j.src.length = j.len →
            (j.src.drop (j.len - edgeLen j)).take (edgeLen j) = j.src.drop (j.len - edgeLen j) := fun hsrc =>
          List.take_of_length_le (by rw [List.length_drop, hsrc]; unfold edgeLen; omega)
        rw [h1.cfg] at k3 k4
        rw [hv]
        refine ⟨as ++ bs, h1.trans k1, k2.trans h2, ?_, ?_⟩
        · rw [List.map_append, List.map_append, h6.1]
          exact (List.prefix_append_right_inj _).mpr k3
        · rcases k4 with ⟨k5, k6⟩ | ⟨k5, k6, k7⟩ | ⟨k5, k6, k7⟩
          · refine .inl ⟨k5, fun hsrc => ⟨as, bs, rfl, h6, ?_⟩, fun e he => (List.mem_append.mp he).elim (h6.2.1 e) (k6.2.1 e)⟩
            rw [htl hsrc] at k6; exact k6
          · exact .inr (.inl ⟨k5, fun e he => (List.mem_append.mp he).elim (h6.2.1 e) (k6 e), fun hsrc =>
              ⟨h0, .inr ⟨as, bs, rfl, h6, by rw [htl hsrc] at k7; exact k7⟩⟩⟩)
          · exact .inr (.inr ⟨k5, k6.prepend h6.2.1, fun hsrc =>
              ⟨h0, .inr ⟨as, bs, rfl, h6, by rw [htl hsrc] at k7; exact k7⟩⟩⟩)
      · have hv : verifyEdges j s = (some .errVerify, (checkRange j.dest (edgeLen j) (j.src.take (edgeLen j)) s).2) := by
          simp only [verifyEdges, h5]
        rw [hv]
        exact ⟨as, h1, h2, by rw [List.map_append]; exact h3.trans (List.prefix_append _ _),
          .inr (.inl ⟨rfl, h6, fun _ => ⟨h0, .inl h7⟩⟩)⟩
      · have hv : verifyEdges j s = (some .errPrimRead, (checkRange j.dest (edgeLen j) (j.src.take (edgeLen j)) s).2) := by
          simp only [verifyEdges, h5]
        rw [hv]
        exact ⟨as, h1, h2, by rw [List.map_append]; exact h3.trans (List.prefix_append _ _),
          .inr (.inr ⟨rfl, h6, fun _ => ⟨h0, .inl h7⟩⟩)⟩

/-- The page loop and the verification (43_flash.md R176 to R178): all pages and then the check, or what came before the
first failure or the mismatch. -/
theorem runJob_cases (j : WriteJob) (s : State) :
    ∃ (hist : List (List Event)) (ver : List Event), FRun s (runJob j s).2 (hist.flatten ++ ver) ∧
      hist.length ≤ (pageList s.cfg j).length ∧
      (∀ (i p : Nat) (evs : List Event), (pageList s.cfg j)[i]? = some p → hist[i]? = some evs → PageShape s.cfg j p evs) ∧
      ver.map (·.txn) <+: (verifyPlan s.cfg j).map blkTxn ∧
      (((runJob j s).1 = none ∧ hist.length = (pageList s.cfg j).length ∧
          (∀ (i p : Nat) (evs : List Event), (pageList s.cfg j)[i]? = some p → hist[i]? = some evs → PageRun s.cfg j p evs) ∧
          (j.src.length = j.len → VerifyRun s.cfg j ver) ∧ ∀ e ∈ hist.flatten ++ ver, e.reply ≠ .fail) ∨
       ((runJob j s).1 = some .errVerify ∧ ∀ e ∈ hist.flatten ++ ver, e.reply ≠ .fail) ∨
       ∃ code, (runJob j s).1 = some code ∧ Failed code (hist.flatten ++ ver)) := by
  obtain ⟨hist, h1, h2, h3, h4⟩ := doPages_cases j (pageList s.cfg j) s
  rcases h4 with ⟨h5, h6, h7, h8⟩ | ⟨code, h5, h6, -⟩
  · obtain ⟨ver, k1, -, k3, k4⟩ := verify_cases j (doPages j (pageList s.cfg j) s).2
    have he : runJob j s = verify j (doPages j (pageList s.cfg j) s).2 := by simp only [runJob, h5]
    rw [he]
    rw [h1.cfg] at k3 k4
    refine ⟨hist, ver, h1.trans k1, h2, h3, k3, ?_⟩
    rcases k4 with ⟨a, b, c⟩ | ⟨a, b, -⟩ | ⟨a, b, -⟩
    · exact .inl ⟨a, h6, h8, b, fun e he => (List.mem_append.mp he).elim (h7 e) (c e)⟩
    · exact .inr (.inl ⟨a, fun e he => (List.mem_append.mp he).elim (h7 e) (b e)⟩)
    · exact .inr (.inr ⟨_, a, b.prepend h7⟩)
  · have he : runJob j s = (some code, (doPages j (pageList s.cfg j) s).2) := by simp only [runJob, h5]
    rw [he]
    exact ⟨hist, [], by simpa using h1, h2, h3, by simp, .inr (.inr ⟨code, rfl, by simpa using h6⟩)⟩

/-- The page loop and the verification once more, exit by exit: what each exit issued, and its code (43_flash.md R176 to
R178). -/
theorem runJob_exits (j : WriteJob) (s : State) (hsrc : j.src.length = j.len) :
    ∃ (pages : List (List Event)) (last : List Event), FRun s (runJob j s).2 (pages.flatten ++ last) ∧
      (∀ (i p : Nat) (evs : List Event), (pageList s.cfg j)[i]? = some p → pages[i]? = some evs → PageRun s.cfg j p evs) ∧
      (((runJob j s).1 = none ∧ pages.length = (pageList s.cfg j).length ∧ VerifyRun s.cfg j last) ∨
       ∃ code, (runJob j s).1 = some code ∧
        ((∃ p, (pageList s.cfg j)[pages.length]? = some p ∧ PageStop s.cfg j p code last) ∨
         (pages.length = (pageList s.cfg j).length ∧ VerifyStop s.cfg j code last))) := by
  obtain ⟨hist, h1, -, -, h4⟩ := doPages_cases j (pageList s.cfg j) s
  rcases h4 with ⟨h5, h6, -, h8⟩ | ⟨code, h5, -, pages, last, p, rfl, h6, h7, h8⟩
  · obtain ⟨ver, k1, -, -, k4⟩ := verify_cases j (doPages j (pageList s.cfg j) s).2
    have he : runJob j s = verify j (doPages j (pageList s.cfg j) s).2 := by simp only [runJob, h5]
    rw [he]
    rw [h1.cfg] at k4
    refine ⟨hist, ver, h1.trans k1, h8, ?_⟩
    rcases k4 with ⟨a, b, -⟩ | ⟨a, -, b⟩ | ⟨a, -, b⟩
    · exact .inl ⟨a, h6, b hsrc⟩
    · exact .inr ⟨_, a, .inr ⟨h6, b hsrc⟩⟩
    · exact .inr ⟨_, a, .inr ⟨h6, b hsrc⟩⟩
  · have he : runJob j s = (some code, (doPages j (pageList s.cfg j) s).2) := by simp only [runJob, h5]
    rw [he]
    exact ⟨pages, last, by simpa using h1, h8, .inr ⟨code, rfl, .inl ⟨p, h6, h7⟩⟩⟩

/-- The whole of FL_WRITE keeps the canonical form, and every byte of the ideal flash outside its pages. -/
theorem runJob_flash (j : WriteJob) (s : State) (hw : s.env.flash.wf) :
    (runJob j s).2.env.flash.wf ∧ ∀ a, (∀ p ∈ pageList s.cfg j, ¬(p ≤ a ∧ a < p + erasePage s.cfg)) →
      flashByte (runJob j s).2.env.flash a = flashByte s.env.flash a := by
  have hp := doPages_flash j (pageList s.cfg j) s hw
  cases h : (doPages j (pageList s.cfg j) s).1 with
  | none =>
    have he : runJob j s = verify j (doPages j (pageList s.cfg j) s).2 := by simp only [runJob, h]
    obtain ⟨ver, -, k2, -⟩ := verify_cases j (doPages j (pageList s.cfg j) s).2
    rw [he, k2]
    exact hp
  | some code =>
    have he : runJob j s = (some code, (doPages j (pageList s.cfg j) s).2) := by simp only [runJob, h]
    rw [he]
    exact hp

/-- How FL_WRITE ends when its range is in the address space. -/
theorem flWrite_cases (dest len : Word) (src : List Byte) (s : State) (h : dest.toNat + len.toNat ≤ ADDR_SPACE) :
    ∃ code, flWrite dest len src s = finish (plainResult code) (runJob (jobOf dest len src) s).2 ∧
      ((runJob (jobOf dest len src) s).1 = none ∧ code = .ok ∨ (runJob (jobOf dest len src) s).1 = some code) := by
  have hok : rangeOk dest len = true := by simp [rangeOk, h]
  simp only [flWrite, hok, if_true]
  cases hc : (runJob (jobOf dest len src) s).1 with
  | none => exact ⟨.ok, rfl, .inl ⟨rfl, rfl⟩⟩
  | some code => exact ⟨code, rfl, .inr rfl⟩

/-- The range check fails exactly beyond the address space (43_flash.md R174). -/
theorem flWrite_range (dest len : Word) (src : List Byte) (s : State) (h : ADDR_SPACE < dest.toNat + len.toNat) :
    flWrite dest len src s = raiseCode .errRange s := by
  have hok : rangeOk dest len = false := by simp [rangeOk]; omega
  simp [flWrite, hok]

theorem flRead_range (start len : Word) (progress : Bool) (s : State) (h : ADDR_SPACE < start.toNat + len.toNat) :
    flRead start len progress s = raiseCode .errRange s := by
  have hok : rangeOk start len = false := by simp [rangeOk]; omega
  simp [flRead, hok]

/-- How FL_READ ends when its range is in the address space (43_flash.md R173). -/
theorem flRead_eq (start len : Word) (progress : Bool) (s : State) (h : start.toNat + len.toNat ≤ ADDR_SPACE) :
    flRead start len progress s =
      finish ⟨if (readRange start.toNat len.toNat progress s).1.ok then .ok else .errPrimRead,
          BitVec.ofNat 32 (readRange start.toNat len.toNat progress s).1.n,
          .bytes (readRange start.toNat len.toNat progress s).1.data⟩
        (readRange start.toNat len.toNat progress s).2 := by
  have hok : rangeOk start len = true := by simp [rangeOk, h]
  simp only [flRead, hok, if_true]
  split <;> rfl

/-- No failure is named by a code that is no primitive's. -/
theorem Failed.code {code : ResultCode} {evs : List Event} (h : Failed code evs) :
    code = .errPrimRead ∨ code = .errPrimErase ∨ code = .errPrimWrite := by
  obtain ⟨-, bad, -, -, -, h⟩ := h
  unfold primCode at h
  split at h <;> simp at h <;> simp [← h]

/-! ## The erases in a history -/

/-- The address of an erase. -/
def eraseAddr : Txn → Option Nat
  | .f (.memErase a) => some a
  | .f (.memRead _ _) => none
  | .f (.memWrite _ _ _) => none
  | .t _ => none

theorem erasesOf_eq (evs : List Event) : erasesOf evs = (evs.map (·.txn)).filterMap eraseAddr := by
  unfold erasesOf
  rw [List.filterMap_map]
  congr 1

theorem erasesOf_append (as bs : List Event) : erasesOf (as ++ bs) = erasesOf as ++ erasesOf bs := by
  simp [erasesOf_eq]

/-- Reads erase nothing. -/
theorem erasesOf_reads {evs : List Event} {bs : List ReadBlk} (h : evs.map (·.txn) <+: bs.map blkTxn) :
    erasesOf evs = [] := by
  rw [erasesOf_eq]
  refine List.filterMap_eq_nil_iff.mpr fun t ht => ?_
  obtain ⟨b, -, rfl⟩ := List.mem_map.mp (h.subset ht)
  rfl

/-- A turn of the page loop erases its page at most once, and no other. -/
theorem PageShape.erases {c : Config} {j : WriteJob} {p : Nat} {evs : List Event} (h : PageShape c j p evs) :
    (erasesOf evs).Sublist [p] := by
  obtain ⟨pb, rs, ws, rfl, h1, h2, -⟩ := h
  rw [erasesOf_append, erasesOf_reads h1, erasesOf_eq, List.nil_append]
  refine (h2.sublist.filterMap eraseAddr).trans ?_
  have : (rewriteTxns c p (splice c j p pb)).filterMap eraseAddr = [p] := by
    simp only [rewriteTxns, List.filterMap_cons, eraseAddr]
    congr 1
    refine List.filterMap_eq_nil_iff.mpr fun t ht => ?_
    obtain ⟨b, -, rfl⟩ := List.mem_map.mp ht
    rfl
  rw [this]

end Sys2Proof.Machine
end

