-- ==== Sys2Proof/Laws/Link.lean ====
section
/-! SUPPORT. The protocol engine: what a run on port T leaves alone, what each operation issues, and the little-endian
fields it reads. -/

namespace Sys2Proof.Machine

/-! ## Pieces of a run that use only port T -/

/-- From `s` to `t` the transactions `evs` were issued, all on port T; any register may have been written. -/
structure TRun (s t : State) (evs : List Event) : Prop where
  cfg : t.cfg = s.cfg
  requests : t.requests = s.requests
  env : t.env = afterT s.env evs.length
  trace : t.trace = s.trace ++ evs
  events : ∀ c, ∀ e ∈ evs, eventOk c e

/-- No transaction follows a failed one (42_protocol.md R149). -/
def StopsAtFailure (evs : List Event) : Prop :=
  ∀ (pre post : List Event) (e : Event), evs = pre ++ e :: post → e.reply = .fail → post = []

theorem StopsAtFailure.nil : StopsAtFailure [] := fun pre post e h => by simp at h

theorem StopsAtFailure.singleton (e : Event) : StopsAtFailure [e] := fun pre post x h _ => by
  cases pre with
  | nil => simp at h; exact h.2
  | cons y pre => simp at h

theorem StopsAtFailure.cons {e : Event} {evs : List Event} (he : e.reply ≠ .fail) (h : StopsAtFailure evs) :
    StopsAtFailure (e :: evs) := fun pre post x hx hf => by
  cases pre with
  | nil =>
    simp only [List.nil_append, List.cons.injEq] at hx
    exact absurd (hx.1 ▸ hf) he
  | cons y pre =>
    simp only [List.cons_append, List.cons.injEq] at hx
    exact h pre post x hx.2 hf

theorem TRun.refl {s t : State} (h1 : t.cfg = s.cfg) (h2 : t.requests = s.requests) (h3 : t.env = s.env)
    (h4 : t.trace = s.trace) : TRun s t [] :=
  ⟨h1, h2, h3, by simp [h4], by simp⟩

theorem TRun.trans {s t u : State} {as bs : List Event} (h : TRun s t as) (k : TRun t u bs) : TRun s u (as ++ bs) where
  cfg := k.cfg.trans h.cfg
  requests := k.requests.trans h.requests
  env := by rw [k.env, h.env, afterT_afterT, List.length_append]
  trace := by rw [k.trace, h.trace, List.append_assoc]
  events := fun c e he => (List.mem_append.mp he).elim (h.events c e) (k.events c e)

/-- The registers and the result may still be written afterwards. -/
theorem TRun.write {s t u : State} {evs : List Event} (h : TRun s t evs) (h1 : u.cfg = t.cfg)
    (h2 : u.requests = t.requests) (h3 : u.env = t.env) (h4 : u.trace = t.trace) : TRun s u evs :=
  ⟨h1.trans h.cfg, h2.trans h.requests, h3.trans h.env, h4.trans h.trace, h.events⟩

/-- Any transaction on port T but the delay, which no rule issues (00_scope.md R14). -/
theorem issueT_run (x : TTxn) (n : Nat) (s : State) (h : ∀ c r, replyFits n r → eventOk c ⟨.t x, r⟩) :
    TRun s (issueT x n s).2 [⟨.t x, tReply s.env 0 n⟩] := by
  refine ⟨rfl, rfl, by simp, rfl, ?_⟩
  intro c e he
  rw [List.mem_singleton.mp he]
  exact h c _ (replyFits_tReply _ _ _)

theorem tSend_run (cmd : CmdBytes) (rlen : Half) (tf : Word) (s : State) :
    TRun s (tSend cmd rlen tf s).2 [⟨.t (.send cmd rlen tf), (tSend cmd rlen tf s).1⟩] :=
  issueT_run _ _ s fun _ _ h => h

theorem tReset_run (s : State) : TRun s (tReset s).2 [⟨.t .reset, (tReset s).1⟩] :=
  issueT_run _ _ s fun _ _ h => h

theorem tSeedC2_run (v : SeedWord × SeedWord) (s : State) :
    TRun s (tSeedC2 v s).2 [⟨.t (.seedC2 v.1 v.2), (tSeedC2 v s).1⟩] :=
  issueT_run _ _ s fun _ _ h => h

/-- One framed command is one transaction, whose answer is the function's. -/
def OneSend (s : State) (r : Reply × State) : Prop := ∃ x, TRun s r.2 [⟨.t x, r.1⟩]

theorem sendRaw_one (op8 : Byte) (args : Args) (rlen : Half) (tf : Word) (s : State) :
    OneSend s (sendRaw op8 args rlen tf s) := ⟨_, tSend_run _ _ _ s⟩

theorem sendAct_one (s : State) : OneSend s (sendAct s) := ⟨_, tSend_run _ _ _ s⟩

theorem c1Cmd_one (op8 : Byte) (l rlen : Half) (s : State) : OneSend s (c1Cmd op8 l rlen s) :=
  ⟨_, (tSend_run _ _ _ s).write rfl rfl rfl rfl⟩

theorem sendByStatus_one (op8 : Byte) (args : Args) (rlen : Half) (s : State) :
    OneSend s (sendByStatus op8 args rlen s) := by
  unfold sendByStatus
  split
  · exact sendRaw_one _ _ _ _ s
  · exact c1Cmd_one _ _ _ s
  · exact sendRaw_one _ _ _ _ s

/-! ## What the operations issue -/

/-- An operation issues at most `n` transactions, all on port T, and none after a failed one. -/
def LinkRun (n : Nat) (s t : State) : Prop := ∃ evs, TRun s t evs ∧ evs.length ≤ n ∧ StopsAtFailure evs

theorem LinkRun.none {s t : State} (n : Nat) (h1 : t.cfg = s.cfg) (h2 : t.requests = s.requests) (h3 : t.env = s.env)
    (h4 : t.trace = s.trace) : LinkRun n s t := ⟨[], TRun.refl h1 h2 h3 h4, Nat.zero_le _, StopsAtFailure.nil⟩

/-- The first command of an operation, and the rest of it only where the command was answered. -/
theorem LinkRun.after {n : Nat} {s t : State} {r : Reply × State} (h : OneSend s r)
    (hf : r.1 = .fail → LinkRun 0 r.2 t) (hok : ∀ b, r.1 = .ok b → LinkRun n r.2 t) : LinkRun (n + 1) s t := by
  obtain ⟨x, hx⟩ := h
  cases hr : r.1 with
  | fail =>
    obtain ⟨evs, h1, h2, -⟩ := hf hr
    have : evs = [] := List.length_eq_zero_iff.mp (Nat.le_zero.mp h2)
    subst this
    exact ⟨_, hx.trans h1, by simp, StopsAtFailure.singleton _⟩
  | ok b =>
    obtain ⟨evs, h1, h2, h3⟩ := hok b hr
    rw [hr] at hx
    refine ⟨_, hx.trans h1, by simpa using h2, StopsAtFailure.cons (by simp) h3⟩

theorem resetLink_run (s : State) : LinkRun 2 s (resetLink s) := by
  refine LinkRun.after (r := tReset s) ⟨_, tReset_run s⟩ (fun h => ?_) (fun b h => ?_)
  · simp only [resetLink, h]; exact LinkRun.none _ rfl rfl rfl rfl
  · simp only [resetLink, h]
    obtain ⟨x, hx⟩ := sendRaw_one (tReset s).2.cfg.opDummy 0 (tReset s).2.cfg.dummyLen (rawFlags (tReset s).2) (tReset s).2
    exact ⟨_, hx.write rfl rfl rfl rfl, Nat.le_refl _, StopsAtFailure.singleton _⟩

theorem readId_run (s : State) : LinkRun 2 s (readId s) := by
  unfold readId
  split
  · refine LinkRun.after (r := sendReadBlock s) (sendRaw_one _ _ _ _ s) (fun h => ?_) (fun b h => ?_)
    · simp only [readIdRaw, h]; exact LinkRun.none _ rfl rfl rfl rfl
    · simp only [readIdRaw, h]
      refine LinkRun.after (r := sendChipidRaw (sendReadBlock s).2) (sendRaw_one _ _ _ _ _) (fun h' => ?_)
        (fun c h' => ?_)
      · simp only [h']; exact LinkRun.none _ rfl rfl rfl rfl
      · simp only [h']; exact LinkRun.none _ rfl rfl rfl rfl
  · exact LinkRun.none _ rfl rfl rfl rfl
  · exact LinkRun.none _ rfl rfl rfl rfl

theorem sendCmd_run (op8 : Byte) (args : Args) (rlen : Half) (s : State) : LinkRun 1 s (sendCmd op8 args rlen s) := by
  refine LinkRun.after (sendByStatus_one op8 args rlen s) (fun h => ?_) (fun b h => ?_)
  · simp only [sendCmd, h]; exact LinkRun.none _ rfl rfl rfl rfl
  · simp only [sendCmd, h]; exact LinkRun.none _ rfl rfl rfl rfl

theorem beginC2Query_run (s : State) : LinkRun 1 s (beginC2Query s) := by
  have h0 : OneSend s (sendC2Chipid (maskTimingC2 s)) := by
    obtain ⟨x, hx⟩ := sendRaw_one s.cfg.opC2Chipid 0 4 (c2Flags (maskTimingC2 s)) (maskTimingC2 s)
    exact ⟨x, (TRun.refl (s := s) (t := maskTimingC2 s) rfl rfl rfl rfl).trans hx⟩
  refine LinkRun.after h0 (fun h => ?_) (fun b h => ?_)
  · simp only [beginC2Query, h]; exact LinkRun.none _ rfl rfl rfl rfl
  · simp only [beginC2Query, h]; split <;> exact LinkRun.none _ rfl rfl rfl rfl

theorem beginC2_run (s : State) : LinkRun 2 s (beginC2 s) := by
  unfold beginC2
  split
  · exact LinkRun.none _ rfl rfl rfl rfl
  · refine LinkRun.after (r := sendC1ActC2 s) (c1Cmd_one _ _ _ s) (fun h => ?_) (fun b h => ?_)
    · simp only [h]; exact LinkRun.none _ rfl rfl rfl rfl
    · simp only [h]; exact beginC2Query_run _
  · exact LinkRun.none _ rfl rfl rfl rfl

theorem beginC1Query_run (s : State) : LinkRun 1 s (beginC1Query s) := by
  refine LinkRun.after (r := sendC1Chipid s) (c1Cmd_one _ _ _ s) (fun h => ?_) (fun b h => ?_)
  · simp only [beginC1Query, h]; exact LinkRun.none _ rfl rfl rfl rfl
  · simp only [beginC1Query, h]; split <;> exact LinkRun.none _ rfl rfl rfl rfl

theorem beginC1Seed_run (s : State) : LinkRun 2 s (beginC1Seed s) := by
  refine LinkRun.after (r := tSeedC2 (c2Seed s.cfg s.cs.keySeedByte s.cs.nonceIj) s) ⟨_, tSeedC2_run _ s⟩
    (fun h => ?_) (fun b h => ?_)
  · simp only [beginC1Seed, h]; exact LinkRun.none _ rfl rfl rfl rfl
  · simp only [beginC1Seed, h]; exact beginC1Query_run _

theorem beginC1Init_run (s : State) : LinkRun 3 s (beginC1Init s) := by
  have h0 : OneSend s (sendC1InitC2 (mergeTimingC1 s)) := by
    obtain ⟨x, hx⟩ := c1Cmd_one s.cfg.opC1InitC2 s.cs.nonceL 0 (mergeTimingC1 s)
    exact ⟨x, (TRun.refl (s := s) (t := mergeTimingC1 s) rfl rfl rfl rfl).trans hx⟩
  refine LinkRun.after h0 (fun h => ?_) (fun b h => ?_)
  · simp only [beginC1Init, h]; exact LinkRun.none _ rfl rfl rfl rfl
  · simp only [beginC1Init, h]; exact beginC1Seed_run _

theorem ksSetup_run (seed : Schedule) (k : Key) (s : State) : TRun s (ksSetup seed k s) [] := by
  rw [ksSetup_eq]
  exact TRun.refl rfl rfl rfl rfl

theorem loadNonces_run (ij k : Word) (l : Half) (s : State) : TRun s (loadNonces ij k l s) [] :=
  TRun.refl rfl rfl rfl rfl

theorem beginC1Raw_run (seed : Schedule) (ij k : Word) (l : Half) (s : State) :
    LinkRun 4 s (beginC1Raw seed ij k l s) := by
  have h1 := (loadNonces_run ij k l s).trans
    (ksSetup_run seed (deriveKey (loadNonces ij k l s).cs.gameCode) (loadNonces ij k l s))
  unfold beginC1Raw
  dsimp only
  generalize ksSetup seed (deriveKey (loadNonces ij k l s).cs.gameCode) (loadNonces ij k l s) = u at h1 ⊢
  have h0 : OneSend s (sendAct u) := by
    obtain ⟨x, hx⟩ := sendAct_one u
    exact ⟨x, h1.trans hx⟩
  refine LinkRun.after h0 (fun h => ?_) (fun b h => ?_)
  · simp only [h]; exact LinkRun.none _ rfl rfl rfl rfl
  · simp only [h]; exact beginC1Init_run _

theorem beginC1_run (sel : Byte) (ij k : Word) (l : Half) (s : State) : LinkRun 4 s (beginC1 sel ij k l s) := by
  unfold beginC1
  split
  · exact LinkRun.none _ rfl rfl rfl rfl
  · split
    · exact beginC1Raw_run _ _ _ _ _
    · exact LinkRun.none _ rfl rfl rfl rfl
    · exact LinkRun.none _ rfl rfl rfl rfl

/-! ## Fields of a response -/

/-- A little-endian field from its four bytes (00_scope.md R16). -/
theorem le32At_eq {b : List Byte} {off : Nat} {a0 a1 a2 a3 : Byte} (h : (b.drop off).take 4 = [a0, a1, a2, a3]) :
    le32At b off = a3 ++ a2 ++ a1 ++ a0 := by
  have h0 := congrArg (fun l => l.getD 0 0) h
  have h1 := congrArg (fun l => l.getD 1 0) h
  have h2 := congrArg (fun l => l.getD 2 0) h
  have h3 := congrArg (fun l => l.getD 3 0) h
  simp [List.getD_eq_getElem?_getD] at h0 h1 h2 h3
  simp [le32At, h0, h1, h2, h3]

end Sys2Proof.Machine
end

