-- ==== Sys2Proof/Laws/PerInstr.lean ====
section
/-! SUPPORT. One family of statements, one lemma a constructor of `Instr`: `Encoding`. It says which selector the encoder
writes for an instruction of the host, and which data stream goes with it (30_encoding.md R82, R83), and that a command
word has neither. -/

namespace Sys2Proof.Laws.Encoding

/-- OPSEL of an instruction (R82, R87(a)); none for a command word. -/
def opsel : Instr → Option (BitVec 4)
  | .enc _ _ => some 0x1
  | .dec _ _ => some 0x2
  | .ksbuild _ _ _ _ => some 0x3
  | .resetLink => some 0x4
  | .readId => some 0x5
  | .beginC1 _ _ _ _ => some 0x6
  | .beginC2 => some 0x7
  | .sendCmd _ _ _ => some 0x8
  | .flRead _ _ _ => some 0x9
  | .flWrite _ _ _ _ => some 0xA
  | .reserved0 _ _ _ _ => some 0x0
  | .reservedB _ _ _ _ => some 0xB
  | .reservedCF sel _ _ _ _ => some (0x3#2 ++ sel)
  | .dummy => none
  | .readBlock => none
  | .chipidRaw => none
  | .actC1 => none
  | .c1InitC2 => none
  | .c1Chipid => none
  | .c1ActC2 => none
  | .c2Chipid => none
  | .hostCmdRaw _ _ _ => none
  | .hostCmdC1 _ _ _ => none
  | .hostCmdC2 _ _ _ => none

/-- The data stream of an instruction: FL_WRITE's alone (R80(a)). -/
def stream : Instr → List Byte
  | .flWrite _ _ _ src => src
  | .enc _ _ => []
  | .dec _ _ => []
  | .ksbuild _ _ _ _ => []
  | .resetLink => []
  | .readId => []
  | .beginC1 _ _ _ _ => []
  | .beginC2 => []
  | .sendCmd _ _ _ => []
  | .flRead _ _ _ => []
  | .reserved0 _ _ _ _ => []
  | .reservedB _ _ _ _ => []
  | .reservedCF _ _ _ _ _ => []
  | .dummy => []
  | .readBlock => []
  | .chipidRaw => []
  | .actC1 => []
  | .c1InitC2 => []
  | .c1Chipid => []
  | .c1ActC2 => []
  | .c2Chipid => []
  | .hostCmdRaw _ _ _ => []
  | .hostCmdC1 _ _ _ => []
  | .hostCmdC2 _ _ _ => []

/-- The selector and the data stream the encoder writes. -/
def Statement (i : Instr) : Prop :=
  ∀ x : WireCtx, match encode x i with
    | .descriptor d => opsel i = some (d.d0.extractLsb' 28 4) ∧ d.src = stream i
    | .wire _ => opsel i = none

/-- The top four bits of a word that is put together from two parts. -/
theorem top4 {n : Nat} (h : 4 + n = 32) (c : BitVec 4) (t : BitVec n) :
    ((c ++ t).cast h : Word).extractLsb' 28 4 = c := by
  ext i hi
  have h1 : ¬ 28 + i < n := by omega
  have h2 : 28 + i - n = i := by omega
  simp [BitVec.getLsbD_append, h1, h2, BitVec.getLsbD_eq_getElem hi]

/-- The same of a word put together from three parts. -/
theorem top4_three {m n : Nat} (h : 4 + m + n = 32) (c : BitVec 4) (r : BitVec m) (t : BitVec n) :
    ((c ++ r ++ t).cast h : Word).extractLsb' 28 4 = c := by
  ext i hi
  have h1 : ¬ 28 + i < n := by omega
  have h2 : ¬ 28 + i - n < m := by omega
  have h3 : 28 + i - n - m = i := by omega
  simp [BitVec.getLsbD_append, h1, h2, h3, BitVec.getLsbD_eq_getElem hi]

/-- And of one put together from four. -/
theorem top4_four {k m n : Nat} (h : 4 + k + m + n = 32) (c : BitVec 4) (q : BitVec k) (r : BitVec m) (t : BitVec n) :
    ((c ++ q ++ r ++ t).cast h : Word).extractLsb' 28 4 = c := by
  ext i hi
  have h1 : ¬ 28 + i < n := by omega
  have h2 : ¬ 28 + i - n < m := by omega
  have h3 : ¬ 28 + i - n - m < k := by omega
  have h4 : 28 + i - n - m - k = i := by omega
  simp [BitVec.getLsbD_append, h1, h2, h3, h4, BitVec.getLsbD_eq_getElem hi]

theorem enc (io0 io1 : Word) : Statement (.enc io0 io1) := fun _ => ⟨congrArg some (top4 rfl 0x1#4 (0 : BitVec 28)).symm, rfl⟩
theorem dec (io0 io1 : Word) : Statement (.dec io0 io1) := fun _ => ⟨congrArg some (top4 rfl 0x2#4 (0 : BitVec 28)).symm, rfl⟩
theorem ksbuild (seedSel : Byte) (key0 key1 key2 : Word) : Statement (.ksbuild seedSel key0 key1 key2) :=
  fun _ => ⟨congrArg some (top4_three rfl 0x3#4 (0 : BitVec 20) seedSel).symm, rfl⟩
theorem resetLink : Statement .resetLink := fun _ => ⟨congrArg some (top4 rfl 0x4#4 (0 : BitVec 28)).symm, rfl⟩
theorem readId : Statement .readId := fun _ => ⟨congrArg some (top4 rfl 0x5#4 (0 : BitVec 28)).symm, rfl⟩
theorem beginC1 (seedSel : Byte) (ij k : Word) (l : Half) : Statement (.beginC1 seedSel ij k l) :=
  fun _ => ⟨congrArg some (top4_four rfl 0x6#4 (0 : BitVec 4) l seedSel).symm, rfl⟩
theorem beginC2 : Statement .beginC2 := fun _ => ⟨congrArg some (top4 rfl 0x7#4 (0 : BitVec 28)).symm, rfl⟩
theorem sendCmd (opcode : Byte) (args : Args) (responseLen : Half) : Statement (.sendCmd opcode args responseLen) :=
  fun _ => ⟨congrArg some (top4_three rfl 0x8#4 (0 : BitVec 12) responseLen).symm, rfl⟩
theorem flRead (start length : Word) (progress : Bool) : Statement (.flRead start length progress) :=
  fun _ => ⟨congrArg some (top4_three rfl 0x9#4 (0 : BitVec 27) (BitVec.ofBool progress)).symm, rfl⟩
theorem flWrite (dest length : Word) (progress : Bool) (src : List Byte) :
    Statement (.flWrite dest length progress src) :=
  fun _ => ⟨congrArg some (top4_three rfl 0xA#4 (0 : BitVec 27) (BitVec.ofBool progress)).symm, rfl⟩
theorem reserved0 (rest : BitVec 28) (d1 d2 d3 : Word) : Statement (.reserved0 rest d1 d2 d3) :=
  fun _ => ⟨congrArg some (top4 rfl 0x0#4 rest).symm, rfl⟩
theorem reservedB (rest : BitVec 28) (d1 d2 d3 : Word) : Statement (.reservedB rest d1 d2 d3) :=
  fun _ => ⟨congrArg some (top4 rfl 0xB#4 rest).symm, rfl⟩
theorem reservedCF (sel : BitVec 2) (rest : BitVec 28) (d1 d2 d3 : Word) : Statement (.reservedCF sel rest d1 d2 d3) :=
  fun _ => ⟨congrArg some (top4 rfl (0x3#2 ++ sel) rest).symm, rfl⟩
theorem dummy : Statement .dummy := fun _ => rfl
theorem readBlock : Statement .readBlock := fun _ => rfl
theorem chipidRaw : Statement .chipidRaw := fun _ => rfl
theorem actC1 : Statement .actC1 := fun _ => rfl
theorem c1InitC2 : Statement .c1InitC2 := fun _ => rfl
theorem c1Chipid : Statement .c1Chipid := fun _ => rfl
theorem c1ActC2 : Statement .c1ActC2 := fun _ => rfl
theorem c2Chipid : Statement .c2Chipid := fun _ => rfl
theorem hostCmdRaw (opcode : Byte) (args : Args) (responseLen : Half) :
    Statement (.hostCmdRaw opcode args responseLen) := fun _ => rfl
theorem hostCmdC1 (opcode : Byte) (args : Args) (responseLen : Half) :
    Statement (.hostCmdC1 opcode args responseLen) := fun _ => rfl
theorem hostCmdC2 (opcode : Byte) (args : Args) (responseLen : Half) :
    Statement (.hostCmdC2 opcode args responseLen) := fun _ => rfl

end Sys2Proof.Laws.Encoding
end

