-- ==== Sys2Proof/Tests/Slice0.lean ====
section
/-! SUPPORT. Tests whose expected values are the spec's (95_test_vectors.md unless another file is named), and a witness for
every statement that has hypotheses. -/

namespace Sys2Proof.Tests

set_option maxRecDepth 20000
-- One theorem at a time: each kernel evaluation wants a stack of its own.
set_option Elab.async false

open Sys2Proof.Machine

/-! ## Helpers -/

/-- Whether an outcome is a next state that passes `p`. -/
def nextIs (o : Host.Outcome State Fault Refusal) (p : State → Bool) : Bool :=
  match o with
  | .next t => p t
  | .fault _ => false
  | .refused _ => false

theorem nextIs_spec {o : Host.Outcome State Fault Refusal} {p : State → Bool} (h : nextIs o p = true) :
    ∃ t, o = .next t ∧ p t = true := by
  cases o with
  | next t => exact ⟨t, rfl, h⟩
  | fault r => cases r
  | refused r => exact absurd h Bool.false_ne_true

/-- A block of TC0 at stage `st` with the registers of V25 and V22, whose Transport gives the answers `ts`. -/
def session (st : Status) (ts : List Reply) : State :=
  { State.reset with
    cs := { CardState.reset with
      status := st, chipId := 0xFC2, gameCode := 0x1234, keySeedByte := 2, nonceCounter := 1, nonceIj := 0x123456
      nonceL := 0xABCD, timingC1 := 0x88776655, timingC2 := 0x44332211 }
    env := { State.reset.env with tScript := ts } }

/-- The flash instance FS on IF(64, init[a] = a) with a script before it. -/
def fs (script : List FReply) : State :=
  { State.reset with
    env := { State.reset.env with
      fScript := script, fRest := .ideal, flashSize := 64
      flash := (List.range 64).map fun a => (a, BitVec.ofNat 8 a) } }

/-- The data of P5. -/
def src5 : List Byte := [0xA0, 0xA1, 0xA2, 0xA3, 0xA4]

/-- The chip-id answer of V24. -/
def chip : List Byte := [0xC2, 0x0F, 0, 0]

/-- The identification block of V25. -/
def idBlock : List Byte :=
  List.replicate 12 0 ++ [0x34, 0x12, 0, 0, 0, 0, 0, 0x02] ++ List.replicate 76 0
    ++ [0x11, 0x22, 0x33, 0x44, 0x55, 0x66, 0x77, 0x88] ++ List.replicate 408 0

/-- The registers the wire words of V22 are framed with, at a counter. -/
def ctx (counter : Word) : WireCtx := ⟨Config.tc0, 0xABCD, 0x123456, counter⟩

/-- The code and the number of transactions of a step on an instruction. -/
def ran (i : Instr) (s : State) (code : ResultCode) (n : Nat) : Bool :=
  nextIs (exec i s) fun t => codeOf t == some code && t.trace.length == n

/-! ## WellFormed refuses each ill-formed term -/

theorem test_wf_ksbuild_seed : WellFormed Config.tc0 (.ksbuild 2 0 0 0) = false ∧
    WellFormed Config.tc0 (.ksbuild 1 0 0 0) = true := by decide

theorem test_wf_beginC1_seed : WellFormed Config.tc0 (.beginC1 2 0 0 0) = false ∧
    WellFormed Config.tc0 (.beginC1 1 0 0 0) = true := by decide

theorem test_wf_flWrite_length : WellFormed Config.tc0 (.flWrite 0 2 false [1]) = false ∧
    WellFormed Config.tc0 (.flWrite 0 2 false [1, 2]) = true := by decide

/-! ## Decoding (V20, V21, V22) -/

theorem test_decode_enc :
    decodeDescriptor ⟨0x10000000, 0x11111111, 0x22222222, 0, []⟩ = .ok (.enc 0x11111111 0x22222222) := by decide
theorem test_decode_dec :
    decodeDescriptor ⟨0x20000000, 0x2AC7A9A6, 0x72A7DE92, 0, []⟩ = .ok (.dec 0x2AC7A9A6 0x72A7DE92) := by decide
theorem test_decode_ksbuild :
    decodeDescriptor ⟨0x30000001, 0x1234, 0x091A, 0x2468, []⟩ = .ok (.ksbuild 1 0x1234 0x091A 0x2468) := by decide
theorem test_decode_resetLink : decodeDescriptor ⟨0x40000000, 0, 0, 0, []⟩ = .ok .resetLink := by decide
theorem test_decode_readId : decodeDescriptor ⟨0x50000000, 0, 0, 0, []⟩ = .ok .readId := by decide
theorem test_decode_beginC1 :
    decodeDescriptor ⟨0x60ABCD01, 0x00123456, 1, 0, []⟩ = .ok (.beginC1 1 0x123456 1 0xABCD) := by decide
theorem test_decode_beginC2 : decodeDescriptor ⟨0x70000000, 0, 0, 0, []⟩ = .ok .beginC2 := by decide
theorem test_decode_sendCmd :
    decodeDescriptor ⟨0x80000010, 0x20000000, 4, 0, []⟩ = .ok (.sendCmd 0x20 4 0x10) ∧
    decodeDescriptor ⟨0x80000200, 0xB7001234, 0x56000000, 0, []⟩ =
      .ok (.sendCmd 0xB7 0x00123456000000 0x200) := by decide
theorem test_decode_flRead : decodeDescriptor ⟨0x90000001, 3, 6, 0, []⟩ = .ok (.flRead 3 6 true) := by decide
theorem test_decode_flWrite :
    decodeDescriptor ⟨0xA0000000, 0xE, 5, 0, src5⟩ = .ok (.flWrite 0xE 5 false src5) := by decide
theorem test_decode_reserved :
    decodeDescriptor ⟨0, 0, 0, 0, []⟩ = .ok (.reserved0 0 0 0 0) ∧
    decodeDescriptor ⟨0xB0000000, 0, 0, 0, []⟩ = .ok (.reservedB 0 0 0 0) ∧
    decodeDescriptor ⟨0xC0000000, 0, 0, 0, []⟩ = .ok (.reservedCF 0 0 0 0 0) ∧
    decodeDescriptor ⟨0xF0000000, 0, 0, 0, []⟩ = .ok (.reservedCF 3 0 0 0 0) := by decide
theorem test_decode_mustBeZero :
    [(⟨0x41000000, 0, 0, 0, []⟩ : Descriptor), ⟨0x10000000, 1, 2, 3, []⟩, ⟨0x10000001, 1, 2, 0, []⟩,
      ⟨0x30000100, 0, 0, 0, []⟩, ⟨0x60ABCD01, 0, 0, 1, []⟩, ⟨0x80010010, 0, 0, 0, []⟩, ⟨0x90000002, 0, 0, 0, []⟩,
      ⟨0x50000000, 0, 1, 0, []⟩].map decodeDescriptor = List.replicate 8 (.rejected .mustBeZero) := by decide
theorem test_decode_dummy : decodeWire (ctx 1) ⟨.raw, 0x9F00000000000000, 0x2000⟩ = .ok .dummy := by decide +kernel
theorem test_decode_readBlock : decodeWire (ctx 1) ⟨.raw, 0, 0x200⟩ = .ok .readBlock := by decide +kernel
theorem test_decode_chipidRaw : decodeWire (ctx 1) ⟨.raw, 0x9000000000000000, 4⟩ = .ok .chipidRaw := by decide +kernel
theorem test_decode_actC1 : decodeWire (ctx 1) ⟨.act, 0x3C12345600000100, 0⟩ = .ok .actC1 := by decide +kernel
theorem test_decode_c1InitC2 : decodeWire (ctx 1) ⟨.c1, 0x4ABCD12345600001, 0⟩ = .ok .c1InitC2 := by decide +kernel
theorem test_decode_c1Chipid : decodeWire (ctx 2) ⟨.c1, 0x1ABCD12345600002, 4⟩ = .ok .c1Chipid := by decide +kernel
theorem test_decode_c1ActC2 : decodeWire (ctx 3) ⟨.c1, 0xAABCD12345600003, 0⟩ = .ok .c1ActC2 := by decide +kernel
theorem test_decode_c2Chipid : decodeWire (ctx 1) ⟨.c2, 0xB800000000000000, 4⟩ = .ok .c2Chipid := by decide +kernel
theorem test_decode_hostCmdRaw :
    decodeWire (ctx 1) ⟨.raw, 0xB700123456000000, 0x200⟩ = .ok (.hostCmdRaw 0xB7 0x00123456000000 0x200) := by
  decide +kernel
theorem test_decode_hostCmdC1 :
    decodeWire (ctx 4) ⟨.c1, 0x2000412345600004, 0x10⟩ = .ok (.hostCmdC1 0x20 4 0x10) := by decide +kernel
theorem test_decode_hostCmdC2 :
    decodeWire (ctx 1) ⟨.c2, 0xB700123456000000, 0x200⟩ = .ok (.hostCmdC2 0xB7 0x00123456000000 0x200) := by
  decide +kernel
/-- A Cipher1 frame with another counter is none the block sends now. -/
theorem test_decode_foreign :
    decodeWire (ctx 1) ⟨.c1, 0x1ABCD12345600002, 4⟩ = .rejected .foreignWord := by decide +kernel

/-- Bit 0 of a table word is bit 0 of D0, and D1 counts on at bit 32. -/
theorem test_table_word_order :
    decodeTableWord 128 (0x60ABCD01 + 0x00123456 * 2 ^ 32 + 2 ^ 64) = some (.beginC1 1 0x123456 1 0xABCD) := by
  decide +kernel
theorem test_table_wire_word : decodeTableWord 64 0x9F00000000000000 = some .dummy ∧
    decodeTableWord 64 0x3C12345600000100 = some .actC1 ∧ decodeTableWord 64 0xB800000000000000 = some .c2Chipid ∧
    decodeTableWord 64 0x4ABCD12345600001 = some .c1InitC2 ∧ decodeTableWord 64 0x3C00000010000000 = none := by
  decide +kernel

/-! ## Frames and bytes (V22, V24, V13) -/

theorem test_frameAct_counter_field : frameAct 0x3C 0x123456 0xFFF00001 = 0x3C12345600000100 := by decide
theorem test_frameC1_low_nibble : frameC1 0x2F 0xF123 0x123456 6 = 0x2F12312345600006 := by decide
theorem test_frameC1_high_ij : frameC1 0x40 0xABCD 0xFF123456 1 = 0x4ABCD12345600001 := by decide
theorem test_frameC1_counter_wraps : frameC1 0x10 0xABCD 0x123456 0x00100000 = 0x1ABCD12345600000 := by decide
theorem test_toBytes : toBytes 0x4ABCD12345600001 = #v[0x4A, 0xBC, 0xD1, 0x23, 0x45, 0x60, 0x00, 0x01] := by decide
theorem test_le32 : le32At [0, 1, 2, 3, 4] 1 = 0x04030201 := by decide
theorem test_deriveKey : deriveKey 0x80000001 = ⟨0x80000001, 0x40000000, 2⟩ := by decide
theorem test_bswap32 : bswap32 0x00001234 = 0x34120000 := by decide
/-- P2, transaction 7. -/
theorem test_c2Seed : c2Seed Config.tc0 2 0x123456 = (0x091A2B605A, 0x5C879B9B05) := by decide +kernel

/-! ## The cipher (V1, V3, V4, V12) -/

/-- The pattern schedule of section 0. -/
def pat : Schedule := Schedule.ofNatFn Config.patWord

theorem test_roundF_pattern : roundF pat 0x23016745 = 0xED800D14 := by decide +kernel
theorem test_enc_pattern : enc pat (0x11111111, 0x22222222) = (0x2AC7A9A6, 0x72A7DE92) := by decide +kernel
theorem test_dec_pattern : dec pat (0x11111111, 0x22222222) = (0x1418A41F, 0xC75DF210) := by decide +kernel
/-- V12, step 0. -/
theorem test_premix_zero_seed :
    premixKey CardState.reset.ks ⟨0x1234, 0x091A, 0x2468⟩ = ⟨0x2468, 0x1234, 0x091A⟩ := by decide +kernel
/-- V12, step 1, an even and an odd word and the first that is not touched. -/
theorem test_xorKey_zero_seed :
    [0, 17, 18].map ((xorKey ⟨0x2468, 0x1234, 0x091A⟩ CardState.reset.ks).toList.getD · 1) =
      [0x68240000, 0x34120000, 0] := by decide +kernel

/-! ## One step of each instruction -/

/-- V2. -/
theorem test_enc_step : nextIs (exec (.enc 0x11111111 0x22222222) State.reset)
    (fun t => t.result == some ⟨.ok, 0, .words [0x22222222, 0x11111111]⟩ && t.trace == []) = true := by decide +kernel
theorem test_dec_step : nextIs (exec (.dec 0x22222222 0x11111111) (session .cipher2 []))
    (fun t => t.result == some ⟨.ok, 0, .words [0x11111111, 0x22222222]⟩) = true := by decide +kernel
/-- V15 and R87(c): illegal before state. -/
theorem test_ksbuild_refused : ran (.ksbuild 1 0 0 0) (session .cipher1 []) .errState 0 = true ∧
    ran (.ksbuild 2 0 0 0) (session .cipher1 []) .errIllegal 0 = true := by decide +kernel
theorem test_ksbuild_raw : ran (.ksbuild 1 0x1234 0x091A 0x2468) State.reset .ok 0 = true := by decide +kernel
/-- V27, both cases. -/
theorem test_resetLink_from_cipher2 :
    nextIs (exec .resetLink (session .cipher2 [.ok [], .fail]))
      (fun t => codeOf t == some .ok && t.cs.status == .raw && t.trace.length == 2) = true ∧
    nextIs (exec .resetLink (session .cipher2 [.fail]))
      (fun t => codeOf t == some .errTransport && t.cs.status == .cipher2 && t.trace.length == 1) = true := by
  decide +kernel
/-- V25. -/
theorem test_readId_fields :
    nextIs (exec .readId { State.reset with env := { State.reset.env with tScript := [.ok idBlock, .ok chip] } })
      (fun t => codeOf t == some .ok && t.cs.gameCode == 0x1234 && t.cs.keySeedByte == 2
        && t.cs.timingC1 == 0x88776655 && t.cs.timingC2 == 0x44332211 && t.cs.chipId == 0xFC2) = true := by
  decide +kernel
theorem test_readId_second_fails :
    nextIs (exec .readId { State.reset with env := { State.reset.env with tScript := [.ok idBlock, .fail] } })
      (fun t => codeOf t == some .errTransport && t.trace.length == 2 && t.cs.gameCode == 0 && t.cs.keySeedByte == 0
        && t.cs.timingC1 == 0 && t.cs.timingC2 == 0 && t.cs.chipId == 0) = true := by decide +kernel
/-- V28, the second row. -/
theorem test_beginC1_init_fails :
    nextIs (exec (.beginC1 1 0x123456 1 0xABCD) (session .raw [.ok [], .fail]))
      (fun t => codeOf t == some .errTransport && t.cs.status == .raw && t.cs.nonceCounter == 2
        && t.cs.timingC1 == 0x88772211 && t.trace.length == 2) = true := by decide +kernel
/-- V28, the last two rows. -/
theorem test_beginC1_chip_id :
    nextIs (exec (.beginC1 1 0x123456 1 0xABCD) (session .raw [.ok [], .ok [], .ok [], .ok [0xC3, 0x0F, 0, 0]]))
      (fun t => codeOf t == some .errHandshake && t.cs.status == .raw && t.cs.nonceCounter == 3) = true ∧
    nextIs (exec (.beginC1 1 0x123456 1 0xABCD) (session .raw [.ok [], .ok [], .ok [], .ok chip]))
      (fun t => codeOf t == some .ok && t.cs.status == .cipher1 && t.cs.nonceCounter == 3 && t.trace.length == 4)
      = true := by decide +kernel
/-- P2, transactions 9 and 10. -/
theorem test_beginC2_ok :
    nextIs (exec .beginC2 (session .cipher1 [.ok [], .ok chip]))
      (fun t => codeOf t == some .ok && t.cs.status == .cipher2 && t.cs.nonceCounter == 2
        && t.cs.timingC2 == 0x00332211) = true := by decide +kernel
/-- V29 in Raw. -/
theorem test_sendCmd_raw :
    nextIs (exec (.sendCmd 0xB7 0x00123456000000 0x200) (session .raw [.fail]))
      (fun t => t.trace == [⟨.t (.send #v[0xB7, 0, 0x12, 0x34, 0x56, 0, 0, 0] 0x200 0x20000000), .fail⟩]
        && t.cs.nonceCounter == 1) = true := by decide +kernel
/-- V2 and V22: under a schedule of zeros the Cipher1 frame of `args` 4 goes out with its halves swapped. -/
theorem test_sendCmd_cipher1 :
    nextIs (exec (.sendCmd 0x20 4 0x10) (session .cipher1 [.fail]))
      (fun t => t.trace == [⟨.t (.send #v[0x45, 0x60, 0, 0x01, 0x20, 0, 0x41, 0x23] 0x10 0x88776655), .fail⟩]
        && t.cs.nonceCounter == 2) = true := by decide +kernel
/-- V30, V31, V33. -/
theorem test_flRead_fast_and_empty :
    nextIs (exec (.flRead 3 6 false) (fs []))
      (fun t => t.result == some ⟨.ok, 6, .bytes [3, 4, 5, 6, 7, 8]⟩ && t.trace.map (·.txn) == [.f (.memRead 3 6)])
      = true ∧
    ran (.flRead 3 0 true) (fs []) .ok 0 = true ∧ ran (.flRead 3 0 false) (fs []) .ok 1 = true := by decide +kernel
/-- V32. -/
theorem test_flRead_granularity :
    nextIs (exec (.flRead 3 6 false) { fs [] with cfg := { Config.tc0 with rp := 2 } })
      (fun t => t.result == some ⟨.ok, 6, .bytes [3, 4, 5, 6, 7, 8]⟩ && t.trace.map (·.txn) == [.f (.memRead 3 8)])
      = true := by decide +kernel
/-- P5, the first operation. -/
theorem test_flWrite_two_pages :
    nextIs (exec (.flWrite 0xE 5 false src5) (fs []))
      (fun t => codeOf t == some .ok && t.trace.length == 13
        && flashBytes t.env.flash 0xC 8 == [0x0C, 0x0D, 0xA0, 0xA1, 0xA2, 0xA3, 0xA4, 0x13]
        && decide (t.env.flash.wf)) = true := by decide +kernel
/-- P6, the first operation. -/
theorem test_flWrite_failed_write :
    nextIs (exec (.flWrite 0xE 5 false src5) (fs [.ideal, .ideal, .ideal, .fail]))
      (fun t => codeOf t == some .errPrimWrite && t.trace.length == 4
        && flashBytes t.env.flash 0 6 == [0, 1, 2, 3, 0xFF, 0xFF] && flashByte t.env.flash 0x10 == 0x10) = true := by
  decide +kernel
theorem test_reserved_step : ran (.reserved0 0 0 0 0) (session .cipher1 []) .errIllegal 0 = true ∧
    ran (.reservedB 1 2 3 4) (session .raw []) .errIllegal 0 = true ∧
    ran (.reservedCF 3 0 0 0 0) (session .cipher2 []) .errIllegal 0 = true := by decide +kernel
/-- P2, transactions 2 to 4 and 10; the same words of P2 by themselves. -/
theorem test_raw_rows :
    nextIs (exec .dummy (session .raw [.fail]))
      (fun t => t.trace.map (·.txn) == [.t (.send #v[0x9F, 0, 0, 0, 0, 0, 0, 0] 0x2000 0x20000000)]) = true ∧
    nextIs (exec .readBlock (session .raw [.fail]))
      (fun t => t.trace.map (·.txn) == [.t (.send #v[0, 0, 0, 0, 0, 0, 0, 0] 0x200 0x10000000)]) = true ∧
    nextIs (exec .chipidRaw (session .raw [.fail]))
      (fun t => t.trace.map (·.txn) == [.t (.send #v[0x90, 0, 0, 0, 0, 0, 0, 0] 4 0x10000000)]) = true ∧
    nextIs (exec .c2Chipid (session .cipher1 [.fail]))
      (fun t => t.trace.map (·.txn) == [.t (.send #v[0xB8, 0, 0, 0, 0, 0, 0, 0] 4 0x44332211)]) = true := by
  decide +kernel
theorem test_actC1_row :
    nextIs (exec .actC1 (session .raw [.fail]))
      (fun t => t.trace.map (·.txn) == [.t (.send #v[0x3C, 0x12, 0x34, 0x56, 0, 0, 1, 0] 0 0x20000000)]
        && t.cs.nonceCounter == 1) = true := by decide +kernel
/-- V22's frames under a schedule of zeros, which swaps the halves (V2). -/
theorem test_c1_rows :
    nextIs (exec .c1InitC2 (session .raw [.fail]))
      (fun t => t.trace.map (·.txn) == [.t (.send #v[0x45, 0x60, 0, 1, 0x4A, 0xBC, 0xD1, 0x23] 0 0x88776655)]
        && t.cs.nonceCounter == 2) = true ∧
    nextIs (exec .c1Chipid (session .raw [.fail]))
      (fun t => t.trace.map (·.txn) == [.t (.send #v[0x45, 0x60, 0, 1, 0x1A, 0xBC, 0xD1, 0x23] 4 0x88776655)]) = true ∧
    nextIs (exec .c1ActC2 (session .raw [.fail]))
      (fun t => t.trace.map (·.txn) == [.t (.send #v[0x45, 0x60, 0, 1, 0xAA, 0xBC, 0xD1, 0x23] 0 0x88776655)]) = true := by
  decide +kernel
theorem test_hostCmd_rows :
    nextIs (exec (.hostCmdRaw 0xB7 0x00123456000000 0x200) (session .cipher2 [.fail]))
      (fun t => t.trace.map (·.txn) == [.t (.send #v[0xB7, 0, 0x12, 0x34, 0x56, 0, 0, 0] 0x200 0x20000000)]) = true ∧
    nextIs (exec (.hostCmdC2 0xB7 0x00123456000000 0x200) (session .cipher2 [.fail]))
      (fun t => t.trace.map (·.txn) == [.t (.send #v[0xB7, 0, 0x12, 0x34, 0x56, 0, 0, 0] 0x200 0x44332211)]) = true ∧
    nextIs (exec (.hostCmdC1 0x20 0x00123456000000 0x10) (session .cipher1 [.fail]))
      (fun t => t.trace.map (·.txn) == [.t (.send #v[0x45, 0x60, 0, 1, 0x2A, 0xBC, 0xD1, 0x23] 0x10 0x88776655)]
        && t.cs.nonceCounter == 2) = true := by decide +kernel
/-- The word placed by `withFetchWord` is the one the next step runs. -/
theorem test_withFetchWord :
    nextIs (step (State.reset.withFetchWord 128 (0x10000000 + 5 * 2 ^ 32 + 7 * 2 ^ 64)))
      (fun t => t.result == some ⟨.ok, 0, .words [7, 5]⟩ && t.requests == []) = true ∧
    step (State.reset.withFetchWord 64 0x3C12345600000100) = exec .actC1
      { State.reset with cs := { CardState.reset with nonceIj := 0x123456, nonceCounter := 1 } } := by
  exact ⟨by decide +kernel, rfl⟩

/-! ## Witnesses: a state and operands that meet the hypotheses of each statement that has some -/

/-- The ideal flash of FS alone, empty (all bytes erased), and 64 bytes long. -/
def blank : State :=
  { State.reset with env := { State.reset.env with fRest := .ideal, flashSize := 64 } }

/-- The request of P5. -/
def write5 : Request := .descriptor ⟨0xA0000000, 0xE, 5, 0, src5⟩

theorem inv_blank : Inv blank := by
  refine ⟨⟨⟨List.Pairwise.nil, ?_⟩, ?_⟩, ?_⟩ <;> exact fun c hc => absurd hc List.not_mem_nil

theorem flashInv_fs : FlashInv (fs []).env.flash := by
  refine ⟨⟨by decide +kernel, by decide +kernel⟩, by decide +kernel⟩

theorem witness_StepKeepsInv : Inv { blank with requests := [write5] } ∧
    ∃ t, step { blank with requests := [write5] } = .next t ∧ (codeOf t == some .ok) = true :=
  ⟨inv_blank, nextIs_spec (by decide +kernel)⟩

theorem witness_StepKeepsConfig : ∃ t, step State.reset = .next t := ⟨_, rfl⟩

theorem witness_StatusTransitionsComplete_beginC1 : ∃ t, exec (.beginC1 1 0x123456 1 0xABCD)
    (session .raw [.ok [], .ok [], .ok [], .ok chip, .ok [], .ok chip]) = .next t ∧
    (codeOf t == some .ok && t.cs.status == .cipher1) = true := nextIs_spec (by decide +kernel)

theorem witness_StatusTransitionsComplete_beginC2 : ∃ t, exec .beginC2 (session .cipher1 [.ok [], .ok chip]) = .next t ∧
    (codeOf t == some .ok && t.cs.status == .cipher2) = true := nextIs_spec (by decide +kernel)

theorem witness_StatusTransitionsComplete_resetLink : ∃ t, exec .resetLink (session .cipher2 [.ok []]) = .next t ∧
    (codeOf t == some .ok && t.cs.status == .raw) = true := by
  refine ⟨resetLink (session .cipher2 [.ok []]), rfl, ?_⟩
  have h : tReply (session .cipher2 [.ok []]).env 0 0 = .ok [] := rfl
  simp only [resetLink, tReset_eq, h]
  rfl

theorem witness_RegistersWrittenOnlyByTheirOperations : ∃ t, exec .readId (session .raw [.ok idBlock, .ok chip]) = .next t ∧
    (codeOf t == some .ok) = true := nextIs_spec (by decide +kernel)

theorem witness_RegistersWritten_counter : ∃ t, exec (.sendCmd 0x20 4 0x10) (session .cipher1 [.fail]) = .next t ∧
    (t.cs.nonceCounter != (session .cipher1 [.fail]).cs.nonceCounter) = true := nextIs_spec (by decide +kernel)

theorem witness_StepRunsDecodedInstruction :
    ({ blank with requests := [write5] } : State).requests = write5 :: [] ∧
    decode (wireCtx { blank with requests := [write5] }) write5 = .ok (.flWrite 0xE 5 false src5) := by
  exact ⟨rfl, by decide⟩

/-- V21: a reserved selector, an unassigned bit, a seed there is not (of IllegalDescriptorsDoNothing). -/
theorem witness_IllegalDescriptors_selector : HostMove (.descriptor ⟨0xB0000000, 0, 0, 0, []⟩) ∧
    IllegalDescriptor State.reset.cfg ⟨0xB0000000, 0, 0, 0, []⟩ := by
  refine ⟨?_, .inl (.inr (by decide))⟩
  show decodeDescriptor _ ≠ _
  decide
theorem witness_IllegalDescriptors_bit : HostMove (.descriptor ⟨0x30000100, 0, 0, 0, []⟩) ∧
    IllegalDescriptor State.reset.cfg ⟨0x30000100, 0, 0, 0, []⟩ := by
  refine ⟨?_, .inr (.inl (.inr (.inl (by decide))))⟩
  show decodeDescriptor _ ≠ _
  decide
theorem witness_IllegalDescriptors_seed : HostMove (.descriptor ⟨0x30000002, 0, 0, 0, []⟩) ∧
    IllegalDescriptor State.reset.cfg ⟨0x30000002, 0, 0, 0, []⟩ ∧ State.reset.cfg.nseed ≤ (2 : Byte).toNat := by
  refine ⟨?_, .inr (.inr ⟨.inl (by decide), by decide⟩), by decide⟩
  show decodeDescriptor _ ≠ _
  decide

theorem witness_NothingIsFatal : ∀ r ∈ ({ blank with requests := [write5] } : State).requests, HostMove r := by
  intro r hr
  rw [List.mem_singleton.mp hr]
  show decodeDescriptor _ ≠ _
  decide

theorem witness_DescriptorRoundTrip : WellFormed (ctx 0).cfg (.beginC1 1 0xFFFFFFFF 0xFFFFFFFF 0xFFFF) = true ∧
    encode (ctx 0) (.beginC1 1 0xFFFFFFFF 0xFFFFFFFF 0xFFFF) =
      .descriptor ⟨0x60FFFF01, 0xFFFFFFFF, 0xFFFFFFFF, 0, []⟩ := by decide

theorem witness_DescriptorDecodeLosesNothing :
    decodeDescriptor ⟨0xFFFFFFFF, 1, 2, 3, [9]⟩ = .ok (.reservedCF 3 0xFFFFFFF 1 2 3) ∧
    decodeDescriptor ⟨0x80000010, 0x20000000, 4, 0, []⟩ = .ok (.sendCmd 0x20 4 0x10) := by decide

theorem witness_WireDecodeIsSound : decodeWire (ctx 3) ⟨.c1, 0xAABCD12345600003, 0⟩ = .ok .c1ActC2 := by decide +kernel

theorem witness_BlockCommandsDecodeToTheirRows : (ctx 0).cfg.opDummy ≠ (ctx 0).cfg.opReadBlock ∧
    (ctx 0).cfg.opDummy ≠ (ctx 0).cfg.opChipidRaw ∧ (ctx 0).cfg.opReadBlock ≠ (ctx 0).cfg.opChipidRaw ∧
    (ctx 0).cfg.opC1InitC2 ≠ (ctx 0).cfg.opC1ActC2 := by decide

theorem witness_Cipher1FrameFields : (0x40 : Byte).extractLsb' 0 4 = 0 := by decide

theorem witness_WireBytesMostSignificantFirst : toBytes 0x9F00000000000000 = toBytes 0x9F00000000000000 := rfl

theorem getElem_resetSchedule (i : Nat) (h : i < KS_LEN) : CardState.reset.ks[i] = 0 := by
  simp [CardState.reset, Schedule.ofNatFn]

/-- Of ZeroScheduleSwaps and of ZeroKeyAndScheduleStayZero. -/
theorem witness_ZeroSchedule : ∀ i : Fin KS_LEN, CardState.reset.ks[i.val] = 0 :=
  fun i => getElem_resetSchedule i.val i.isLt

theorem witness_KsbuildLoadsAndAppliesOnce : State.reset.cs.status = .raw ∧ (session .cipher1 []).cs.status ≠ .raw ∧
    State.reset.cfg.nseed ≤ (2 : Byte).toNat ∧
    (∃ seed, State.reset.cfg.seedRom[(0 : Byte).toNat]? = some seed) ∧
    ∃ seed, State.reset.cfg.seedRom[(1 : Byte).toNat]? = some seed :=
  ⟨rfl, by decide, by decide, ⟨_, rfl⟩, ⟨_, rfl⟩⟩

theorem witness_KeyScheduleIsDeterministic : State.reset.cfg = (session .raw []).cfg ∧
    State.reset.cs.ks = (session .raw []).cs.ks ∧ State.reset.key = (session .raw []).key ∧ State.reset.cs.status = .raw ∧
    (session .raw []).cs.status = .raw ∧ (1 : Byte).toNat < State.reset.cfg.nseed ∧
    (∃ t, exec (.ksbuild 1 1 2 3) State.reset = .next t) ∧ ∃ t, exec (.ksbuild 1 1 2 3) (session .raw []) = .next t :=
  ⟨rfl, rfl, rfl, rfl, rfl, by decide, ⟨_, rfl⟩, ⟨_, rfl⟩⟩

theorem witness_WrongStageDoesNothing : (session .cipher1 []).cs.status ≠ .raw ∧ (session .raw []).cs.status ≠ .cipher1 ∧
    (session .cipher2 []).cs.status ≠ .cipher1 ∧ (1 : Byte).toNat < (session .cipher1 []).cfg.nseed := by decide

theorem witness_ResetLinkEffect : tReply (session .raw [.fail]).env 0 0 = .fail ∧
    tReply (session .raw [.ok []]).env 0 0 = .ok [] := ⟨rfl, rfl⟩

theorem witness_ReadIdEffect_failures : (session .raw [.fail]).cs.status = .raw ∧
    tReply (session .raw [.fail]).env 0 0x200 = .fail ∧
    tReply (session .raw [.ok idBlock, .fail]).env 0 0x200 = .ok idBlock ∧
    tReply (session .raw [.ok idBlock, .fail]).env 1 4 = .fail := by
  refine ⟨rfl, rfl, by decide +kernel, rfl⟩

theorem witness_ReadIdEffect_ok : (session .raw [.ok idBlock, .ok chip]).cs.status = .raw ∧
    tReply (session .raw [.ok idBlock, .ok chip]).env 0 0x200 = .ok idBlock ∧
    tReply (session .raw [.ok idBlock, .ok chip]).env 1 4 = .ok [0xC2, 0x0F, 0, 0] ∧
    (idBlock.drop 0x0C).take 4 = [0x34, 0x12, 0, 0] ∧ idBlock[0x13]? = some 0x02 ∧
    (idBlock.drop 0x64).take 4 = [0x55, 0x66, 0x77, 0x88] ∧ (idBlock.drop 0x60).take 4 = [0x11, 0x22, 0x33, 0x44] := by
  refine ⟨rfl, by decide +kernel, rfl, by decide +kernel, by decide +kernel, by decide +kernel, by decide +kernel⟩

theorem witness_IdBlockHasEveryField :
    tReply (session .raw [.ok idBlock]).env 0 Config.tc0.idBlockLen.toNat = .ok idBlock := by decide +kernel

/-- The answers that lead to each of the six exits of BEGIN_C1. -/
theorem witness_BeginC1Exits : (session .raw []).cs.status = .raw ∧
    (∃ seed, (session .raw []).cfg.seedRom[(1 : Byte).toNat]? = some seed) ∧
    tReply (session .raw [.fail]).env 0 0 = .fail ∧ tReply (session .raw [.ok []]).env 0 0 = .ok [] ∧
    tReply (session .raw [.ok [], .fail]).env 1 0 = .fail ∧ tReply (session .raw [.ok [], .ok []]).env 1 0 = .ok [] ∧
    tReply (session .raw [.ok [], .ok [], .fail]).env 2 0 = .fail ∧
    tReply (session .raw [.ok [], .ok [], .ok []]).env 2 0 = .ok [] ∧
    tReply (session .raw [.ok [], .ok [], .ok [], .fail]).env 3 4 = .fail ∧
    tReply (session .raw [.ok [], .ok [], .ok [], .ok [0xC3, 0x0F, 0, 0]]).env 3 4 = .ok [0xC3, 0x0F, 0, 0] ∧
    ((0 : Byte) ++ (0 : Byte) ++ (0x0F : Byte) ++ (0xC3 : Byte) : Word) ≠ (session .raw []).cs.chipId ∧
    tReply (session .raw [.ok [], .ok [], .ok [], .ok chip]).env 3 4 = .ok [0xC2, 0x0F, 0, 0] ∧
    ((0 : Byte) ++ (0 : Byte) ++ (0x0F : Byte) ++ (0xC2 : Byte) : Word) = (session .raw []).cs.chipId :=
  ⟨rfl, ⟨_, rfl⟩, rfl, rfl, rfl, rfl, rfl, rfl, rfl, rfl, by decide, rfl, by decide⟩

theorem witness_BeginC2Exits : (session .cipher1 []).cs.status = .cipher1 ∧
    tReply (session .cipher1 [.fail]).env 0 0 = .fail ∧ tReply (session .cipher1 [.ok []]).env 0 0 = .ok [] ∧
    tReply (session .cipher1 [.ok [], .fail]).env 1 4 = .fail ∧
    tReply (session .cipher1 [.ok [], .ok [0xC3, 0x0F, 0, 0]]).env 1 4 = .ok [0xC3, 0x0F, 0, 0] ∧
    tReply (session .cipher1 [.ok [], .ok chip]).env 1 4 = .ok [0xC2, 0x0F, 0, 0] :=
  ⟨rfl, rfl, rfl, rfl, rfl, rfl⟩

theorem witness_SendCmdByStage : (session .raw []).cs.status = .raw ∧ (session .cipher1 []).cs.status = .cipher1 ∧
    (session .cipher2 []).cs.status = .cipher2 := ⟨rfl, rfl, rfl⟩

theorem witness_Cipher1CommandAdvancesCounter (s : State) :
    (Instr.hostCmdC1 0x20 0 0x10 = .c1InitC2 ∧ (0x20 : Byte) = s.cfg.opC1InitC2 ∧ s.cs.nonceL = s.cs.nonceL ∧ (0x10 : Half) = 0 ∨
     Instr.hostCmdC1 0x20 0 0x10 = .c1Chipid ∧ (0x20 : Byte) = s.cfg.opC1Chipid ∧ s.cs.nonceL = s.cs.nonceL ∧ (0x10 : Half) = 4 ∨
     Instr.hostCmdC1 0x20 0 0x10 = .c1ActC2 ∧ (0x20 : Byte) = s.cfg.opC1ActC2 ∧ s.cs.nonceL = s.cs.nonceL ∧ (0x10 : Half) = 0 ∨
     ∃ args : Args, Instr.hostCmdC1 0x20 0 0x10 = .hostCmdC1 0x20 args 0x10 ∧
       s.cs.nonceL = (if args.extractLsb' 0 16 = 0 then s.cs.nonceL else args.extractLsb' 0 16)) :=
  .inr (.inr (.inr ⟨0, rfl, rfl⟩))

theorem witness_UnencryptedCommandsLeaveRegisters : Instr.dummy = .dummy ∧
    frameRaw State.reset.cfg.opDummy 0 = 0x9F00000000000000 ∧ State.reset.cfg.dummyLen = 0x2000 ∧
    State.reset.cfg.timingRaw = 0x20000000 := by decide

/-- The commands of P4, and none at all. -/
theorem witness_CounterRisesByOnePerCommand : (session .cipher1 []).cs.status = .cipher1 ∧
    (session .cipher1 []).requests = ([] : List (Byte × Args × Half)).map
      (fun q => encode (wireCtx (session .cipher1 [])) (.sendCmd q.1 q.2.1 q.2.2)) ∧
    (∃ s : State, s.cs.status = .cipher1 ∧ s.requests =
      [((0x20 : Byte), (4 : Args), (0x10 : Half)), (0x20, 4, 0x10), (0x20, 0, 0x10)].map
        (fun q => encode (wireCtx s) (.sendCmd q.1 q.2.1 q.2.2))) :=
  ⟨rfl, rfl, ⟨{ session .cipher1 [] with requests :=
    [.descriptor ⟨0x80000010, 0x20000000, 4, 0, []⟩, .descriptor ⟨0x80000010, 0x20000000, 4, 0, []⟩,
     .descriptor ⟨0x80000010, 0x20000000, 0, 0, []⟩] }, rfl, by decide⟩⟩

/-- BEGIN_C1 and then BEGIN_C2, both OK. -/
theorem witness_HandshakeCounterAccount : ∃ t, exec (.beginC1 1 0x123456 1 0xABCD)
    (session .raw [.ok [], .ok [], .ok [], .ok chip, .ok [], .ok chip]) = .next t ∧
    (codeOf t == some .ok && nextIs (exec .beginC2 t) (fun u => codeOf u == some .ok)) = true :=
  nextIs_spec (by decide +kernel)

theorem witness_ReadPlanBlocks : (Config.tc0.rp = 0 ∧ false = false) ∧ ¬(Config.tc0.rp = 0 ∧ true = false) ∧
    readPlan Config.tc0 0 0x2100 true = [⟨0, 0x1000, 0x1000⟩, ⟨0x1000, 0x1000, 0x1000⟩, ⟨0x2000, 0x100, 0x100⟩] := by
  decide +kernel

/-- The largest range there is, and the shortest that is too long (V38). -/
theorem witness_FlReadDeliversTheBlocks : (0xFFFFFFF0 : Word).toNat + (0x10 : Word).toNat ≤ 2 ^ 32 := by decide
theorem witness_RangeCheckAtTheTop : 2 ^ 32 < (0xFFFFFFF0 : Word).toNat + (0x11 : Word).toNat ∧
    (0xFFFFFFF0 : Word).toNat + (0x10 : Word).toNat ≤ 2 ^ 32 ∧
    ∃ t, exec (.flRead 0xFFFFFFF0 0x10 false) State.reset = .next t := ⟨by decide, by decide, ⟨_, rfl⟩⟩

/-- P5: of FlWriteOkHistory, PagesErasedAtMostOnce, FullVerificationReadsTheSource. -/
theorem witness_FlWriteOk : src5.length = (5 : Word).toNat ∧ (5 : Word) ≠ 0 ∧ (5 : Word).toNat ≤ (fs []).cfg.vbufSize ∧
    ∃ t, exec (.flWrite 0xE 5 false src5) (fs []) = .next t ∧ (codeOf t == some .ok) = true :=
  ⟨rfl, by decide, by decide, nextIs_spec (by decide +kernel)⟩

theorem witness_FlWriteFrame : FlashInv (fs []).env.flash := flashInv_fs

/-- The first MemWrite of P5, after a read and an erase. -/
theorem witness_WriteFollowsErase : ∃ t, exec (.flWrite 0xE 5 false src5) (fs []) = .next t ∧
    (t.trace.drop 2 |>.map (·.txn)).head? = some (.f (.memWrite 0 4 [0, 1, 2, 3])) := by
  obtain ⟨t, h1, h2⟩ := nextIs_spec (o := exec (.flWrite 0xE 5 false src5) (fs []))
    (p := fun t => (t.trace.drop 2 |>.map (·.txn)).head? == some (.f (.memWrite 0 4 [0, 1, 2, 3]))) (by decide +kernel)
  exact ⟨t, h1, beq_iff_eq.mp h2⟩

/-- Of IdealFlashWrite and SecondWriteIsIdempotent. -/
theorem witness_IdealFlashWrite : FlashInv (fs []).env.flash ∧ IdealPort (fs []).env 64 ∧ src5.length = (5 : Word).toNat ∧
    (0xE : Word).toNat + (5 : Word).toNat ≤ 2 ^ 32 ∧
    ∀ p ∈ pageList (fs []).cfg ⟨(0xE : Word).toNat, (5 : Word).toNat, src5⟩,
      p + erasePage (fs []).cfg + (gran (fs []).cfg - 1) ≤ 64 :=
  ⟨flashInv_fs, ⟨rfl, rfl, rfl⟩, rfl, by decide, by decide +kernel⟩

theorem witness_IdealFlashRead : IdealPort (fs []).env 64 ∧ (0x3C : Word).toNat + (4 : Word).toNat ≤ 2 ^ 32 ∧
    (0x3C : Word).toNat + (4 : Word).toNat + (gran (fs []).cfg - 1) ≤ 64 :=
  ⟨⟨rfl, rfl, rfl⟩, by decide, by decide⟩

theorem witness_EveryCommandWordDecodes :
    encode (ctx 4) (.hostCmdC1 0x2F 0 0x10) = .wire ⟨.c1, 0x2FBCD12345600004, 0x10⟩ := by decide

theorem witness_HostCommandsDecodeToTheirRows : (0xB7 : Byte) ≠ (ctx 4).cfg.opDummy ∧ (0xB7 : Byte) ≠ (ctx 4).cfg.opReadBlock ∧
    (0xB7 : Byte) ≠ (ctx 4).cfg.opChipidRaw ∧ (0xB7 : Byte) ≠ (ctx 4).cfg.opC2Chipid ∧
    (0x20 : Byte) ≠ (ctx 4).cfg.opC1InitC2 ∧ (0x20 : Byte) ≠ (ctx 4).cfg.opC1Chipid ∧ (0x20 : Byte) ≠ (ctx 4).cfg.opC1ActC2 ∧
    (0x20 : Byte).extractLsb' 0 4 = 0 ∧ (4 : Half) ≠ 0 ∧ (4 : Args) = (4 : Half).setWidth 56 := by decide

/-- The longest range at the top of the address space, and one byte more (V38). -/
theorem witness_FlWriteHistoryOfEveryExit : (List.replicate 16 (0 : Byte)).length = (0x10 : Word).toNat ∧
    (0xFFFFFFF0 : Word).toNat + (0x10 : Word).toNat ≤ 2 ^ 32 ∧
    (List.replicate 17 (0 : Byte)).length = (0x11 : Word).toNat ∧
    2 ^ 32 < (0xFFFFFFF0 : Word).toNat + (0x11 : Word).toNat := by decide

/-- Of FailureEndsTheOperation, TransactionBounds, ResultCodesOfEachOperation: every instruction answers. -/
theorem witness_exec_next : ∃ t, exec .resetLink State.reset = .next t := ⟨_, rfl⟩

/-- V37, V46, P6 and V45: each failure code of a flash operation. -/
theorem witness_PrimitiveCodeNamesTheLastTransaction :
    ran (.flRead 0x3C 8 false) (fs []) .errPrimRead 1 = true ∧
    ran (.flWrite 0xE 5 false src5) (fs [.ideal, .fail]) .errPrimErase 2 = true ∧
    ran (.flWrite 0xE 5 false src5) (fs [.ideal, .ideal, .ideal, .fail]) .errPrimWrite 4 = true ∧
    ran (.flWrite 0xE 5 false src5) (fs [.ideal, .ok [], .ideal, .ideal, .ideal, .ideal, .ideal, .ok []]) .errVerify 13
      = true := by decide +kernel

end Sys2Proof.Tests
end

section
/-! Proofs, 30_encoding.md: what the decoder answers under each selector, and that an illegal descriptor ends with
ERR_ILLEGAL and no other effect (R87). -/

namespace Sys2Proof.Proofs
open Sys2Proof.Machine

/-! ## One step on a descriptor -/

section Step
variable {s : State} {d : Descriptor} {rest : List Request} (hreq : s.requests = .descriptor d :: rest)
include hreq

theorem step_of_decodeDescriptor_ok {i : Instr} (hd : decodeDescriptor d = .ok i) :
    step s = exec i { s with requests := rest } := by
  simp only [step, fetch, hreq, decode, hd]

theorem step_of_decodeDescriptor_rejected {why : Reject} (hd : decodeDescriptor d = .rejected why) :
    step s = onReject why { s with requests := rest } := by
  simp only [step, fetch, hreq, decode, hd]

end Step

/-! ## The decoder, selector by selector (R82, R83) -/

section Selectors
variable {d : Descriptor}

theorem decodeDescriptor_reserved0 (h : opselOf d = 0) :
    decodeDescriptor d = .ok (.reserved0 (d.d0.extractLsb' 0 28) d.d1 d.d2 d.d3) := by
  rw [decodeDescriptor, show d.d0.extractLsb' 28 4 = _ from h]
  rfl

theorem decodeDescriptor_enc (h : opselOf d = 1) : decodeDescriptor d =
    if d.d0.extractLsb' 0 28 = 0 ∧ d.d3 = 0 then withoutData d (.enc d.d1 d.d2) else .rejected .mustBeZero := by
  rw [decodeDescriptor, show d.d0.extractLsb' 28 4 = _ from h]
  rfl

theorem decodeDescriptor_dec (h : opselOf d = 2) : decodeDescriptor d =
    if d.d0.extractLsb' 0 28 = 0 ∧ d.d3 = 0 then withoutData d (.dec d.d1 d.d2) else .rejected .mustBeZero := by
  rw [decodeDescriptor, show d.d0.extractLsb' 28 4 = _ from h]
  rfl

theorem decodeDescriptor_ksbuild (h : opselOf d = 3) : decodeDescriptor d =
    if d.d0.extractLsb' 8 20 = 0 then withoutData d (.ksbuild (d.d0.extractLsb' 0 8) d.d1 d.d2 d.d3)
    else .rejected .mustBeZero := by
  rw [decodeDescriptor, show d.d0.extractLsb' 28 4 = _ from h]
  rfl

theorem decodeDescriptor_resetLink (h : opselOf d = 4) : decodeDescriptor d =
    if d.d0.extractLsb' 0 28 = 0 ∧ d.d1 = 0 ∧ d.d2 = 0 ∧ d.d3 = 0 then withoutData d .resetLink
    else .rejected .mustBeZero := by
  rw [decodeDescriptor, show d.d0.extractLsb' 28 4 = _ from h]
  rfl

theorem decodeDescriptor_readId (h : opselOf d = 5) : decodeDescriptor d =
    if d.d0.extractLsb' 0 28 = 0 ∧ d.d1 = 0 ∧ d.d2 = 0 ∧ d.d3 = 0 then withoutData d .readId
    else .rejected .mustBeZero := by
  rw [decodeDescriptor, show d.d0.extractLsb' 28 4 = _ from h]
  rfl

theorem decodeDescriptor_beginC1 (h : opselOf d = 6) : decodeDescriptor d =
    if d.d0.extractLsb' 24 4 = 0 ∧ d.d3 = 0 then
      withoutData d (.beginC1 (d.d0.extractLsb' 0 8) d.d1 d.d2 (d.d0.extractLsb' 8 16))
    else .rejected .mustBeZero := by
  rw [decodeDescriptor, show d.d0.extractLsb' 28 4 = _ from h]
  rfl

theorem decodeDescriptor_beginC2 (h : opselOf d = 7) : decodeDescriptor d =
    if d.d0.extractLsb' 0 28 = 0 ∧ d.d1 = 0 ∧ d.d2 = 0 ∧ d.d3 = 0 then withoutData d .beginC2
    else .rejected .mustBeZero := by
  rw [decodeDescriptor, show d.d0.extractLsb' 28 4 = _ from h]
  rfl

theorem decodeDescriptor_sendCmd (h : opselOf d = 8) : decodeDescriptor d =
    if d.d0.extractLsb' 16 12 = 0 ∧ d.d3 = 0 then
      withoutData d (.sendCmd (d.d1.extractLsb' 24 8) (argsOf d.d1 d.d2) (d.d0.extractLsb' 0 16))
    else .rejected .mustBeZero := by
  rw [decodeDescriptor, show d.d0.extractLsb' 28 4 = _ from h]
  rfl

theorem decodeDescriptor_flRead (h : opselOf d = 9) : decodeDescriptor d =
    if d.d0.extractLsb' 1 27 = 0 ∧ d.d3 = 0 then withoutData d (.flRead d.d1 d.d2 (d.d0.getLsbD 0))
    else .rejected .mustBeZero := by
  rw [decodeDescriptor, show d.d0.extractLsb' 28 4 = _ from h]
  rfl

theorem decodeDescriptor_flWrite (h : opselOf d = 10) : decodeDescriptor d =
    if d.d0.extractLsb' 1 27 = 0 ∧ d.d3 = 0 then
      if d.src.length = d.d2.toNat then .ok (.flWrite d.d1 d.d2 (d.d0.getLsbD 0) d.src) else .rejected .dataStream
    else .rejected .mustBeZero := by
  rw [decodeDescriptor, show d.d0.extractLsb' 28 4 = _ from h]
  rfl

theorem decodeDescriptor_reservedB (h : opselOf d = 11) :
    decodeDescriptor d = .ok (.reservedB (d.d0.extractLsb' 0 28) d.d1 d.d2 d.d3) := by
  rw [decodeDescriptor, show d.d0.extractLsb' 28 4 = _ from h]
  rfl

theorem decodeDescriptor_reservedCF (h : 12 ≤ (opselOf d).toNat) :
    decodeDescriptor d = .ok (.reservedCF (d.d0.extractLsb' 28 2) (d.d0.extractLsb' 0 28) d.d1 d.d2 d.d3) := by
  rw [opselOf] at h
  unfold decodeDescriptor
  split <;> simp_all

end Selectors

/-! ## Fields and masks -/

/-- The `k` bits of `w` from bit `i` on are zero exactly when `w` has no bit in common with the mask of that field. -/
theorem extractLsb'_eq_zero_iff_and_mask {n : Nat} (w : BitVec n) {i k : Nat} {mask : BitVec n}
    (hmask : (BitVec.allOnes k).setWidth n <<< i = mask) : w.extractLsb' i k = 0 ↔ w &&& mask = 0 := by
  subst hmask
  constructor
  · intro h
    ext j hj
    by_cases hij : i ≤ j
    · have hbit : (w.extractLsb' i k).getLsbD (j - i) = false := by simp [h]
      grind
    · simp [hij]
  · intro h
    ext j hj
    have hbit : (w &&& (BitVec.allOnes k).setWidth n <<< i).getLsbD (i + j) = false := by simp [h]
    grind

section Masks
variable (w : Word)

theorem bits0to27_eq_zero_iff : w.extractLsb' 0 28 = 0 ↔ w &&& 0x0FFFFFFF = 0 :=
  extractLsb'_eq_zero_iff_and_mask w (by decide)

theorem bits1to27_eq_zero_iff : w.extractLsb' 1 27 = 0 ↔ w &&& 0x0FFFFFFE = 0 :=
  extractLsb'_eq_zero_iff_and_mask w (by decide)

theorem bits8to27_eq_zero_iff : w.extractLsb' 8 20 = 0 ↔ w &&& 0x0FFFFF00 = 0 :=
  extractLsb'_eq_zero_iff_and_mask w (by decide)

theorem bits16to27_eq_zero_iff : w.extractLsb' 16 12 = 0 ↔ w &&& 0x0FFF0000 = 0 :=
  extractLsb'_eq_zero_iff_and_mask w (by decide)

theorem bits24to27_eq_zero_iff : w.extractLsb' 24 4 = 0 ↔ w &&& 0x0F000000 = 0 :=
  extractLsb'_eq_zero_iff_and_mask w (by decide)

end Masks

/-! ## The three ways to be illegal (R87) -/

/-- R87(b): an unassigned bit is tested before everything else, the data stream included. -/
theorem decodeDescriptor_of_unassignedBit {d : Descriptor} (h : UnassignedBit d) :
    decodeDescriptor d = .rejected .mustBeZero := by
  simp only [UnassignedBit, ne_eq, ← not_and_or, ← bits0to27_eq_zero_iff, ← bits1to27_eq_zero_iff,
    ← bits8to27_eq_zero_iff, ← bits16to27_eq_zero_iff, ← bits24to27_eq_zero_iff] at h
  obtain ⟨hsel | hsel, hbit⟩ | ⟨hsel, hbit⟩ | ⟨hsel | hsel | hsel, hbit⟩ | ⟨hsel, hbit⟩ | ⟨hsel, hbit⟩ |
    ⟨hsel | hsel, hbit⟩ := h
  · rw [decodeDescriptor_enc hsel, if_neg hbit]
  · rw [decodeDescriptor_dec hsel, if_neg hbit]
  · rw [decodeDescriptor_ksbuild hsel, if_neg hbit]
  · rw [decodeDescriptor_resetLink hsel, if_neg hbit]
  · rw [decodeDescriptor_readId hsel, if_neg hbit]
  · rw [decodeDescriptor_beginC2 hsel, if_neg hbit]
  · rw [decodeDescriptor_beginC1 hsel, if_neg hbit]
  · rw [decodeDescriptor_sendCmd hsel, if_neg hbit]
  · rw [decodeDescriptor_flRead hsel, if_neg hbit]
  · rw [decodeDescriptor_flWrite hsel, if_neg hbit]

theorem exec_ksbuild_of_nseed_le {s : State} {sel : Byte} (h : s.cfg.nseed ≤ sel.toNat) (a b c : Word) :
    exec (.ksbuild sel a b c) s = .next (raiseCode .errIllegal s) := by
  simp only [exec, execKsbuild, ksbuild, seedOf_of_le h]

theorem exec_beginC1_of_nseed_le {s : State} {sel : Byte} (h : s.cfg.nseed ≤ sel.toNat) (ij k : Word) (l : Half) :
    exec (.beginC1 sel ij k l) s = .next (raiseCode .errIllegal s) := by
  simp only [exec, execBeginC1, beginC1, seedOf_of_le h]

/-- The instruction `i` ends with ERR_ILLEGAL and no other effect in every state of a block built with `c`. -/
def EndsIllegal (c : Config) (i : Instr) : Prop :=
  ∀ s : State, s.cfg = c → exec i s = .next (raiseCode .errIllegal s)

/-- R87(a): a reserved selector decodes, to an instruction whose whole meaning is ERR_ILLEGAL. -/
theorem decodeDescriptor_of_reserved {d : Descriptor} (c : Config) (h : opselOf d = 0 ∨ 11 ≤ (opselOf d).toNat) :
    ∃ i, decodeDescriptor d = .ok i ∧ EndsIllegal c i := by
  obtain hsel | hsel := h
  · exact ⟨_, decodeDescriptor_reserved0 hsel, fun _ _ => rfl⟩
  · obtain hsel | hsel := hsel.eq_or_lt
    · exact ⟨_, decodeDescriptor_reservedB (BitVec.eq_of_toNat_eq hsel.symm), fun _ _ => rfl⟩
    · exact ⟨_, decodeDescriptor_reservedCF hsel, fun _ _ => rfl⟩

/-- A test of unassigned bits before an instruction without data: for a request of the host it rejects the bits, or it
gives the instruction. -/
theorem rejected_or_ok_of_ite_withoutData {d : Descriptor} {i : Instr} {p : Prop} [Decidable p]
    (hd : decodeDescriptor d = if p then withoutData d i else .rejected .mustBeZero) (hmove : HostMove (.descriptor d)) :
    decodeDescriptor d = .rejected .mustBeZero ∨ decodeDescriptor d = .ok i := by
  by_cases hbits : p
  · rw [if_pos hbits] at hd
    by_cases hsrc : d.src = []
    · exact .inr (hd.trans (if_pos hsrc))
    · exact absurd (hd.trans (if_neg hsrc)) hmove
  · exact .inl (hd.trans (if_neg hbits))

/-- The decoder on an illegal descriptor of the host: it rejects the bits (R87(b)), or gives an instruction that the
operation itself finds illegal (R87(a), (c)). -/
theorem decodeDescriptor_of_illegal {c : Config} {d : Descriptor} (hmove : HostMove (.descriptor d))
    (hill : IllegalDescriptor c d) :
    decodeDescriptor d = .rejected .mustBeZero ∨ ∃ i, decodeDescriptor d = .ok i ∧ EndsIllegal c i := by
  obtain hres | hbit | ⟨hsel | hsel, hseed⟩ := hill
  · exact .inr (decodeDescriptor_of_reserved c hres)
  · exact .inl (decodeDescriptor_of_unassignedBit hbit)
  · refine (rejected_or_ok_of_ite_withoutData (decodeDescriptor_ksbuild hsel) hmove).imp_right fun hd => ⟨_, hd, ?_⟩
    rintro s rfl
    exact exec_ksbuild_of_nseed_le hseed ..
  · refine (rejected_or_ok_of_ite_withoutData (decodeDescriptor_beginC1 hsel) hmove).imp_right fun hd => ⟨_, hd, ?_⟩
    rintro s rfl
    exact exec_beginC1_of_nseed_le hseed ..

/-- The block's answer to an illegal descriptor: the request is taken and ERR_ILLEGAL raised. -/
theorem step_of_illegal {s : State} {d : Descriptor} {rest : List Request} (hreq : s.requests = .descriptor d :: rest)
    (hmove : HostMove (.descriptor d)) (hill : IllegalDescriptor s.cfg d) :
    step s = .next (raiseCode .errIllegal { s with requests := rest }) := by
  obtain hd | ⟨i, hd, hi⟩ := decodeDescriptor_of_illegal hmove hill
  · rw [step_of_decodeDescriptor_rejected hreq hd, onReject]
  · exact (step_of_decodeDescriptor_ok hreq hd).trans (hi _ rfl)

/-- Settles O8: each way to be illegal ends in `raiseCode .errIllegal`, in the decoder's answer or in the operation's
first test. -/
theorem illegalDescriptorsDoNothing : Obligations.IllegalDescriptorsDoNothing := by
  refine ⟨?_, ?_, ?_⟩
  · exact fun s d rest hreq hmove hill => step_of_illegal hreq hmove hill
  · exact fun s r a b c => ⟨rfl, rfl, fun _ => rfl⟩
  · exact fun s sel hseed => ⟨exec_ksbuild_of_nseed_le hseed, exec_beginC1_of_nseed_le hseed⟩

end Sys2Proof.Proofs
end

section
/-! Proofs, 41_cipher.md: the rounds of `Enc` and `Dec` as one network over a numbering of the round keys, the two loops
of a key schedule pass, and the exits of KSBUILD. -/

namespace Sys2Proof.Proofs
open Sys2Proof.Machine

/-- A loop over `0 … n - 1`, cut after `m + 1` turns: turn `m` is the last. -/
theorem foldl_take_finRange_succ {α : Type} {n m : Nat} (f : α → Fin n → α) (a : α) (h : m < n) :
    ((List.finRange n).take (m + 1)).foldl f a = f (((List.finRange n).take m).foldl f a) ⟨m, h⟩ := by
  have hm : m < (List.finRange n).length := by rwa [List.length_finRange]
  rw [List.take_succ_eq_append_getElem hm, List.foldl_concat, List.getElem_finRange, Fin.cast_mk]

/-! ## The network -/

/-- Settles O19: S-box `k` starts at word `18 + 256 k` of the flat schedule. -/
theorem roundFunctionFormula : Obligations.RoundFunctionFormula := by
  intro S z
  simp only [roundF, sWord_eq_getD]
  rfl

/-- The halves (X, Y) after `n` rounds that take round key `key i` in round `i`. -/
def halvesAfter (S : Schedule) (key : Fin PLEN → Fin PLEN) (xy : Word × Word) (n : Nat) : Word × Word :=
  ((List.finRange PLEN).take n).foldl (fun p i => feistelRound S p (key i)) xy

/-- The whole network over the key numbering `key`: `Enc` is that of `id`, `Dec` that of `Fin.rev`. -/
def network (S : Schedule) (key : Fin PLEN → Fin PLEN) (w : Word × Word) : Word × Word :=
  let r := halvesAfter S key (w.2, w.1) NR
  (r.1 ^^^ pWord S (key ⟨NR, by decide⟩), r.2 ^^^ pWord S (key ⟨NR + 1, by decide⟩))

theorem enc_eq_network (S : Schedule) (w : Word × Word) : enc S w = network S id w := rfl

theorem dec_eq_network (S : Schedule) (w : Word × Word) : dec S w = network S Fin.rev w := by
  have hkeys : decRounds = ((List.finRange PLEN).take NR).map Fin.rev := by decide
  simp only [dec, network, halvesAfter, hkeys, List.foldl_map]
  rfl

theorem halvesAfter_zero (S : Schedule) (key : Fin PLEN → Fin PLEN) (xy : Word × Word) :
    halvesAfter S key xy 0 = xy := rfl

theorem halvesAfter_succ (S : Schedule) (key : Fin PLEN → Fin PLEN) (xy : Word × Word) {n : Nat} (h : n < PLEN) :
    halvesAfter S key xy (n + 1) = feistelRound S (halvesAfter S key xy n) (key ⟨n, h⟩) :=
  foldl_take_finRange_succ _ xy h

/-- `j` rounds with the keys from the last one down, on the halves that `network` leaves, undo its last `j` rounds: they
leave the swapped halves after the first `m`, each with the next key still on it. -/
theorem halvesAfter_rev (S : Schedule) (key : Fin PLEN → Fin PLEN) (w : Word × Word) {m j : Nat}
    (h : m + j + 2 = PLEN) :
    halvesAfter S (key ∘ Fin.rev) ((network S key w).2, (network S key w).1) j =
      ((halvesAfter S key (w.2, w.1) m).2 ^^^ pWord S (key ⟨m + 1, by omega⟩),
       (halvesAfter S key (w.2, w.1) m).1 ^^^ pWord S (key ⟨m, by omega⟩)) := by
  induction j generalizing m with
  | zero =>
    obtain rfl : m = NR := Nat.add_right_cancel h
    rfl
  | succ j ih =>
    have hrev : Fin.rev (⟨j, by omega⟩ : Fin PLEN) = ⟨m + 1 + 1, by omega⟩ := by
      ext; simp only [Fin.val_rev]; omega
    rw [halvesAfter_succ _ _ _ (by omega), ih (m := m + 1) (by omega), halvesAfter_succ _ _ _ (by omega),
      Function.comp_apply, hrev, feistelRound_undo]

/-- The keys in the opposite order undo the network. -/
theorem network_rev_network (S : Schedule) (key : Fin PLEN → Fin PLEN) (w : Word × Word) :
    network S (key ∘ Fin.rev) (network S key w) = w := by
  have hx : Fin.rev (⟨NR, by decide⟩ : Fin PLEN) = ⟨1, by decide⟩ := by decide
  have hy : Fin.rev (⟨NR + 1, by decide⟩ : Fin PLEN) = ⟨0, by decide⟩ := by decide
  rw [network, halvesAfter_rev S key w (m := 0) rfl, halvesAfter_zero, Function.comp_apply,
    Function.comp_apply, hx, hy]
  simp only [BitVec.xor_assoc, BitVec.xor_self, BitVec.xor_zero]

/-- Settles O20: `Enc` and `Dec` are the same network with their keys in opposite orders. -/
theorem cipherRoundTrip : Obligations.CipherRoundTrip := by
  intro S x
  simp only [enc_eq_network, dec_eq_network]
  have hid : Fin.rev ∘ Fin.rev = (id : Fin PLEN → Fin PLEN) := funext Fin.rev_rev
  exact ⟨network_rev_network S id x, hid ▸ network_rev_network S Fin.rev x⟩

/-- The network value by value, where round `i` takes word `ix i` of the flat schedule (R122). -/
theorem network_follows_rounds (S : Schedule) {key : Fin PLEN → Fin PLEN} {ix : Nat → Nat}
    (hix : ∀ i, (key i).val = ix i.val) (w0 w1 : Word) :
    ∃ X Y : Nat → Word, X 0 = w1 ∧ Y 0 = w0 ∧
      (∀ i, i < 16 → Y (i + 1) = S.toList.getD (ix i) 0 ^^^ X i ∧ X (i + 1) = roundF S (Y (i + 1)) ^^^ Y i) ∧
      network S key (w0, w1) = (X 16 ^^^ S.toList.getD (ix 16) 0, Y 16 ^^^ S.toList.getD (ix 17) 0) := by
  refine ⟨fun n => (halvesAfter S key (w1, w0) n).1, fun n => (halvesAfter S key (w1, w0) n).2, rfl, rfl, ?_, ?_⟩
  · intro i hi
    simp only [halvesAfter_succ S key (w1, w0) (hi.trans (by decide)), feistelRound, pWord_eq_getD, hix, and_self]
  · simp only [network, pWord_eq_getD, hix]

/-- Settles O21: `Enc` numbers its keys upwards, `Dec` downwards. -/
theorem cipherFollowsItsRounds : Obligations.CipherFollowsItsRounds := by
  intro S w0 w1
  have hrev (i : Fin PLEN) : i.rev.val = 17 - i.val := (Fin.val_rev i).trans (Nat.add_sub_add_right 17 1 i)
  exact ⟨network_follows_rounds S (key := id) (fun _ => rfl) w0 w1,
    dec_eq_network S (w0, w1) ▸ network_follows_rounds S hrev w0 w1⟩

/-- Settles O22: each is `finish` with the pair as data. -/
theorem encAndDecReturnThePair : Obligations.EncAndDecReturnThePair := fun _ _ _ => ⟨rfl, rfl⟩

/-! ## One pass of the key schedule -/

/-- Step 1 of the pass after its first `m` entries. -/
def xoredTo (k : Key) (S : Schedule) (m : Nat) : Schedule := ((List.finRange PLEN).take m).foldl (xorEntry k) S

theorem xorKey_eq_xoredTo (k : Key) (S : Schedule) : xorKey k S = xoredTo k S PLEN := rfl

/-- The first `m` entries have the key on them, and no other is touched. -/
theorem getElem_xoredTo (k : Key) (S : Schedule) {m : Nat} (hm : m ≤ PLEN) (n : Nat) (h : n < KS_LEN) :
    (xoredTo k S m)[n] = if n < m then S[n] ^^^ bswap32 (keyParity k n) else S[n] := by
  induction m generalizing n with
  | zero => rfl
  | succ m ih =>
    rw [xoredTo, foldl_take_finRange_succ _ S hm, getElem_xorEntry]
    obtain rfl | hne := eq_or_ne m n
    · rw [if_pos rfl, if_pos (Nat.lt_succ_self m), pWord]
      exact congrArg (· ^^^ _) ((ih (by omega) m h).trans (if_neg (Nat.lt_irrefl m)))
    · rw [if_neg hne]
      exact (ih (by omega) n h).trans (if_congr (by omega) rfl rfl)

/-- The schedule and the working pair of step 2 before turn `j`. -/
def remixedTo (S : Schedule) (j : Nat) : Schedule × (Word × Word) :=
  ((List.finRange KS_PAIRS).take j).foldl remixPair (S, (0, 0))

theorem remix_eq_remixedTo (S : Schedule) : remix S = (remixedTo S 521).1 := by
  rw [remix, remixedTo, List.take_of_length_le (i := 521) (List.length_finRange (n := KS_PAIRS)).le]

theorem remixedTo_succ (S : Schedule) {j : Nat} (h : j < KS_PAIRS) :
    remixedTo S (j + 1) = remixPair (remixedTo S j) ⟨j, h⟩ :=
  foldl_take_finRange_succ _ _ h

theorem remixedTo_succ_snd (S : Schedule) {j : Nat} (h : j < KS_PAIRS) :
    (remixedTo S (j + 1)).2 = enc (remixedTo S j).1 (remixedTo S j).2 := by
  rw [remixedTo_succ S h, remixPair_snd]

/-- Before turn `j` the first `2 j` words are the pairs of the turns before, second word first, and the rest is as it
was (R125 notes (c), (d)). -/
theorem getElem_remixedTo (S : Schedule) {j : Nat} (hj : j ≤ KS_PAIRS) (n : Nat) (h : n < KS_LEN) :
    (remixedTo S j).1[n] =
      if n < 2 * j then
        (if n % 2 = 0 then (remixedTo S (n / 2 + 1)).2.2 else (remixedTo S (n / 2 + 1)).2.1)
      else S[n] := by
  induction j with
  | zero => rfl
  | succ j ih =>
    rw [remixedTo_succ S hj, getElem_remixPair, ← remixedTo_succ_snd S hj]
    by_cases heven : n = 2 * j
    · rw [if_pos heven, if_pos (by omega), if_pos (by omega), show n / 2 = j by omega]
    · rw [if_neg heven]
      by_cases hodd : n = 2 * j + 1
      · rw [if_pos hodd, if_pos (by omega), if_neg (by omega), show n / 2 = j by omega]
      · rw [if_neg hodd, ih (by omega)]
        exact if_congr (by omega) rfl rfl

/-- The key after step 0 (R125 note (a)). -/
def keyAfterPremix (premix : Bool) (S : Schedule) (k : Key) : Key := if premix then premixKey S k else k

/-- The schedule after step 1, on the key after step 0. -/
def scheduleAfterXor (premix : Bool) (S : Schedule) (k : Key) : Schedule := xorKey (keyAfterPremix premix S k) S

/-- A pass with its three steps named. -/
theorem ksPass_eq (premix : Bool) (S : Schedule) (k : Key) :
    ksPass premix (S, k) = (remix (scheduleAfterXor premix S k), keyAfterPremix premix S k) := rfl

/-- Settles O25: the witnesses are the key after step 0, the schedule after step 1 and the states of step 2's loop. -/
theorem keySchedulePassFollowsItsSteps : Obligations.KeySchedulePassFollowsItsSteps := by
  intro premix S k
  refine ⟨keyAfterPremix premix S k, scheduleAfterXor premix S k,
    fun j => (remixedTo (scheduleAfterXor premix S k) j).1, fun j => (remixedTo (scheduleAfterXor premix S k) j).2,
    ?_, ?_, ?_, rfl, rfl, ?_, ?_, ?_⟩
  · rintro rfl
    rfl
  · rintro rfl
    exact ⟨enc S (k.k1, k.k2), rfl, rfl, rfl⟩
  · exact fun i => getElem_xoredTo _ S le_rfl i.val i.isLt
  · exact fun j hj => remixedTo_succ_snd _ hj
  · exact fun j hj i => getElem_remixedTo _ hj i.val i.isLt
  · rw [ksPass_eq, remix_eq_remixedTo]

/-! ## KSBUILD -/

section Ksbuild
variable {s : State} {sel : Byte} {seed : Schedule} (hseed : seedOf s.cfg sel = some seed)
include hseed

theorem exec_ksbuild_of_ne_raw (hst : s.cs.status ≠ .raw) (a b c : Word) :
    exec (.ksbuild sel a b c) s = .next (raiseCode .errState s) := by
  simp only [exec, execKsbuild, ksbuild, hseed]
  cases h : s.cs.status with
  | raw => exact absurd h hst
  | cipher1 => rfl
  | cipher2 => rfl

theorem exec_ksbuild_of_raw (hst : s.cs.status = .raw) (a b c : Word) :
    exec (.ksbuild sel a b c) s = .next (returnOk (ksApply (ksLoad seed ⟨a, b, c⟩ s))) := by
  simp only [exec, execKsbuild, ksbuild, hseed, hst]

end Ksbuild

/-- Settles O27: the seed is tested before the status, and only the third exit loads and applies. -/
theorem ksbuildLoadsAndAppliesOnce : Obligations.KsbuildLoadsAndAppliesOnce := by
  intro s sel a b c
  refine ⟨fun hsel => ?_, fun seed hseed => ⟨fun hst => ?_, fun hst => ?_⟩⟩
  · rw [exec_ksbuild_of_nseed_le hsel, raiseCode_eq]
  · rw [exec_ksbuild_of_ne_raw hseed hst, raiseCode_eq]
  · rw [exec_ksbuild_of_raw hseed hst, returnOk_eq, ksApply_eq, ksLoad_eq]

/-- Settles O28: the equations of `KS_LOAD`, `KS_APPLY` and `KS_SETUP` name no other part of the state, and KSBUILD
in Raw is the first two. -/
theorem keyScheduleIsDeterministic : Obligations.KeyScheduleIsDeterministic := by
  refine ⟨?_, ?_, ?_⟩
  · intro s s' seed k hcfg
    simp only [ksLoad_eq, ksSetup_eq, hcfg, and_self]
  · intro s s' hcfg hks hkey
    simp only [ksApply_eq, hcfg, hks, hkey, and_self]
  · intro s s' t t' sel a b c hcfg hst hst' hsel ht ht'
    obtain ⟨seed, hseed⟩ := seedOf_of_lt hsel
    rw [exec_ksbuild_of_raw hseed hst] at ht
    rw [exec_ksbuild_of_raw (hcfg ▸ hseed) hst'] at ht'
    cases ht
    cases ht'
    simp only [returnOk_eq, ksApply_eq, ksLoad_eq, hcfg, and_self]

end Sys2Proof.Proofs
end

section
/-! Proofs, 42_protocol.md: every operation of the link as a chain of transactions, each of which ends the operation with
ERR_TRANSPORT or hands its answer on, and the exits that chain gives. -/

namespace Sys2Proof.Proofs
open Sys2Proof.Machine

/-! ## A transaction and what follows it -/

/-- The rest `k` of an operation after a transaction: a failed one ends it with ERR_TRANSPORT (R149). -/
def afterReply (r : Reply × State) (k : List Byte → State → State) : State :=
  match r.1 with
  | .fail => raiseCode .errTransport r.2
  | .ok b => k b r.2

@[simp] theorem afterReply_fail (u : State) (k : List Byte → State → State) :
    afterReply (.fail, u) k = raiseCode .errTransport u := rfl

@[simp] theorem afterReply_ok (b : List Byte) (u : State) (k : List Byte → State → State) :
    afterReply (.ok b, u) k = k b u := rfl

/-- The last step of both handshakes: compare the chip id, and on a match enter the stage `st` (R145). -/
def checkId (st : Status) (b : List Byte) (u : State) : State :=
  if idMatches b u then returnOk (setStatus st u) else raiseCode .errHandshake u

theorem le32At_four (c0 c1 c2 c3 : Byte) : le32At [c0, c1, c2, c3] 0 = c3 ++ c2 ++ c1 ++ c0 := le32At_eq rfl

theorem idMatches_iff {u : State} {c0 c1 c2 c3 : Byte} :
    idMatches [c0, c1, c2, c3] u = true ↔ c3 ++ c2 ++ c1 ++ c0 = u.cs.chipId := by
  rw [idMatches, beq_iff_eq, le32At_four]

theorem checkId_of_eq {st : Status} {u : State} {c0 c1 c2 c3 : Byte} (h : c3 ++ c2 ++ c1 ++ c0 = u.cs.chipId) :
    checkId st [c0, c1, c2, c3] u = returnOk (setStatus st u) :=
  if_pos (idMatches_iff.mpr h)

theorem checkId_of_ne {st : Status} {u : State} {c0 c1 c2 c3 : Byte} (h : c3 ++ c2 ++ c1 ++ c0 ≠ u.cs.chipId) :
    checkId st [c0, c1, c2, c3] u = raiseCode .errHandshake u :=
  if_neg (mt idMatches_iff.mp h)

theorem setStatus_eq (st : Status) (s : State) : setStatus st s = { s with cs := { s.cs with status := st } } := rfl

/-! ## The operations as chains -/

section Chains
variable (s : State)

theorem exec_resetLink_eq : exec .resetLink s =
    .next (afterReply (tReset s) fun _ u => returnOk (setStatus .raw (sendDummy u).2)) := rfl

theorem readIdRaw_eq : readIdRaw s =
    afterReply (sendReadBlock s) fun b u => afterReply (sendChipidRaw u) fun c v => returnOk (loadId b c v) := rfl

theorem sendCmd_eq (op8 : Byte) (args : Args) (n : Half) : sendCmd op8 args n s =
    afterReply (sendByStatus op8 args n s) returnBytes := rfl

theorem beginC1Raw_eq (seed : Schedule) (ij k : Word) (l : Half) : beginC1Raw seed ij k l s =
    afterReply (sendAct (ksSetup seed (deriveKey s.cs.gameCode) (loadNonces ij k l s))) fun _ => beginC1Init := rfl

theorem beginC1Init_eq : beginC1Init s =
    afterReply (sendC1InitC2 (mergeTimingC1 s)) fun _ => beginC1Seed := rfl

theorem beginC1Seed_eq : beginC1Seed s =
    afterReply (tSeedC2 (c2Seed s.cfg s.cs.keySeedByte s.cs.nonceIj) s) fun _ => beginC1Query := rfl

theorem beginC1Query_eq : beginC1Query s = afterReply (sendC1Chipid s) (checkId .cipher1) := rfl

theorem beginC2Query_eq : beginC2Query s = afterReply (sendC2Chipid (maskTimingC2 s)) (checkId .cipher2) := rfl

end Chains

/-! ## The test of the stage -/

section Stage
variable {s : State}

theorem exec_readId_of_raw (hst : s.cs.status = .raw) : exec .readId s = .next (readIdRaw s) := by
  simp only [exec, execReadId, readId, hst]

theorem exec_readId_of_ne_raw (hst : s.cs.status ≠ .raw) : exec .readId s = .next (raiseCode .errState s) := by
  simp only [exec, execReadId, readId]
  cases h : s.cs.status with
  | raw => exact absurd h hst
  | cipher1 => rfl
  | cipher2 => rfl

theorem exec_beginC2_of_cipher1 (hst : s.cs.status = .cipher1) :
    exec .beginC2 s = .next (afterReply (sendC1ActC2 s) fun _ => beginC2Query) := by
  simp only [exec, execBeginC2, beginC2, hst]
  rfl

theorem exec_beginC2_of_ne_cipher1 (hst : s.cs.status ≠ .cipher1) :
    exec .beginC2 s = .next (raiseCode .errState s) := by
  simp only [exec, execBeginC2, beginC2]
  cases h : s.cs.status with
  | raw => rfl
  | cipher1 => exact absurd h hst
  | cipher2 => rfl

section Seed
variable {sel : Byte} {seed : Schedule} (hseed : seedOf s.cfg sel = some seed) (ij k : Word) (l : Half)
include hseed

theorem exec_beginC1_of_raw (hst : s.cs.status = .raw) :
    exec (.beginC1 sel ij k l) s = .next (beginC1Raw seed ij k l s) := by
  simp only [exec, execBeginC1, beginC1, hseed, hst]

theorem exec_beginC1_of_ne_raw (hst : s.cs.status ≠ .raw) :
    exec (.beginC1 sel ij k l) s = .next (raiseCode .errState s) := by
  simp only [exec, execBeginC1, beginC1, hseed]
  cases h : s.cs.status with
  | raw => exact absurd h hst
  | cipher1 => rfl
  | cipher2 => rfl

end Seed

end Stage

/-! ## Key words -/

/-- Settles O30: both shifts are logical. -/
theorem derivedKeyWords : Obligations.DerivedKeyWords := by
  intro g
  refine ⟨rfl, ?_, ?_⟩
  · rw [deriveKey, BitVec.toNat_ushiftRight, Nat.shiftRight_eq_div_pow, pow_one]
  · rw [deriveKey, BitVec.toNat_shiftLeft, Nat.shiftLeft_eq, pow_one, mul_comm]

/-! ## RESET_LINK -/

theorem exec_resetLink_of_fail {s : State} (h : tReply s.env 0 0 = .fail) : exec .resetLink s = .next { s with
    env := afterT s.env 1
    trace := s.trace ++ [⟨.t .reset, .fail⟩]
    result := some (plainResult .errTransport) } := by
  rw [exec_resetLink_eq, tReset_eq, h, afterReply_fail, raiseCode_eq]

theorem exec_resetLink_of_ok {s : State} {b : List Byte} (h : tReply s.env 0 0 = .ok b) :
    exec .resetLink s = .next { s with
      cs := { s.cs with status := .raw }
      env := afterT s.env 2
      trace := s.trace ++ [⟨.t .reset, .ok b⟩,
        ⟨.t (.send (toBytes (frameRaw s.cfg.opDummy 0)) s.cfg.dummyLen s.cfg.timingRaw),
          tReply s.env 1 s.cfg.dummyLen.toNat⟩]
      result := some (plainResult .ok) } := by
  rw [exec_resetLink_eq, tReset_eq, h, afterReply_ok, sendDummy, sendRaw_eq]
  simp only [rawFlags, setStatus_eq, returnOk_eq, afterT_afterT, tReply_afterT, List.append_assoc, List.cons_append,
    List.nil_append, Nat.reduceAdd]

/-- Settles O32: the dummy's answer enters the history alone. -/
theorem resetLinkEffect : Obligations.ResetLinkEffect :=
  fun _ => ⟨exec_resetLink_of_fail, fun _ => exec_resetLink_of_ok⟩

theorem exec_resetLink_cases {s t : State} (h : exec .resetLink s = .next t) :
    (∃ b, tReply s.env 0 0 = .ok b) ∧ codeOf t = some .ok ∧ t.cs.status = .raw ∨
    tReply s.env 0 0 = .fail ∧ codeOf t = some .errTransport ∧ t.cs.status = s.cs.status := by
  cases hreset : tReply s.env 0 0 with
  | fail =>
    cases (exec_resetLink_of_fail hreset).symm.trans h
    exact .inr ⟨rfl, rfl, rfl⟩
  | ok b =>
    cases (exec_resetLink_of_ok hreset).symm.trans h
    exact .inl ⟨⟨b, rfl⟩, rfl, rfl⟩

/-! ## READ_ID -/

/-- Settles O33: the registers are written after both answers, so a failure of either leaves all five. -/
theorem readIdEffect : Obligations.ReadIdEffect := by
  intro s
  refine ⟨exec_readId_of_ne_raw, fun hst => ?_⟩
  rw [exec_readId_of_raw hst, readIdRaw_eq, sendReadBlock, sendRaw_eq]
  refine ⟨fun hblock => ?_, fun b hblock => ?_⟩
  · rw [hblock, afterReply_fail, raiseCode_eq, slowFlags]
  · simp only [hblock, afterReply_ok, sendChipidRaw, sendRaw_eq, slowFlags, tReply_afterT, afterT_afterT,
      BitVec.reduceToNat, Nat.reduceAdd, List.append_assoc, List.cons_append, List.nil_append]
    refine ⟨fun hchip => ?_, fun c0 c1 c2 c3 g0 g1 g2 g3 sb u0 u1 u2 u3 v0 v1 v2 v3 hchip hg hsb hu hv => ?_⟩
    · rw [hchip, afterReply_fail, raiseCode_eq]
    · simp only [hchip, afterReply_ok, loadId, le32At_eq hg, le32At_eq hu, le32At_eq hv, le32At_four,
        List.getD_eq_getElem?_getD, hsb, Option.getD_some, returnOk_eq]

/-! ## BEGIN_C2 -/

/-- Settles O36: the counter is advanced by the first command, the timing word by the step after it. -/
theorem beginC2Exits : Obligations.BeginC2Exits := by
  intro s
  refine ⟨exec_beginC2_of_ne_cipher1, ?_⟩
  rintro hst m e2 e4 rfl rfl rfl
  rw [exec_beginC2_of_cipher1 hst, sendC1ActC2, c1Cmd_eq]
  refine ⟨fun hact => ?_, fun b2 hact => ?_⟩
  · simp only [BitVec.reduceToNat, hact, afterReply_fail, raiseCode_eq, c1Word]
  · simp only [hact, afterReply_ok, beginC2Query_eq, sendC2Chipid, sendRaw_eq, maskTimingC2, c2Flags, c1Word,
      tReply_afterT, afterT_afterT, BitVec.reduceToNat, Nat.reduceAdd, List.append_assoc, List.cons_append,
      List.nil_append]
    refine ⟨fun hchip => ?_, fun c0 c1 c2 c3 hchip => ⟨fun hid => ?_, fun hid => ?_⟩⟩
    · rw [hchip, afterReply_fail, raiseCode_eq]
    · simp only [hchip, afterReply_ok, checkId_of_ne, hid, ne_eq, not_false_eq_true, raiseCode_eq]
    · simp only [hchip, afterReply_ok, checkId_of_eq, hid, returnOk_eq, setStatus_eq]

/-! ## BEGIN_C1 -/

/-- The activate command of BEGIN_C1 on the state that steps 2 and 3 leave. What the two passes give is a variable `p`: with
the passes written out, a comparison of register files by the kernel computes them and recurses too deep. -/
theorem beginC1Raw_eq_of_ksPass (s : State) (seed : Schedule) (ij k : Word) (l : Half) {p : Schedule × Key}
    (hp : p = ksPass s.cfg.ksPremix (ksPass s.cfg.ksPremix (seed, deriveKey s.cs.gameCode))) :
    beginC1Raw seed ij k l s = afterReply (tReply s.env 0 0, { s with
      cs := { s.cs with nonceIj := ij, nonceCounter := k, nonceL := l, ks := p.1 }
      key := p.2
      env := afterT s.env 1
      trace := s.trace ++ [⟨.t (.send (toBytes (frameAct s.cfg.opActC1 ij k)) 0 s.cfg.timingRaw), tReply s.env 0 0⟩] })
      fun _ => beginC1Init := by
  rw [beginC1Raw_eq, ksSetup_eq, loadNonces_cfg, ← hp, sendAct_eq]
  rfl

/-- Settles O35: the seed is tested before the status; then one exit a failed transaction, and the two of the chip id. -/
theorem beginC1Exits : Obligations.BeginC1Exits := by
  intro s sel ij k l
  refine ⟨fun hsel => exec_beginC1_of_nseed_le hsel ij k l, fun seed hseed =>
    ⟨exec_beginC1_of_ne_raw hseed ij k l, ?_⟩⟩
  rintro hst p r3 m e4 e6 e9 sv hp rfl rfl rfl rfl rfl rfl
  rw [exec_beginC1_of_raw hseed ij k l hst, beginC1Raw_eq_of_ksPass s seed ij k l hp]
  refine ⟨fun hact => ?_, fun b4 hact => ?_⟩
  · simp only [hact, afterReply_fail, raiseCode_eq]
  simp only [hact, afterReply_ok, beginC1Init_eq, mergeTimingC1, sendC1InitC2, c1Cmd_eq, c1Word, tReply_afterT,
    afterT_afterT, List.append_assoc, List.cons_append, List.nil_append, BitVec.reduceToNat, Nat.reduceAdd]
  refine ⟨fun hinit => ?_, fun b6 hinit => ?_⟩
  · simp only [hinit, afterReply_fail, raiseCode_eq]
  simp only [hinit, afterReply_ok, beginC1Seed_eq, tSeedC2_eq, tReply_afterT,
    afterT_afterT, List.append_assoc, List.cons_append, List.nil_append, Nat.reduceAdd]
  refine ⟨fun hseedC2 => ?_, fun b8 hseedC2 => ?_⟩
  · simp only [hseedC2, afterReply_fail, raiseCode_eq]
  have htwice : k + 1 + 1 = k + 2 := BitVec.add_assoc k 1 1
  simp only [hseedC2, afterReply_ok, beginC1Query_eq, sendC1Chipid, c1Cmd_eq, c1Word, tReply_afterT, htwice,
    afterT_afterT, List.append_assoc, List.cons_append, List.nil_append, BitVec.reduceToNat, Nat.reduceAdd]
  refine ⟨fun hchip => ?_, fun c0 c1 c2 c3 hchip => ⟨fun hid => ?_, fun hid => ?_⟩⟩
  · simp only [hchip, afterReply_fail, raiseCode_eq]
  · simp only [hchip, afterReply_ok, checkId_of_ne, hid, ne_eq, not_false_eq_true, raiseCode_eq]
  · simp only [hchip, afterReply_ok, checkId_of_eq, hid, returnOk_eq, setStatus_eq]

/-! ## SEND_CMD -/

/-- An answer to SEND_CMD has as many bytes as were asked for, so the count of its record is `n`. -/
theorem afterReply_returnBytes (e : Env) (n : Half) (u : State) :
    afterReply (tReply e 0 n.toNat, u) returnBytes =
      { u with result := some (sendResult n (tReply e 0 n.toNat)) } := by
  cases h : tReply e 0 n.toNat with
  | fail => rfl
  | ok b => rw [afterReply_ok, returnBytes, length_of_tReply h, BitVec.ofNat_toNat, finish, sendResult]

section SendCmd
variable (op8 : Byte) (args : Args) (n : Half) (s : State)

theorem sendByStatus_reply : (sendByStatus op8 args n s).1 = tReply s.env 0 n.toNat := by
  unfold sendByStatus
  split
  · rw [sendHostRaw, sendRaw_eq]
  · rw [sendHostC1, c1Cmd_eq]
  · rw [sendHostC2, sendRaw_eq]

/-- SEND_CMD is the transaction of its stage, and the record made of the answer. -/
theorem exec_sendCmd_eq : exec (.sendCmd op8 args n) s = .next { (sendByStatus op8 args n s).2 with
    result := some (sendResult n (tReply s.env 0 n.toNat)) } := by
  rw [← afterReply_returnBytes, ← sendByStatus_reply op8 args n s]
  rfl

end SendCmd

/-- Settles O37: the stage picks the frame, and only the Cipher1 frame advances the counter. -/
theorem sendCmdByStage : Obligations.SendCmdByStage := by
  rintro s op8 args n r rfl
  rw [exec_sendCmd_eq, sendByStatus]
  refine ⟨fun hst => ?_, ?_, fun hst => ?_⟩
  · rw [hst, sendHostRaw, sendRaw_eq, rawFlags]
  · rintro hst L rfl
    rw [hst, sendHostC1, c1Cmd_eq, c1Word, cmdL]
  · rw [hst, sendHostC2, sendRaw_eq, c2Flags]

/-! ## Codes, and the wrong stage -/

@[simp] theorem codeOf_raiseCode (code : ResultCode) (s : State) : codeOf (raiseCode code s) = some code := rfl

@[simp] theorem codeOf_returnOk (s : State) : codeOf (returnOk s) = some .ok := rfl

theorem sendResult_code_ne_errState (n : Half) (r : Reply) : (sendResult n r).code ≠ .errState := by
  cases r <;> exact ResultCode.noConfusion

/-- Settles O29: the stage is tested before anything is written or issued. -/
theorem wrongStageDoesNothing : Obligations.WrongStageDoesNothing := by
  intro s
  refine ⟨exec_readId_of_ne_raw, exec_beginC2_of_ne_cipher1, ?_, ?_, ?_, ?_⟩
  · intro sel ij k l hst hsel
    obtain ⟨seed, hseed⟩ := seedOf_of_lt hsel
    exact exec_beginC1_of_ne_raw hseed ij k l hst
  · intro sel a b c hst hsel
    obtain ⟨seed, hseed⟩ := seedOf_of_lt hsel
    exact exec_ksbuild_of_ne_raw hseed hst a b c
  · intro t ht
    obtain ⟨-, hcode, -⟩ | ⟨-, hcode, -⟩ := exec_resetLink_cases ht <;> simp [hcode]
  · intro op8 args n t ht
    cases (exec_sendCmd_eq op8 args n s).symm.trans ht
    exact fun h => sendResult_code_ne_errState n _ (Option.some.inj h)

/-! ## The handshakes -/

/-- A handshake from stage `a` to stage `b` that ended in `t`: with OK at `b`, or with another code still at `a`. -/
def HandshakeEnd (a b : Status) (t : State) : Prop :=
  codeOf t = some .ok ∧ t.cs.status = b ∨ codeOf t ≠ some .ok ∧ t.cs.status = a

theorem HandshakeEnd.of_afterReply {a b : Status} {r : Reply × State} {k : List Byte → State → State}
    (hr : r.2.cs.status = a) (hk : ∀ x u, u.cs.status = a → HandshakeEnd a b (k x u)) :
    HandshakeEnd a b (afterReply r k) := by
  obtain ⟨reply, u⟩ := r
  cases reply with
  | fail => exact .inr ⟨by simp, hr⟩
  | ok x => exact hk x u hr

theorem HandshakeEnd.of_checkId {a b : Status} (x : List Byte) (u : State) (hu : u.cs.status = a) :
    HandshakeEnd a b (checkId b x u) := by
  unfold checkId
  split
  · exact .inl ⟨rfl, rfl⟩
  · exact .inr ⟨by simp, hu⟩

section Ends
variable {s : State}

theorem beginC2Query_handshakeEnd (hst : s.cs.status = .cipher1) :
    HandshakeEnd .cipher1 .cipher2 (beginC2Query s) := by
  rw [beginC2Query_eq]
  exact .of_afterReply hst .of_checkId

theorem beginC1Query_handshakeEnd (hst : s.cs.status = .raw) : HandshakeEnd .raw .cipher1 (beginC1Query s) := by
  rw [beginC1Query_eq]
  exact .of_afterReply hst .of_checkId

theorem beginC1Seed_handshakeEnd (hst : s.cs.status = .raw) : HandshakeEnd .raw .cipher1 (beginC1Seed s) := by
  rw [beginC1Seed_eq]
  exact .of_afterReply hst fun _ _ => beginC1Query_handshakeEnd

theorem beginC1Init_handshakeEnd (hst : s.cs.status = .raw) : HandshakeEnd .raw .cipher1 (beginC1Init s) := by
  rw [beginC1Init_eq]
  exact .of_afterReply hst fun _ _ => beginC1Seed_handshakeEnd

theorem beginC1Raw_handshakeEnd (seed : Schedule) (ij k : Word) (l : Half) (hst : s.cs.status = .raw) :
    HandshakeEnd .raw .cipher1 (beginC1Raw seed ij k l s) := by
  obtain ⟨p, hp⟩ := exists_eq (a' := ksPass s.cfg.ksPremix (ksPass s.cfg.ksPremix (seed, deriveKey s.cs.gameCode)))
  rw [beginC1Raw_eq_of_ksPass s seed ij k l hp]
  exact .of_afterReply hst fun _ _ => beginC1Init_handshakeEnd

end Ends

/-- A handshake asked for in `s`, whatever its stage: OK is the way from `a` to `b`, any other code leaves the stage. -/
def Handshake (a b : Status) (s t : State) : Prop :=
  codeOf t = some .ok ∧ s.cs.status = a ∧ t.cs.status = b ∨ codeOf t ≠ some .ok ∧ t.cs.status = s.cs.status

namespace Handshake
variable {a b : Status} {s t : State}

theorem of_end (hst : s.cs.status = a) (h : HandshakeEnd a b t) : Handshake a b s t :=
  h.imp (fun ⟨hcode, ht⟩ => ⟨hcode, hst, ht⟩) fun ⟨hcode, ht⟩ => ⟨hcode, ht.trans hst.symm⟩

theorem of_raiseCode {code : ResultCode} (hcode : code ≠ .ok) (s : State) : Handshake a b s (raiseCode code s) :=
  .inr ⟨by simpa using hcode, rfl⟩

theorem status (h : Handshake a b s t) : t.cs.status = s.cs.status ∨ s.cs.status = a ∧ t.cs.status = b :=
  (h.imp And.right And.right).symm

theorem ok_iff (h : Handshake a b s t) (hab : a ≠ b) : codeOf t = some .ok ↔ s.cs.status = a ∧ t.cs.status = b := by
  obtain ⟨hcode, hstages⟩ | ⟨hcode, hsame⟩ := h
  · exact iff_of_true hcode hstages
  · exact iff_of_false hcode fun ⟨hs, ht⟩ => hab (by rw [← hs, ← ht, hsame])

end Handshake

theorem exec_beginC1_handshake {s t : State} {sel : Byte} {ij k : Word} {l : Half}
    (h : exec (.beginC1 sel ij k l) s = .next t) : Handshake .raw .cipher1 s t := by
  cases hseed : seedOf s.cfg sel with
  | none =>
    have hsel : s.cfg.nseed ≤ sel.toNat := List.getElem?_eq_none_iff.mp hseed
    cases (exec_beginC1_of_nseed_le hsel ij k l).symm.trans h
    exact .of_raiseCode (by decide) s
  | some seed =>
    by_cases hst : s.cs.status = .raw
    · cases (exec_beginC1_of_raw hseed ij k l hst).symm.trans h
      exact .of_end hst (beginC1Raw_handshakeEnd seed ij k l hst)
    · cases (exec_beginC1_of_ne_raw hseed ij k l hst).symm.trans h
      exact .of_raiseCode (by decide) s

theorem exec_beginC2_handshake {s t : State} (h : exec .beginC2 s = .next t) : Handshake .cipher1 .cipher2 s t := by
  by_cases hst : s.cs.status = .cipher1
  · cases (exec_beginC2_of_cipher1 hst).symm.trans h
    exact .of_end hst (.of_afterReply hst fun _ _ => beginC2Query_handshakeEnd)
  · cases (exec_beginC2_of_ne_cipher1 hst).symm.trans h
    exact .of_raiseCode (by decide) s

/-! ## The instructions that leave `cs.status` -/

theorem readId_status (s : State) : (readId s).cs.status = s.cs.status := by
  unfold readId
  split
  · unfold readIdRaw
    dsimp only
    split
    · rfl
    · split <;> rfl
  · rfl
  · rfl

theorem ksbuild_status (sel : Byte) (k : Key) (s : State) : (ksbuild sel k s).cs.status = s.cs.status := by
  unfold ksbuild
  split
  · rfl
  · split
    · rw [returnOk_eq, ksApply_eq, ksLoad_eq]
    · rfl
    · rfl

theorem sendByStatus_status (op8 : Byte) (args : Args) (n : Half) (s : State) :
    (sendByStatus op8 args n s).2.cs.status = s.cs.status := by
  unfold sendByStatus
  split <;> rfl

theorem flRead_cs (start len : Word) (progress : Bool) (s : State) : (flRead start len progress s).cs = s.cs := by
  by_cases hrange : start.toNat + len.toNat ≤ ADDR_SPACE
  · obtain ⟨evs, hrun, -⟩ := readRange_cases start.toNat len.toNat progress s
    rw [flRead_eq start len progress s hrange, finish_cs, hrun.cs]
  · rw [flRead_range start len progress s (Nat.lt_of_not_le hrange), raiseCode_eq]

theorem flWrite_cs (dest len : Word) (src : List Byte) (s : State) : (flWrite dest len src s).cs = s.cs := by
  by_cases hrange : dest.toNat + len.toNat ≤ ADDR_SPACE
  · obtain ⟨pages, ver, hrun, -⟩ := runJob_cases (jobOf dest len src) s
    obtain ⟨code, heq, -⟩ := flWrite_cases dest len src s hrange
    rw [heq, finish_cs, hrun.cs]
  · rw [flWrite_range dest len src s (Nat.lt_of_not_le hrange), raiseCode_eq]

/-- R140: only the two handshakes and RESET_LINK can change `cs.status`. -/
theorem exec_status_cases {i : Instr} {s t : State} (h : exec i s = .next t) :
    t.cs.status = s.cs.status ∨ (∃ sel ij k l, i = .beginC1 sel ij k l) ∨ i = .beginC2 ∨ i = .resetLink := by
  cases i with
  | beginC1 sel ij k l => exact .inr (.inl ⟨sel, ij, k, l, rfl⟩)
  | beginC2 => exact .inr (.inr (.inl rfl))
  | resetLink => exact .inr (.inr (.inr rfl))
  | readId => cases h; exact .inl (readId_status s)
  | ksbuild sel a b c => cases h; exact .inl (ksbuild_status sel ⟨a, b, c⟩ s)
  | sendCmd op8 args n =>
    cases (exec_sendCmd_eq op8 args n s).symm.trans h
    exact .inl (sendByStatus_status op8 args n s)
  | flRead start len progress => cases h; exact .inl (congrArg _ (flRead_cs start len progress s))
  | flWrite dest len progress src => cases h; exact .inl (congrArg _ (flWrite_cs dest len src s))
  | enc | dec | reserved0 | reservedB | reservedCF => cases h; exact .inl rfl
  | dummy | readBlock | chipidRaw | actC1 | c1InitC2 | c1Chipid | c1ActC2 | c2Chipid | hostCmdRaw | hostCmdC1
  | hostCmdC2 => cases h; exact .inl rfl

/-- Settles O5: a handshake's OK is its transition, a reset's OK is the port's, and no other instruction has one. -/
theorem statusTransitionsComplete : Obligations.StatusTransitionsComplete := by
  refine ⟨fun _ => rfl, fun i s t h => ⟨?_, ?_, ?_, ?_, ?_⟩⟩
  · obtain hsame | ⟨sel, ij, k, l, rfl⟩ | rfl | rfl := exec_status_cases h
    · exact .inl hsame
    · exact (exec_beginC1_handshake h).status.imp_right fun ⟨hs, ht⟩ => .inl ⟨hs, ht, sel, ij, k, l, rfl⟩
    · exact (exec_beginC2_handshake h).status.imp_right fun ⟨hs, ht⟩ => .inr (.inl ⟨hs, ht, rfl⟩)
    · obtain ⟨hreset, -, hraw⟩ | ⟨-, -, hsame⟩ := exec_resetLink_cases h
      · exact .inr (.inr (.inr ⟨hraw, rfl, hreset⟩))
      · exact .inl hsame
  · rintro sel ij k l rfl
    exact (exec_beginC1_handshake h).ok_iff (by decide)
  · rintro rfl
    exact (exec_beginC2_handshake h).ok_iff (by decide)
  · rintro rfl
    obtain ⟨hreset, hcode, -⟩ | ⟨hfail, hcode, -⟩ := exec_resetLink_cases h
    · exact iff_of_true hcode hreset
    · simp [hfail, hcode]
  · rintro rfl hok
    obtain ⟨-, -, hraw⟩ | ⟨-, hcode, -⟩ := exec_resetLink_cases h
    · exact hraw
    · simp [hcode] at hok

end Sys2Proof.Proofs
end

section
/-! Proofs, 43_flash.md: how FL_READ and FL_WRITE end on either side of the range check, and which pages a range has. -/

namespace Sys2Proof.Proofs
open Sys2Proof.Machine

/-! ## FL_READ (R173) -/

/-- An operation that used port F alone, once its record is stored. -/
theorem finish_eq_of_fRun {s t : State} {evs : List Event} (hrun : FRun s t evs) (r : Result) :
    finish r t = { s with env := t.env, trace := s.trace ++ evs, result := some r } := by
  rw [finish, hrun.eq]

/-- Settles O43: FL_READ stores what `Read` returned, which is the whole range or the blocks before the first failure. -/
theorem flReadDeliversTheBlocks : Obligations.FlReadDeliversTheBlocks := by
  intro s start len progress
  refine ⟨fun hbeyond => congrArg _ (flRead_range start len progress s hbeyond), fun hrange => ?_⟩
  obtain ⟨evs, hrun, hflash, hend⟩ := readRange_cases start.toNat len.toNat progress s
  have heq := (flRead_eq start len progress s hrange).trans (finish_eq_of_fRun hrun _)
  refine ⟨_, evs, _, congrArg Host.Outcome.next heq, rfl, rfl, hrun.tScript, hflash, rfl, ?_⟩
  obtain ⟨hout, hread, hlen⟩ | ⟨good, bad, hevs, hbad, hgood, htxns, hle, hout, hshort⟩ := hend
  · exact .inl ⟨hread, hlen, by simp [hout]⟩
  · have hshort' := hshort.imp_right fun h => BitVec.eq_of_toNat_eq (y := 0) h
    exact .inr ⟨good, bad, hevs, hbad, hgood, htxns, hle, hshort', by simp [hout]⟩

/-! ## The range check (R174) -/

section Range
variable {addr len : Word} (hrange : addr.toNat + len.toNat ≤ ADDR_SPACE) (s : State)
include hrange

/-- Inside the address space FL_READ ends with OK or with a failed read. -/
theorem codeOf_flRead (progress : Bool) :
    codeOf (flRead addr len progress s) = some .ok ∨ codeOf (flRead addr len progress s) = some .errPrimRead := by
  rw [flRead_eq addr len progress s hrange]
  cases (readRange addr.toNat len.toNat progress s).1.ok with
  | true => exact .inl rfl
  | false => exact .inr rfl

/-- Inside the address space FL_WRITE ends with OK, with a mismatch, or with the code of a failed primitive. -/
theorem codeOf_flWrite (src : List Byte) : ∃ code, codeOf (flWrite addr len src s) = some code ∧
    (code = .ok ∨ code = .errVerify ∨ ∃ evs, Failed code evs) := by
  obtain ⟨code, heq, hcode⟩ := flWrite_cases addr len src s hrange
  refine ⟨code, congrArg codeOf heq, ?_⟩
  obtain ⟨hist, ver, -, -, -, -, hend⟩ := runJob_cases (jobOf addr len src) s
  obtain ⟨-, hok⟩ | hstop := hcode
  · exact .inl hok
  · rw [hstop] at hend
    obtain ⟨hnone, -⟩ | ⟨hverify, -⟩ | ⟨code', hcode', hfailed⟩ := hend
    · cases hnone
    · exact .inr (.inl (Option.some.inj hverify))
    · cases hcode'
      exact .inr (.inr ⟨_, hfailed⟩)

theorem codeOf_flWrite_ne_errRange (src : List Byte) : codeOf (flWrite addr len src s) ≠ some .errRange := by
  obtain ⟨code, hcode, rfl | rfl | ⟨evs, hfailed⟩⟩ := codeOf_flWrite hrange s src
  · simp [hcode]
  · simp [hcode]
  · obtain rfl | rfl | rfl := hfailed.code <;> simp [hcode]

end Range

/-- Settles O44: both operations test the range first, and nothing after that test has its code. -/
theorem rangeCheckAtTheTop : Obligations.RangeCheckAtTheTop := by
  intro s addr len progress src
  refine ⟨fun hbeyond => ⟨?_, ?_⟩, fun hrange t ht => ?_⟩
  · exact congrArg _ (flRead_range addr len progress s hbeyond)
  · exact congrArg _ (flWrite_range addr len src s hbeyond)
  · obtain hread | hwrite := ht
    · cases hread
      obtain hcode | hcode := codeOf_flRead hrange s progress <;> simp [hcode]
    · cases hwrite
      exact codeOf_flWrite_ne_errRange hrange s src

/-! ## The pages of a range (R175) -/

theorem alignDown_eq_mul_div (a e : Nat) : alignDown a e = e * (a / e) := by
  have := Nat.div_add_mod a e
  unfold alignDown
  omega

section Pages
variable (c : Config) (j : WriteJob)

/-- `pageCount` is the rounded-up quotient. -/
theorem pageCount_le_iff (q : Nat) : pageCount c j ≤ q ↔ j.len + j.dest % erasePage c ≤ q * erasePage c := by
  rw [pageCount, ← Nat.add_sub_assoc (erasePage_pos c), ← Nat.ceilDiv_eq_add_pred_div,
    ceilDiv_le_iff_le_mul (erasePage_pos c), Nat.mul_comm]

theorem lt_pageCount_iff (i : Nat) : i < pageCount c j ↔ i * erasePage c < j.len + j.dest % erasePage c := by
  simpa only [Nat.not_le] using not_congr (pageCount_le_iff c j i)

theorem length_pageList : (pageList c j).length = pageCount c j := by simp [pageList]

theorem pageList_pairwise_lt : (pageList c j).Pairwise (fun a b => a < b) := by
  refine List.pairwise_map.mpr (List.pairwise_lt_range.imp fun hlt => ?_)
  exact Nat.add_lt_add_left (Nat.mul_lt_mul_of_pos_right hlt (erasePage_pos c)) _

theorem mem_pageList_iff_exists {p : Nat} : p ∈ pageList c j ↔
    ∃ i, i * erasePage c < j.len + j.dest % erasePage c ∧ erasePage c * (j.dest / erasePage c) + i * erasePage c = p := by
  simp only [pageList, List.mem_map, List.mem_range, lt_pageCount_iff, alignDown_eq_mul_div]

/-- A multiple of E that ends after `dest` lies some `i` pages beyond the page of `dest`, and the count bounds that `i`. -/
theorem mem_pageList_iff {p : Nat} :
    p ∈ pageList c j ↔ p % erasePage c = 0 ∧ j.dest < p + erasePage c ∧ p < j.dest + j.len := by
  have hdest := Nat.div_add_mod j.dest (erasePage c)
  rw [mem_pageList_iff_exists]
  constructor
  · rintro ⟨i, hi, rfl⟩
    have hrest := Nat.mod_lt j.dest (erasePage_pos c)
    exact ⟨by simp, by omega, by omega⟩
  · rintro ⟨haligned, hafter, hbefore⟩
    obtain ⟨k, rfl⟩ := Nat.dvd_of_mod_eq_zero haligned
    have hk : j.dest / erasePage c ≤ k := Nat.le_of_lt_succ (Nat.div_lt_of_lt_mul hafter)
    obtain ⟨i, rfl⟩ := Nat.exists_eq_add_of_le hk
    rw [Nat.mul_add, Nat.mul_comm _ i] at hbefore ⊢
    exact ⟨i, by omega, rfl⟩

end Pages

/-- Settles O45: the pages count on from the page of `dest`, as many as the rounded-up quotient says. -/
theorem pagesCoverTheRange : Obligations.PagesCoverTheRange := by
  intro c j
  refine ⟨fun _ => mem_pageList_iff c j, pageList_pairwise_lt c j, fun q => ?_⟩
  rw [length_pageList]
  exact pageCount_le_iff c j q

end Sys2Proof.Proofs
end

section
/-! Proofs, 30_encoding.md: the descriptor (format H). What the decoder makes of any descriptor, once, with what the encoder
writes for it; and the encoder's words read back field by field. -/

namespace Sys2Proof.Proofs
open Sys2Proof.Machine

/-! ## A word put together from its fields -/

section Join
variable {w : Word} {sel : BitVec 4} (hsel : w.extractLsb' 28 4 = sel)

theorem append_adjacent {n : Nat} (w : BitVec n) (i b a : Nat) :
    w.extractLsb' (i + b) a ++ w.extractLsb' i b = w.extractLsb' i (a + b) :=
  BitVec.extractLsb'_append_extractLsb'_eq_extractLsb' rfl

/-- The argument bits of SEND_CMD, in D1 below its opcode (R85). -/
theorem join_8_24 (d1 d2 : Word) : d1.extractLsb' 24 8 ++ (argsOf d1 d2).extractLsb' 32 24 = d1 := by
  rw [argsOf, BitVec.extractLsb'_append_eq_left]
  exact (append_adjacent d1 0 24 8).trans BitVec.extractLsb'_eq_self

include hsel

theorem join_4_28 {low : BitVec 28} (hlow : w.extractLsb' 0 28 = low) : sel ++ low = w := by
  subst hsel hlow
  exact (append_adjacent w 0 28 4).trans BitVec.extractLsb'_eq_self

theorem join_4_20_8 {mid : BitVec 20} {low : Byte} (hmid : w.extractLsb' 8 20 = mid) (hlow : w.extractLsb' 0 8 = low) :
    sel ++ mid ++ low = w := by
  subst hsel hmid hlow
  exact (congrArg (· ++ _) (append_adjacent w 8 20 4)).trans
    ((append_adjacent w 0 8 24).trans BitVec.extractLsb'_eq_self)

theorem join_4_12_16 {mid : BitVec 12} {low : Half} (hmid : w.extractLsb' 16 12 = mid) (hlow : w.extractLsb' 0 16 = low) :
    sel ++ mid ++ low = w := by
  subst hsel hmid hlow
  exact (congrArg (· ++ _) (append_adjacent w 16 12 4)).trans
    ((append_adjacent w 0 16 16).trans BitVec.extractLsb'_eq_self)

theorem join_4_4_16_8 {top : BitVec 4} {mid : Half} {low : Byte} (htop : w.extractLsb' 24 4 = top)
    (hmid : w.extractLsb' 8 16 = mid) (hlow : w.extractLsb' 0 8 = low) : sel ++ top ++ mid ++ low = w := by
  subst hsel htop hmid hlow
  have hupper : w.extractLsb' 28 4 ++ w.extractLsb' 24 4 ++ w.extractLsb' 8 16 = w.extractLsb' 8 24 :=
    (congrArg (· ++ _) (append_adjacent w 24 4 4)).trans (append_adjacent w 8 16 8)
  exact (congrArg (· ++ _) hupper).trans ((append_adjacent w 0 8 24).trans BitVec.extractLsb'_eq_self)

theorem join_4_27_bit {mid : BitVec 27} (hmid : w.extractLsb' 1 27 = mid) :
    sel ++ mid ++ BitVec.ofBool (w.getLsbD 0) = w := by
  subst hsel hmid
  have hbit : BitVec.ofBool (w.getLsbD 0) = w.extractLsb' 0 1 := by
    ext i hi
    obtain rfl : i = 0 := by omega
    simp
  rw [hbit]
  exact (congrArg (· ++ _) (append_adjacent w 1 27 4)).trans
    ((append_adjacent w 0 1 31).trans BitVec.extractLsb'_eq_self)

/-- The selectors 0xC to 0xF: the two top bits are ones, and the two below are an operand. -/
theorem join_2_2_28 (h : 12 ≤ sel.toNat) : 0x3#2 ++ w.extractLsb' 28 2 ++ w.extractLsb' 0 28 = w := by
  subst hsel
  have htop : w.extractLsb' 30 2 = (w.extractLsb' 28 4).extractLsb' 2 2 := by
    ext i hi
    simp [show 2 + i < 4 by omega, ← Nat.add_assoc]
  have hones : ∀ c : BitVec 4, 12 ≤ c.toNat → c.extractLsb' 2 2 = 3 := by decide
  rw [← show w.extractLsb' 30 2 = 0x3#2 from htop.trans (hones _ h)]
  exact (congrArg (· ++ _) (append_adjacent w 28 2 2)).trans
    ((append_adjacent w 0 28 4).trans BitVec.extractLsb'_eq_self)

end Join

/-! ## The decoder (R81 to R83, R87) -/

theorem opselOf_cases (d : Descriptor) : opselOf d = 0 ∨ opselOf d = 1 ∨ opselOf d = 2 ∨ opselOf d = 3 ∨ opselOf d = 4 ∨
    opselOf d = 5 ∨ opselOf d = 6 ∨ opselOf d = 7 ∨ opselOf d = 8 ∨ opselOf d = 9 ∨ opselOf d = 10 ∨ opselOf d = 11 ∨
    12 ≤ (opselOf d).toNat := by
  generalize opselOf d = sel
  revert sel
  decide

/-- What the decoder can make of a descriptor: a bit that must be zero comes first, then the data stream; else an
instruction for which the encoder writes the descriptor again, but for a stream behind a reserved selector. -/
inductive Decodes (d : Descriptor) : Prop
  | mustBeZero (bit : UnassignedBit d) (decoded : decodeDescriptor d = .rejected .mustBeZero)
  | dataStream (bit : ¬ UnassignedBit d) (decoded : decodeDescriptor d = .rejected .dataStream)
  | operation (bit : ¬ UnassignedBit d) (i : Instr) (decoded : decodeDescriptor d = .ok i)
      (encoded : ∀ x, encode x i = .descriptor d)
  | reserved (bit : ¬ UnassignedBit d) (i : Instr) (decoded : decodeDescriptor d = .ok i)
      (encoded : ∀ x, encode x i = .descriptor { d with src := [] })
      (sel : opselOf d = 0 ∨ 11 ≤ (opselOf d).toNat)

section Decoder
variable {d : Descriptor}

/-- The masks of R83 as the fields that the decoder tests. -/
theorem unassignedBit_iff : UnassignedBit d ↔
    ((opselOf d = 1 ∨ opselOf d = 2) ∧ ¬(d.d0.extractLsb' 0 28 = 0 ∧ d.d3 = 0)) ∨
    (opselOf d = 3 ∧ ¬ d.d0.extractLsb' 8 20 = 0) ∨
    ((opselOf d = 4 ∨ opselOf d = 5 ∨ opselOf d = 7) ∧
      ¬(d.d0.extractLsb' 0 28 = 0 ∧ d.d1 = 0 ∧ d.d2 = 0 ∧ d.d3 = 0)) ∨
    (opselOf d = 6 ∧ ¬(d.d0.extractLsb' 24 4 = 0 ∧ d.d3 = 0)) ∨
    (opselOf d = 8 ∧ ¬(d.d0.extractLsb' 16 12 = 0 ∧ d.d3 = 0)) ∨
    ((opselOf d = 9 ∨ opselOf d = 10) ∧ ¬(d.d0.extractLsb' 1 27 = 0 ∧ d.d3 = 0)) := by
  simp only [UnassignedBit, ne_eq, not_and_or, bits0to27_eq_zero_iff, bits1to27_eq_zero_iff,
    bits8to27_eq_zero_iff, bits16to27_eq_zero_iff, bits24to27_eq_zero_iff]

theorem not_unassignedBit_of_reserved (h : opselOf d = 0 ∨ 11 ≤ (opselOf d).toNat) : ¬ UnassignedBit d := by
  rintro (⟨hsel | hsel, -⟩ | ⟨hsel, -⟩ | ⟨hsel | hsel | hsel, -⟩ | ⟨hsel, -⟩ | ⟨hsel, -⟩ | ⟨hsel | hsel, -⟩) <;>
    simp [hsel] at h

theorem descriptor_eq_of_words {w0 w1 w2 w3 : Word} (h0 : w0 = d.d0) (h1 : w1 = d.d1) (h2 : w2 = d.d2) (h3 : w3 = d.d3)
    (src : List Byte) : Request.descriptor ⟨w0, w1, w2, w3, src⟩ = .descriptor { d with src := src } := by
  rw [h0, h1, h2, h3]

/-- The operations without a data stream: `p` is that every unassigned bit is zero. -/
theorem Decodes.of_withoutData {i : Instr} {p : Prop} [Decidable p]
    (hd : decodeDescriptor d = if p then withoutData d i else .rejected .mustBeZero) (hbit : UnassignedBit d ↔ ¬ p)
    (henc : p → ∀ x, encode x i = .descriptor { d with src := [] }) : Decodes d := by
  by_cases hp : p
  · rw [if_pos hp] at hd
    have hnot : ¬ UnassignedBit d := fun h => hbit.mp h hp
    by_cases hsrc : d.src = []
    · exact .operation hnot i (hd.trans (if_pos hsrc)) fun x => (henc hp x).trans (by rw [← hsrc])
    · exact .dataStream hnot (hd.trans (if_neg hsrc))
  · exact .mustBeZero (hbit.mpr hp) (hd.trans (if_neg hp))

/-- FL_WRITE, the one operation with a data stream. -/
theorem Decodes.of_flWrite (h : opselOf d = 10) : Decodes d := by
  have hd := decodeDescriptor_flWrite h
  by_cases hp : d.d0.extractLsb' 1 27 = 0 ∧ d.d3 = 0
  · have hnot : ¬ UnassignedBit d := by simp [unassignedBit_iff, h, hp]
    rw [if_pos hp] at hd
    by_cases hlen : d.src.length = d.d2.toNat
    · exact .operation hnot _ (hd.trans (if_pos hlen)) fun x =>
        descriptor_eq_of_words (join_4_27_bit h hp.1) rfl rfl hp.2.symm d.src
    · exact .dataStream hnot (hd.trans (if_neg hlen))
  · exact .mustBeZero (by simpa [unassignedBit_iff, h] using hp) (hd.trans (if_neg hp))

theorem decodes (d : Descriptor) : Decodes d := by
  obtain h | h | h | h | h | h | h | h | h | h | h | h | h := opselOf_cases d
  · exact .reserved (not_unassignedBit_of_reserved (.inl h)) _ (decodeDescriptor_reserved0 h)
      (fun _ => descriptor_eq_of_words (join_4_28 h rfl) rfl rfl rfl []) (.inl h)
  · exact .of_withoutData (decodeDescriptor_enc h) (by simp [unassignedBit_iff, h]) fun hp _ =>
      descriptor_eq_of_words (join_4_28 h hp.1) rfl rfl hp.2.symm []
  · exact .of_withoutData (decodeDescriptor_dec h) (by simp [unassignedBit_iff, h]) fun hp _ =>
      descriptor_eq_of_words (join_4_28 h hp.1) rfl rfl hp.2.symm []
  · exact .of_withoutData (decodeDescriptor_ksbuild h) (by simp [unassignedBit_iff, h]) fun hp _ =>
      descriptor_eq_of_words (join_4_20_8 h hp rfl) rfl rfl rfl []
  · exact .of_withoutData (decodeDescriptor_resetLink h) (by simp [unassignedBit_iff, h]) fun ⟨h0, h1, h2, h3⟩ _ =>
      descriptor_eq_of_words (join_4_28 h h0) h1.symm h2.symm h3.symm []
  · exact .of_withoutData (decodeDescriptor_readId h) (by simp [unassignedBit_iff, h]) fun ⟨h0, h1, h2, h3⟩ _ =>
      descriptor_eq_of_words (join_4_28 h h0) h1.symm h2.symm h3.symm []
  · exact .of_withoutData (decodeDescriptor_beginC1 h) (by simp [unassignedBit_iff, h]) fun hp _ =>
      descriptor_eq_of_words (join_4_4_16_8 h hp.1 rfl rfl) rfl rfl hp.2.symm []
  · exact .of_withoutData (decodeDescriptor_beginC2 h) (by simp [unassignedBit_iff, h]) fun ⟨h0, h1, h2, h3⟩ _ =>
      descriptor_eq_of_words (join_4_28 h h0) h1.symm h2.symm h3.symm []
  · exact .of_withoutData (decodeDescriptor_sendCmd h) (by simp [unassignedBit_iff, h]) fun hp _ =>
      descriptor_eq_of_words (join_4_12_16 h hp.1 rfl) (join_8_24 d.d1 d.d2) BitVec.extractLsb'_append_eq_right
        hp.2.symm []
  · exact .of_withoutData (decodeDescriptor_flRead h) (by simp [unassignedBit_iff, h]) fun hp _ =>
      descriptor_eq_of_words (join_4_27_bit h hp.1) rfl rfl hp.2.symm []
  · exact .of_flWrite h
  · have hsel : opselOf d = 0 ∨ 11 ≤ (opselOf d).toNat := .inr (by simp [h])
    exact .reserved (not_unassignedBit_of_reserved hsel) _ (decodeDescriptor_reservedB h)
      (fun _ => descriptor_eq_of_words (join_4_28 h rfl) rfl rfl rfl []) hsel
  · have hsel : opselOf d = 0 ∨ 11 ≤ (opselOf d).toNat := .inr (by omega)
    exact .reserved (not_unassignedBit_of_reserved hsel) _ (decodeDescriptor_reservedCF h)
      (fun _ => descriptor_eq_of_words (join_2_2_28 rfl h) rfl rfl rfl []) hsel

/-- Settles O9: the decoder tests nothing before the unassigned bits. -/
theorem mustBeZeroBitsAreExactlyTheUnassigned : Obligations.MustBeZeroBitsAreExactlyTheUnassigned := by
  intro d
  obtain ⟨hbit, hd⟩ | ⟨hbit, hd⟩ | ⟨hbit, i, hd, -⟩ | ⟨hbit, i, hd, -, -⟩ := decodes d <;> simp [hd, hbit]

/-- Settles O12: only a reserved selector is decoded without its data stream. -/
theorem descriptorDecodeLosesNothing : Obligations.DescriptorDecodeLosesNothing := by
  intro x d i hi
  obtain ⟨-, hd⟩ | ⟨-, hd⟩ | ⟨-, j, hd, henc⟩ | ⟨-, j, hd, henc, hsel⟩ := decodes d <;> cases hd.symm.trans hi
  · exact .inl (henc x)
  · exact .inr ⟨henc x, hsel⟩

end Decoder

/-! ## The encoder's words, field by field -/

/-- Settles O13: the bits of each descriptor, computed. -/
theorem assemblyTableDecodes : Obligations.AssemblyTableDecodes := by
  refine ⟨?_, ?_, ?_, ?_, ?_, ?_, ?_, ?_⟩ <;> decide

theorem extract_second {k m n : Nat} (a : BitVec k) (b : BitVec m) (c : BitVec n) :
    (a ++ b ++ c).extractLsb' n m = b := by
  rw [BitVec.extractLsb'_append_eq_of_le le_rfl, Nat.sub_self, BitVec.extractLsb'_append_eq_right]

theorem extract_second_of_four {k l m n : Nat} (a : BitVec k) (b : BitVec l) (c : BitVec m) (e : BitVec n) :
    (a ++ b ++ c ++ e).extractLsb' (m + n) l = b := by
  rw [BitVec.extractLsb'_append_eq_of_le (Nat.le_add_left n m), Nat.add_sub_cancel, extract_second]

theorem getLsbD_zero_append_ofBool {n : Nat} (a : BitVec n) (b : Bool) : (a ++ BitVec.ofBool b).getLsbD 0 = b := by
  rw [BitVec.getLsbD_append, if_pos Nat.zero_lt_one]
  simp

/-- SEND_CMD's operands from D1 and D2 as the encoder fills them (R85). -/
theorem argsOf_append (op8 : Byte) (args : Args) :
    argsOf (op8 ++ args.extractLsb' 32 24) (args.extractLsb' 0 32) = args := by
  rw [argsOf, BitVec.extractLsb'_append_eq_right]
  exact (append_adjacent args 0 32 24).trans BitVec.extractLsb'_eq_self

theorem decodeDescriptor_of_clear {d : Descriptor} {i j : Instr} {p : Prop} [Decidable p]
    (hd : decodeDescriptor d = if p then withoutData d j else .rejected .mustBeZero) (hp : p) (hsrc : d.src = [])
    (hij : j = i) : decodeDescriptor d = .ok i := by
  rw [hd, if_pos hp, withoutData, if_pos hsrc, hij]

/-- The selector that `Laws.Encoding` gives for an instruction, as the decoder reads it. -/
theorem opselOf_of_statement {i : Instr} (h : Laws.Encoding.Statement i) {x : WireCtx} {d : Descriptor}
    (henc : encode x i = .descriptor d) : some (opselOf d) = Laws.Encoding.opsel i := by
  have hx := h x
  rw [henc] at hx
  exact hx.1.symm

/-- Settles O11: under its own selector each operation's descriptor has clear unassigned bits and its operands in their
fields. -/
theorem descriptorRoundTrip : Obligations.DescriptorRoundTrip := by
  intro x i d hwf henc
  have hsel {o : BitVec 4} (h : Laws.Encoding.Statement i) (ho : Laws.Encoding.opsel i = some o) : opselOf d = o :=
    Option.some.inj ((opselOf_of_statement h henc).trans ho)
  have hlow {n m : Nat} (a : BitVec n) (b : BitVec m) : (a ++ b).extractLsb' 0 m = b := BitVec.extractLsb'_append_eq_right
  cases i with
  | enc io0 io1 =>
    have ho := hsel (Laws.Encoding.enc io0 io1) rfl
    cases henc
    exact decodeDescriptor_of_clear (decodeDescriptor_enc ho) ⟨hlow _ _, rfl⟩ rfl rfl
  | dec io0 io1 =>
    have ho := hsel (Laws.Encoding.dec io0 io1) rfl
    cases henc
    exact decodeDescriptor_of_clear (decodeDescriptor_dec ho) ⟨hlow _ _, rfl⟩ rfl rfl
  | ksbuild seedSel k0 k1 k2 =>
    have ho := hsel (Laws.Encoding.ksbuild seedSel k0 k1 k2) rfl
    cases henc
    exact decodeDescriptor_of_clear (decodeDescriptor_ksbuild ho) (extract_second _ _ _) rfl
      (congrArg (Instr.ksbuild · k0 k1 k2) (hlow _ _))
  | resetLink =>
    have ho := hsel Laws.Encoding.resetLink rfl
    cases henc
    exact decodeDescriptor_of_clear (decodeDescriptor_resetLink ho) ⟨hlow _ _, rfl, rfl, rfl⟩ rfl rfl
  | readId =>
    have ho := hsel Laws.Encoding.readId rfl
    cases henc
    exact decodeDescriptor_of_clear (decodeDescriptor_readId ho) ⟨hlow _ _, rfl, rfl, rfl⟩ rfl rfl
  | beginC1 seedSel ij k l =>
    have ho := hsel (Laws.Encoding.beginC1 seedSel ij k l) rfl
    cases henc
    exact decodeDescriptor_of_clear (decodeDescriptor_beginC1 ho) ⟨extract_second_of_four _ _ l seedSel, rfl⟩ rfl
      (congrArg₂ (Instr.beginC1 · ij k ·) (hlow _ _) (extract_second _ l seedSel))
  | beginC2 =>
    have ho := hsel Laws.Encoding.beginC2 rfl
    cases henc
    exact decodeDescriptor_of_clear (decodeDescriptor_beginC2 ho) ⟨hlow _ _, rfl, rfl, rfl⟩ rfl rfl
  | sendCmd op8 args n =>
    have ho := hsel (Laws.Encoding.sendCmd op8 args n) rfl
    cases henc
    refine decodeDescriptor_of_clear (decodeDescriptor_sendCmd ho) ⟨extract_second _ _ _, rfl⟩ rfl ?_
    exact Instr.sendCmd.injEq .. ▸ ⟨BitVec.extractLsb'_append_eq_left, argsOf_append op8 args, hlow _ _⟩
  | flRead start len progress =>
    have ho := hsel (Laws.Encoding.flRead start len progress) rfl
    cases henc
    exact decodeDescriptor_of_clear (decodeDescriptor_flRead ho) ⟨extract_second _ _ _, rfl⟩ rfl
      (congrArg (Instr.flRead start len) (getLsbD_zero_append_ofBool _ progress))
  | flWrite dest len progress src =>
    have ho := hsel (Laws.Encoding.flWrite dest len progress src) rfl
    have hlen : src.length = len.toNat := by simpa [WellFormed] using hwf
    cases henc
    rw [decodeDescriptor_flWrite ho, if_pos ⟨extract_second _ _ _, rfl⟩, if_pos hlen]
    exact congrArg (fun p => Decoded.ok (.flWrite dest len p src)) (getLsbD_zero_append_ofBool _ progress)
  | reserved0 rest d1 d2 d3 =>
    have ho := hsel (Laws.Encoding.reserved0 rest d1 d2 d3) rfl
    cases henc
    exact (decodeDescriptor_reserved0 ho).trans (congrArg (fun r => Decoded.ok (.reserved0 r d1 d2 d3)) (hlow _ _))
  | reservedB rest d1 d2 d3 =>
    have ho := hsel (Laws.Encoding.reservedB rest d1 d2 d3) rfl
    cases henc
    exact (decodeDescriptor_reservedB ho).trans (congrArg (fun r => Decoded.ok (.reservedB r d1 d2 d3)) (hlow _ _))
  | reservedCF sel rest d1 d2 d3 =>
    have ho := hsel (Laws.Encoding.reservedCF sel rest d1 d2 d3) rfl
    have hall : ∀ b : BitVec 2, 12 ≤ (0x3#2 ++ b).toNat := by decide
    have hge : 12 ≤ (opselOf d).toNat := by
      rw [ho]
      exact hall sel
    cases henc
    exact (decodeDescriptor_reservedCF hge).trans
      (congrArg₂ (fun b r => Decoded.ok (.reservedCF b r d1 d2 d3)) (extract_second _ sel rest) (hlow _ _))
  | dummy | readBlock | chipidRaw | actC1 | c1InitC2 | c1Chipid | c1ActC2 | c2Chipid | hostCmdRaw | hostCmdC1
  | hostCmdC2 => cases henc

end Sys2Proof.Proofs
end

section
/-! Proofs, 30_encoding.md: the command word. The fields of the four frames, and what the decoder makes of a word. -/

namespace Sys2Proof.Proofs
open Sys2Proof.Machine

/-! ## Fields of a frame (R89 to R93) -/

theorem extract_append_high {m n : Nat} (a : BitVec m) (b : BitVec n) (i k : Nat) :
    (a ++ b).extractLsb' (i + n) k = a.extractLsb' i k := by
  rw [BitVec.extractLsb'_append_eq_of_le (Nat.le_add_left n i), Nat.add_sub_cancel]

section RawFields
variable (op8 : Byte) (args : Args)

theorem frameRaw_opcode : (frameRaw op8 args).extractLsb' 56 8 = op8 := BitVec.extractLsb'_append_eq_left
theorem frameRaw_args : (frameRaw op8 args).extractLsb' 0 56 = args := BitVec.extractLsb'_append_eq_right

theorem frameRaw_fields (w : CmdWord) : frameRaw (w.extractLsb' 56 8) (w.extractLsb' 0 56) = w :=
  (append_adjacent w 0 56 8).trans BitVec.extractLsb'_eq_self

end RawFields

/-- Settles O17: both frames are their fields one after the other. -/
theorem rawAndActivateFrameFields : Obligations.RawAndActivateFrameFields := by
  intro op8 args ij k
  refine ⟨frameRaw_opcode op8 args, frameRaw_args op8 args, ?_, ?_, ?_, extract_second _ _ _, ?_⟩
  · refine (extract_append_high _ _ 48 8).trans ((extract_append_high _ _ 28 8).trans ?_)
    exact (extract_append_high _ _ 24 8).trans BitVec.extractLsb'_append_eq_left
  · refine (extract_append_high _ _ 24 24).trans ((extract_append_high _ _ 4 24).trans ?_)
    exact extract_second _ _ _
  · exact (extract_append_high _ _ 20 4).trans (extract_second _ _ _)
  · exact BitVec.extractLsb'_append_eq_right

/-- `x` in a command word, its lowest bit at bit `s`. -/
def fieldAt {m : Nat} (x : BitVec m) (s : Nat) : CmdWord := x.setWidth 64 <<< s

theorem frameC1_eq (op8 : Byte) (l : Half) (ij k : Word) : frameC1 op8 l ij k =
    fieldAt op8 56 ||| fieldAt l 44 ||| fieldAt (ij.extractLsb' 0 24) 20 ||| fieldAt (k.extractLsb' 0 20) 0 := by
  simp only [frameC1, fieldAt, BitVec.shiftLeft_zero]

/-- Bits of a word inside the field. -/
theorem extract_fieldAt {m : Nat} (x : BitVec m) {s i n : Nat} (hlow : s ≤ i) (_hhigh : i + n ≤ s + m) (hword : i + n ≤ 64) :
    (fieldAt x s).extractLsb' i n = x.extractLsb' (i - s) n := by
  ext j hj
  have hlt : i + j < 64 := by omega
  have hge : ¬ i + j < s := by omega
  simp [fieldAt, hlt, hge, Nat.sub_add_comm hlow]

/-- Bits of a word below the field. -/
theorem extract_fieldAt_of_le {m : Nat} (x : BitVec m) {s i n : Nat} (h : i + n ≤ s) :
    (fieldAt x s).extractLsb' i n = 0#n := by
  ext j hj
  simp [fieldAt]
  omega

/-- Bits of a word above the field. -/
theorem extract_fieldAt_of_ge {m : Nat} (x : BitVec m) {s i n : Nat} (h : s + m ≤ i) :
    (fieldAt x s).extractLsb' i n = 0#n := by
  ext j hj
  have hout : x.getLsbD (i + j - s) = false := BitVec.getLsbD_of_ge x _ (by omega)
  simp [fieldAt, hout]

section C1Fields
variable (op8 : Byte) (l : Half) (ij k : Word)

theorem frameC1_opcode_high : (frameC1 op8 l ij k).extractLsb' 60 4 = op8.extractLsb' 4 4 := by
  simp (disch := omega) only [frameC1_eq, BitVec.extractLsb'_or, extract_fieldAt, extract_fieldAt_of_ge, BitVec.or_zero,
    Nat.reduceSub]

theorem frameC1_shared : (frameC1 op8 l ij k).extractLsb' 56 4 = op8.extractLsb' 0 4 ||| l.extractLsb' 12 4 := by
  simp (disch := omega) only [frameC1_eq, BitVec.extractLsb'_or, extract_fieldAt, extract_fieldAt_of_ge, BitVec.or_zero,
    Nat.reduceSub]

theorem frameC1_l_low : (frameC1 op8 l ij k).extractLsb' 44 12 = l.extractLsb' 0 12 := by
  simp (disch := omega) only [frameC1_eq, BitVec.extractLsb'_or, extract_fieldAt, extract_fieldAt_of_le,
    extract_fieldAt_of_ge, BitVec.or_zero, BitVec.zero_or, Nat.reduceSub]

theorem frameC1_ij : (frameC1 op8 l ij k).extractLsb' 20 24 = ij.extractLsb' 0 24 := by
  simp (disch := omega) only [frameC1_eq, BitVec.extractLsb'_or, extract_fieldAt, extract_fieldAt_of_le,
    extract_fieldAt_of_ge, BitVec.or_zero, BitVec.zero_or, Nat.reduceSub, BitVec.extractLsb'_eq_self]

theorem frameC1_counter : (frameC1 op8 l ij k).extractLsb' 0 20 = k.extractLsb' 0 20 := by
  simp (disch := omega) only [frameC1_eq, BitVec.extractLsb'_or, extract_fieldAt, extract_fieldAt_of_le,
    BitVec.zero_or, Nat.reduceSub, BitVec.extractLsb'_eq_self]

/-- The field of `L` is `L`, with the opcode's low nibble on its top nibble (R91). -/
theorem frameC1_l : (frameC1 op8 l ij k).extractLsb' 44 16 =
    (op8.extractLsb' 0 4 ||| l.extractLsb' 12 4) ++ l.extractLsb' 0 12 := by
  rw [← frameC1_shared op8 l ij k, ← frameC1_l_low op8 l ij k]
  exact (append_adjacent _ 44 12 4).symm

theorem half_fields : l.extractLsb' 12 4 ++ l.extractLsb' 0 12 = l :=
  (append_adjacent l 0 12 4).trans BitVec.extractLsb'_eq_self

theorem frameC1_l_of_nibble {op8 : Byte} (hop : op8.extractLsb' 0 4 = 0) :
    (frameC1 op8 l ij k).extractLsb' 44 16 = l := by
  rw [frameC1_l, hop, BitVec.ofNat_eq_ofNat, BitVec.zero_or, half_fields]

end C1Fields

/-- Settles O16: each field of the word is in the fields it was put together from. -/
theorem cipher1FrameFields : Obligations.Cipher1FrameFields := fun op8 l ij k =>
  ⟨frameC1_opcode_high op8 l ij k, frameC1_shared op8 l ij k, frameC1_l_low op8 l ij k, frameC1_ij op8 l ij k,
    frameC1_counter op8 l ij k, frameC1_l_of_nibble l ij k⟩

/-- Settles O18: byte by byte; and the eight bytes cover the word. -/
theorem wireBytesMostSignificantFirst : Obligations.WireBytesMostSignificantFirst := by
  have hbyte : ∀ (w : CmdWord) (k : Fin 8), (toBytes w)[k.val] = w.extractLsb' (56 - 8 * k.val) 8 := by
    intro w k
    fin_cases k <;> rfl
  refine ⟨hbyte, fun v w h => ?_⟩
  ext i hi
  have hsame := (hbyte v ⟨7 - i / 8, by omega⟩).symm.trans (h ▸ hbyte w ⟨7 - i / 8, by omega⟩)
  have hbit := congrArg (fun b => b.getLsbD (i % 8)) hsame
  have hpos : 56 - 8 * (7 - i / 8) + i % 8 = i := by omega
  have hlt : i % 8 < 8 := Nat.mod_lt _ (by decide)
  simpa [hlt, hpos, BitVec.getLsbD_eq_getElem hi] using hbit

/-! ## Frames that are equal -/

theorem frameRaw_inj {a b : Byte} {u v : Args} : frameRaw a u = frameRaw b v ↔ a = b ∧ u = v := by
  refine ⟨fun h => ⟨?_, ?_⟩, fun ⟨ha, hu⟩ => by rw [ha, hu]⟩
  · rw [← frameRaw_opcode a u, h, frameRaw_opcode]
  · rw [← frameRaw_args a u, h, frameRaw_args]

theorem byte_of_nibble {a : Byte} (ha : a.extractLsb' 0 4 = 0) : a.extractLsb' 4 4 ++ 0#4 = a := by
  rw [show 0#4 = a.extractLsb' 0 4 from ha.symm]
  exact (append_adjacent a 0 4 4).trans BitVec.extractLsb'_eq_self

/-- Opcodes with a zero low nibble stand alone in their bits of a Cipher1 frame. -/
theorem opcode_eq_of_frameC1_eq {a b : Byte} (ha : a.extractLsb' 0 4 = 0) (hb : b.extractLsb' 0 4 = 0) {l l' : Half}
    {ij ij' k k' : Word} (h : frameC1 a l ij k = frameC1 b l' ij' k') : a = b := by
  rw [← byte_of_nibble ha, ← frameC1_opcode_high a l ij k, h, frameC1_opcode_high, byte_of_nibble hb]

/-- A Cipher1 frame is put together again from its fields, the opcode read with a zero low nibble. -/
theorem frameC1_fields {w : CmdWord} {ij k : Word} (hij : w.extractLsb' 20 24 = ij.extractLsb' 0 24)
    (hk : w.extractLsb' 0 20 = k.extractLsb' 0 20) :
    frameC1 (w.extractLsb' 60 4 ++ 0#4) (w.extractLsb' 44 16) ij k = w := by
  have join (v : CmdWord) :
      v.extractLsb' 60 4 ++ v.extractLsb' 44 16 ++ v.extractLsb' 20 24 ++ v.extractLsb' 0 20 = v := by
    have hupper := (congrArg (· ++ v.extractLsb' 20 24) (append_adjacent v 44 16 4)).trans (append_adjacent v 20 24 20)
    exact (congrArg (· ++ v.extractLsb' 0 20) hupper).trans
      ((append_adjacent v 0 20 44).trans BitVec.extractLsb'_eq_self)
  have hnibble : (w.extractLsb' 60 4 ++ 0#4).extractLsb' 0 4 = 0 := BitVec.extractLsb'_append_eq_right
  have hhigh : (w.extractLsb' 60 4 ++ 0#4).extractLsb' 4 4 = w.extractLsb' 60 4 := BitVec.extractLsb'_append_eq_left
  rw [← join (frameC1 _ _ ij k), frameC1_opcode_high, frameC1_l_of_nibble _ _ _ hnibble, frameC1_ij, frameC1_counter,
    hhigh, ← hij, ← hk, join]

/-- `L` is zero where its field in the frame is (R91: the opcode can only add bits). -/
theorem l_eq_zero_of_frameC1_l {op8 : Byte} {l : Half} {ij k : Word}
    (h : (frameC1 op8 l ij k).extractLsb' 44 16 = 0) : l = 0 := by
  rw [frameC1_l] at h
  have htop := congrArg (·.extractLsb' 12 4) h
  have hlow := congrArg (·.extractLsb' 0 12) h
  simp only [BitVec.extractLsb'_append_eq_left, BitVec.extractLsb'_append_eq_right] at htop hlow
  have htop' : l.extractLsb' 12 4 = 0 := (BitVec.or_eq_zero_iff.mp htop).2
  rw [← half_fields l, htop', hlow]
  rfl

/-! ## `L` of a Cipher1 SEND_CMD (42_protocol.md R154) -/

theorem extract_setWidth_half (l : Half) : (l.setWidth 56).extractLsb' 0 16 = l := by
  ext i hi
  simp [hi, show i < 56 by omega]

theorem cmdL_setWidth {nonceL l : Half} (h : l = 0 → nonceL = 0) : cmdL nonceL (l.setWidth 56) = l := by
  rw [cmdL, extract_setWidth_half]
  split <;> rename_i hl
  · rw [hl, h hl]
  · rfl

theorem nonceL_eq_zero_of_cmdL {nonceL : Half} {args : Args} (h : cmdL nonceL args = 0) : nonceL = 0 := by
  unfold cmdL at h
  split at h <;> rename_i hargs
  · exact h
  · exact absurd h hargs

/-! ## The decoder of command words -/

/-- Settles O14: the tests of the block's own rows compare the whole word, and the host's rows take every field. -/
theorem wireDecodeIsSound : Obligations.WireDecodeIsSound := by
  rintro x ⟨frame, w, n⟩ i h
  unfold decodeWire at h
  cases frame with
  | raw =>
    dsimp only at h
    split at h
    case isTrue hrow => obtain ⟨rfl, rfl⟩ := hrow; cases h; rfl
    split at h
    case isTrue hrow => obtain ⟨rfl, rfl⟩ := hrow; cases h; rfl
    split at h
    case isTrue hrow => obtain ⟨rfl, rfl⟩ := hrow; cases h; rfl
    cases h
    rw [encode, frameRaw_fields]
  | act =>
    dsimp only at h
    split at h
    case isTrue hrow => obtain ⟨rfl, rfl⟩ := hrow; cases h; rfl
    cases h
  | c1 =>
    dsimp only at h
    split at h
    case isTrue hrow => obtain ⟨rfl, rfl⟩ := hrow; cases h; rfl
    split at h
    case isTrue hrow => obtain ⟨rfl, rfl⟩ := hrow; cases h; rfl
    split at h
    case isTrue hrow => obtain ⟨rfl, rfl⟩ := hrow; cases h; rfl
    split at h
    case isTrue hfields =>
      obtain ⟨hij, hk, hl⟩ := hfields
      cases h
      rw [encode, cmdL_setWidth hl]
      exact congrArg (fun v => Request.wire ⟨.c1, v, n⟩) (frameC1_fields hij hk)
    cases h
  | c2 =>
    dsimp only at h
    split at h
    case isTrue hrow => obtain ⟨rfl, rfl⟩ := hrow; cases h; rfl
    cases h
    rw [encode, frameRaw_fields]

section Accepted
variable (x : WireCtx) (w : CmdWord) (n : Half)

theorem decodeWire_raw_ok : ∃ j, decodeWire x ⟨.raw, w, n⟩ = .ok j := by
  unfold decodeWire
  dsimp only
  split_ifs <;> exact ⟨_, rfl⟩

theorem decodeWire_c2_ok : ∃ j, decodeWire x ⟨.c2, w, n⟩ = .ok j := by
  unfold decodeWire
  dsimp only
  split_ifs <;> exact ⟨_, rfl⟩

theorem decodeWire_c1_ok (op8 : Byte) {l : Half} (hl : l = 0 → x.nonceL = 0) :
    ∃ j, decodeWire x ⟨.c1, frameC1 op8 l x.nonceIj x.nonceCounter, n⟩ = .ok j := by
  unfold decodeWire
  dsimp only
  split_ifs with hinit hchip hact hfields
  · exact ⟨_, rfl⟩
  · exact ⟨_, rfl⟩
  · exact ⟨_, rfl⟩
  · exact ⟨_, rfl⟩
  · exact absurd ⟨frameC1_ij .., frameC1_counter .., fun h => hl (l_eq_zero_of_frameC1_l h)⟩ hfields

end Accepted

/-- Settles O58: a frame of the encoder has the registers' nonce fields, and what is accepted is written again. -/
theorem everyCommandWordDecodes : Obligations.EveryCommandWordDecodes := by
  intro x i y henc
  have haccepted : ∃ j, decodeWire x y = .ok j := by
    cases i with
    | dummy | readBlock | chipidRaw | hostCmdRaw => cases henc; exact decodeWire_raw_ok ..
    | c2Chipid | hostCmdC2 => cases henc; exact decodeWire_c2_ok ..
    | actC1 => cases henc; exact ⟨_, if_pos ⟨rfl, rfl⟩⟩
    | c1InitC2 | c1Chipid | c1ActC2 => cases henc; exact decodeWire_c1_ok _ _ _ id
    | hostCmdC1 op8 args n => cases henc; exact decodeWire_c1_ok _ _ _ nonceL_eq_zero_of_cmdL
    | enc | dec | ksbuild | resetLink | readId | beginC1 | beginC2 | sendCmd | flRead | flWrite | reserved0 | reservedB
    | reservedCF => cases henc
  obtain ⟨j, hj⟩ := haccepted
  exact ⟨j, hj, wireDecodeIsSound x y j hj⟩

/-- Settles O15: a row is reached past the rows before it, whose opcode or response length differs. -/
theorem blockCommandsDecodeToTheirRows : Obligations.BlockCommandsDecodeToTheirRows := by
  intro x hdummyRead hdummyChip hreadChip hinitAct
  have hact : frameC1 x.cfg.opC1ActC2 x.nonceL x.nonceIj x.nonceCounter ≠
      frameC1 x.cfg.opC1InitC2 x.nonceL x.nonceIj x.nonceCounter := fun h =>
    hinitAct (opcode_eq_of_frameC1_eq x.cfg.act_c2_nibble x.cfg.init_c2_nibble h).symm
  refine ⟨?_, ?_, ?_, ?_, ?_, ?_, ?_, ?_⟩
  · simp [decode, encode, decodeWire]
  · simp [decode, encode, decodeWire, frameRaw_inj, hdummyRead.symm]
  · simp [decode, encode, decodeWire, frameRaw_inj, hdummyChip.symm, hreadChip.symm]
  · simp [decode, encode, decodeWire]
  · simp [decode, encode, decodeWire]
  · simp [decode, encode, decodeWire]
  · simp [decode, encode, decodeWire, hact]
  · simp [decode, encode, decodeWire]

/-- Settles O59: with an opcode of its own the word is none of the block's rows, and its fields are the operands. -/
theorem hostCommandsDecodeToTheirRows : Obligations.HostCommandsDecodeToTheirRows := by
  intro x op8 args n
  refine ⟨fun hdummy hread hchip => ?_, fun hchip => ?_, fun hinit hchip hact hop L hL hargs => ?_⟩
  · simp [decode, encode, decodeWire, frameRaw_inj, frameRaw_opcode, frameRaw_args, hdummy, hread, hchip]
  · simp [decode, encode, decodeWire, frameRaw_inj, frameRaw_opcode, frameRaw_args, hchip]
  · have hcmdL : cmdL x.nonceL args = L := hargs ▸ cmdL_setWidth fun h => absurd h hL
    have hne {b : Byte} (hb : b.extractLsb' 0 4 = 0) (h : op8 ≠ b) (l : Half) :
        frameC1 op8 L x.nonceIj x.nonceCounter ≠ frameC1 b l x.nonceIj x.nonceCounter :=
      fun heq => h (opcode_eq_of_frameC1_eq hop hb heq)
    have hl := frameC1_l_of_nibble L x.nonceIj x.nonceCounter hop
    simp only [decode, encode, decodeWire, hcmdL, hne x.cfg.init_c2_nibble hinit, hne x.cfg.chipid_c1_nibble hchip,
      hne x.cfg.act_c2_nibble hact, false_and, if_false]
    rw [if_pos ⟨frameC1_ij .., frameC1_counter .., fun h => absurd (hl.symm.trans h) hL⟩, frameC1_opcode_high, hl,
      ← hargs]
    exact congrArg (fun b => Decoded.ok (.hostCmdC1 b args n)) (byte_of_nibble hop)

end Sys2Proof.Proofs
end

section
/-! Proofs, 60_exceptions.md: the history of FL_READ and of FL_WRITE, once for every exit, with the code that goes with
it; and from that, for every instruction, what it issues and where it stops (R193). -/

namespace Sys2Proof.Proofs
open Sys2Proof.Machine

/-! ## A code and the history it belongs to -/

theorem stopsAtFailure_append {as bs : List Event} (has : ∀ e ∈ as, e.reply ≠ .fail) (hbs : StopsAtFailure bs) :
    StopsAtFailure (as ++ bs) := by
  induction as with
  | nil => exact hbs
  | cons e as ih =>
    exact .cons (has e List.mem_cons_self) (ih fun x hx => has x (List.mem_cons_of_mem _ hx))

/-- `code` says how `evs` ended: no transaction failed, or the last one alone did and `code` names its primitive. -/
def Explains (code : ResultCode) (evs : List Event) : Prop :=
  ((code = .ok ∨ code = .errVerify ∨ code = .errRange) ∧ ∀ e ∈ evs, e.reply ≠ .fail) ∨ Failed code evs

theorem Explains.stopsAtFailure {code : ResultCode} {evs : List Event} (h : Explains code evs) : StopsAtFailure evs := by
  obtain ⟨-, hok⟩ | ⟨good, bad, rfl, -, hgood, -⟩ := h
  · simpa using stopsAtFailure_append hok .nil
  · exact stopsAtFailure_append hgood (.singleton bad)

/-! ## FL_READ and FL_WRITE -/

/-- FL_READ is a run on port F along its plan, and the record. -/
theorem flRead_run (start len : Word) (progress : Bool) (s : State) :
    ∃ (r : Result) (u : State) (evs : List Event), flRead start len progress s = finish r u ∧ FRun s u evs ∧
      u.env.flash = s.env.flash ∧ Explains r.code evs ∧
      evs.map (·.txn) <+: (readPlan s.cfg start.toNat len.toNat progress).map blkTxn := by
  by_cases hrange : start.toNat + len.toNat ≤ ADDR_SPACE
  · obtain ⟨evs, hrun, hflash, hend⟩ := readRange_cases start.toNat len.toNat progress s
    refine ⟨_, _, evs, flRead_eq start len progress s hrange, hrun, hflash, ?_⟩
    obtain ⟨hout, hread, -⟩ | ⟨good, bad, hevs, hbad, hgood, htxns, -, hout, -⟩ := hend
    · exact ⟨.inl ⟨.inl (by simp [hout]), hread.2.1⟩, by rw [hread.1]⟩
    · have hprefix : evs.map (·.txn) <+: (readPlan s.cfg start.toNat len.toNat progress).map blkTxn := by
        rw [htxns]
        exact (List.take_prefix _ _).map _
      obtain ⟨b, -, hb⟩ := List.mem_map.mp (hprefix.subset (a := bad.txn) (by simp [hevs]))
      exact ⟨.inr ⟨good, bad, hevs, hbad, hgood, by simp [hout, ← hb, blkTxn, primCode]⟩, hprefix⟩
  · refine ⟨_, s, [], flRead_range start len progress s (Nat.lt_of_not_le hrange), .refl s, rfl, ?_, by simp⟩
    exact .inl ⟨.inr (.inr rfl), by simp⟩

/-- `evs` is what FL_WRITE may issue for the job `j`, failed or not: for its first pages what a turn of the loop may issue,
and then reads of the verification (43_flash.md R176, R177). -/
def WriteShape (c : Config) (j : WriteJob) (evs : List Event) : Prop :=
  ∃ (hist : List (List Event)) (ver : List Event), evs = hist.flatten ++ ver ∧ hist.length ≤ (pageList c j).length ∧
    (∀ (i p : Nat) (es : List Event), (pageList c j)[i]? = some p → hist[i]? = some es → PageShape c j p es) ∧
    ver.map (·.txn) <+: (verifyPlan c j).map blkTxn

/-- Between `s` and `t` the canonical form stayed, and every byte of the ideal flash outside the pages of the job. -/
def PagesOnly (j : WriteJob) (s t : State) : Prop :=
  s.env.flash.wf → t.env.flash.wf ∧ ∀ a, (∀ p ∈ pageList s.cfg j, ¬(p ≤ a ∧ a < p + erasePage s.cfg)) →
    flashByte t.env.flash a = flashByte s.env.flash a

/-- FL_WRITE is a run on port F in the shape of its job, and a plain record. -/
theorem flWrite_run (dest len : Word) (src : List Byte) (s : State) :
    ∃ (code : ResultCode) (u : State) (evs : List Event), flWrite dest len src s = finish (plainResult code) u ∧
      FRun s u evs ∧ PagesOnly (jobOf dest len src) s u ∧ Explains code evs ∧
      WriteShape s.cfg (jobOf dest len src) evs := by
  by_cases hrange : dest.toNat + len.toNat ≤ ADDR_SPACE
  · obtain ⟨hist, ver, hrun, hlen, hpages, hver, hend⟩ := runJob_cases (jobOf dest len src) s
    obtain ⟨code, heq, hcode⟩ := flWrite_cases dest len src s hrange
    refine ⟨code, _, _, heq, hrun, runJob_flash _ s, ?_, hist, ver, rfl, hlen, hpages, hver⟩
    obtain ⟨hnone, -, -, -, hok⟩ | ⟨hverify, hok⟩ | ⟨code', hcode', hfailed⟩ := hend
    · obtain ⟨-, rfl⟩ | hsome := hcode
      · exact .inl ⟨.inl rfl, hok⟩
      · simp [hnone] at hsome
    · obtain ⟨hnone, -⟩ | hsome := hcode
      · simp [hnone] at hverify
      · exact .inl ⟨.inr (.inl (Option.some.inj (hsome.symm.trans hverify))), hok⟩
    · obtain ⟨hnone, -⟩ | hsome := hcode
      · simp [hnone] at hcode'
      · exact .inr (Option.some.inj (hcode'.symm.trans hsome) ▸ hfailed)
  · refine ⟨_, s, [], flWrite_range dest len src s (Nat.lt_of_not_le hrange), .refl s,
      fun hwf => ⟨hwf, fun _ _ => rfl⟩, ?_, [], [], ?_⟩
    · exact .inl ⟨.inr (.inr rfl), by simp⟩
    · simp

/-! ## How many transactions (R237) -/

theorem length_readPlan_le (c : Config) (start len : Nat) (progress : Bool) :
    (readPlan c start len progress).length ≤ 1 + len / chunk c := by
  unfold readPlan slowBlocks
  split
  · simp
  · rw [List.length_append, List.length_map, List.length_range]
    split <;> simp [Nat.add_comm]

theorem length_le_of_reads {evs : List Event} {plan : List ReadBlk} (h : evs.map (·.txn) <+: plan.map blkTxn) :
    evs.length ≤ plan.length := by
  simpa using h.length_le

theorem length_verifyPlan_le (c : Config) (j : WriteJob) :
    (verifyPlan c j).length ≤ 2 * (1 + j.len / chunk c) := by
  have hedge : edgeLen j / chunk c ≤ j.len / chunk c := Nat.div_le_div_right (Nat.min_le_right _ _)
  have hread (start len : Nat) := length_readPlan_le c start len false
  unfold verifyPlan
  split
  · simp
  · split
    · have := hread j.dest j.len
      omega
    · have hfirst := hread j.dest (edgeLen j)
      have hlast := hread (j.stop - edgeLen j) (edgeLen j)
      rw [List.length_append]
      omega

/-- One turn of the page loop: the blocks of one read, one erase, and E / W writes. -/
theorem length_le_of_pageShape {c : Config} {j : WriteJob} {p : Nat} {evs : List Event} (h : PageShape c j p evs) :
    evs.length ≤ 2 + erasePage c / chunk c + erasePage c / writePage c := by
  obtain ⟨pb, rs, ws, rfl, hreads, hwrites, -⟩ := h
  have hrs := (length_le_of_reads hreads).trans (length_readPlan_le c p (erasePage c) false)
  have hws := hwrites.length_le
  simp only [rewriteTxns, List.length_cons, List.length_map, List.length_range] at hws
  rw [List.length_append]
  omega

/-- Each turn of the page loop is a turn for a page of the range. -/
theorem exists_page_of_mem {c : Config} {j : WriteJob} {hist : List (List Event)} {es : List Event}
    (hlen : hist.length ≤ (pageList c j).length)
    (hpages : ∀ (i p : Nat) (es : List Event), (pageList c j)[i]? = some p → hist[i]? = some es → PageShape c j p es)
    (hes : es ∈ hist) : ∃ p ∈ pageList c j, PageShape c j p es := by
  obtain ⟨i, hi, rfl⟩ := List.mem_iff_getElem.mp hes
  have hi' : i < (pageList c j).length := by omega
  exact ⟨_, List.getElem_mem hi', hpages i _ _ (List.getElem?_eq_getElem hi') (List.getElem?_eq_getElem hi)⟩

theorem WriteShape.length_le {c : Config} {j : WriteJob} {evs : List Event} (h : WriteShape c j evs) :
    evs.length ≤ (pageList c j).length * (2 + erasePage c / chunk c + erasePage c / writePage c) +
      2 * (1 + j.len / chunk c) := by
  obtain ⟨hist, ver, rfl, hlen, hpages, hver⟩ := h
  have hturns : hist.flatten.length ≤ hist.length * (2 + erasePage c / chunk c + erasePage c / writePage c) := by
    rw [List.length_flatten, ← smul_eq_mul, ← List.length_map (f := List.length)]
    refine List.sum_le_card_nsmul _ _ fun n hn => ?_
    obtain ⟨es, hes, rfl⟩ := List.mem_map.mp hn
    obtain ⟨p, -, hshape⟩ := exists_page_of_mem hlen hpages hes
    exact length_le_of_pageShape hshape
  have hall := hturns.trans (Nat.mul_le_mul_right _ hlen)
  have hverify := (length_le_of_reads hver).trans (length_verifyPlan_le c j)
  rw [List.length_append]
  omega

/-- The account of R237: how many transactions one run of the instruction may issue. -/
def TxnCount (c : Config) (i : Instr) (n : Nat) : Prop :=
  match i with
  | .enc _ _ | .dec _ _ | .ksbuild _ _ _ _ => n = 0
  | .reserved0 _ _ _ _ | .reservedB _ _ _ _ | .reservedCF _ _ _ _ _ => n = 0
  | .resetLink | .readId | .beginC2 => n ≤ 2
  | .beginC1 _ _ _ _ => n ≤ 4
  | .flRead _ len _ => n ≤ 1 + len.toNat / chunk c
  | .flWrite dest len _ src =>
    n ≤ (pageList c (jobOf dest len src)).length * (2 + erasePage c / chunk c + erasePage c / writePage c) +
      2 * (1 + len.toNat / chunk c)
  | .sendCmd _ _ _ => n = 1
  | .dummy | .readBlock | .chipidRaw | .actC1 | .c1InitC2 | .c1Chipid | .c1ActC2 | .c2Chipid => n = 1
  | .hostCmdRaw _ _ _ | .hostCmdC1 _ _ _ | .hostCmdC2 _ _ _ => n = 1

/-- SEND_CMD is one transaction whatever the answer: the record comes after it. -/
theorem sendCmd_one (op8 : Byte) (args : Args) (n : Half) (s : State) :
    OneSend s ((sendByStatus op8 args n s).1, sendCmd op8 args n s) := by
  obtain ⟨x, hrun⟩ := sendByStatus_one op8 args n s
  refine ⟨x, ?_⟩
  rw [Host.Outcome.next.inj (exec_sendCmd_eq op8 args n s)]
  exact hrun.write rfl rfl rfl rfl

/-! ## Every instruction -/

theorem ksbuild_run (sel : Byte) (k : Key) (s : State) : LinkRun 0 s (ksbuild sel k s) := by
  unfold ksbuild
  split
  · exact LinkRun.none 0 rfl rfl rfl rfl
  · split
    · rw [returnOk_eq, ksApply_eq, ksLoad_eq]
      exact LinkRun.none 0 rfl rfl rfl rfl
    · exact LinkRun.none 0 rfl rfl rfl rfl
    · exact LinkRun.none 0 rfl rfl rfl rfl

theorem exists_run_of_oneSend {s : State} {r : Reply × State} (h : OneSend s r) :
    ∃ evs, TRun s r.2 evs ∧ evs.length = 1 ∧ StopsAtFailure evs := by
  obtain ⟨x, hrun⟩ := h
  exact ⟨_, hrun, rfl, .singleton _⟩

/-- Every instruction but FL_READ and FL_WRITE uses port T alone, as often as its account allows, and stops at the first
failure. -/
theorem exec_port_cases {i : Instr} {s t : State} (h : exec i s = .next t) :
    (∃ evs, TRun s t evs ∧ TxnCount s.cfg i evs.length ∧ StopsAtFailure evs) ∨
    (∃ start len progress, i = .flRead start len progress ∧ t = flRead start len progress s) ∨
    ∃ dest len progress src, i = .flWrite dest len progress src ∧ t = flWrite dest len src s := by
  cases i with
  | flRead start len progress => cases h; exact .inr (.inl ⟨start, len, progress, rfl, rfl⟩)
  | flWrite dest len progress src => cases h; exact .inr (.inr ⟨dest, len, progress, src, rfl, rfl⟩)
  | enc | dec | reserved0 | reservedB | reservedCF => cases h; exact .inl ⟨[], .refl rfl rfl rfl rfl, rfl, .nil⟩
  | ksbuild sel a b c =>
    cases h
    obtain ⟨evs, hrun, hlen, hstops⟩ := ksbuild_run sel ⟨a, b, c⟩ s
    exact .inl ⟨evs, hrun, Nat.le_zero.mp hlen, hstops⟩
  | resetLink => cases h; exact .inl (resetLink_run s)
  | readId => cases h; exact .inl (readId_run s)
  | beginC1 sel ij k l => cases h; exact .inl (beginC1_run sel ij k l s)
  | beginC2 => cases h; exact .inl (beginC2_run s)
  | sendCmd op8 args n => cases h; exact .inl (exists_run_of_oneSend (sendCmd_one op8 args n s))
  | dummy | readBlock | chipidRaw | c2Chipid | hostCmdRaw | hostCmdC2 =>
    cases h; exact .inl (exists_run_of_oneSend (sendRaw_one _ _ _ _ s))
  | actC1 => cases h; exact .inl (exists_run_of_oneSend (sendAct_one s))
  | c1InitC2 | c1Chipid | c1ActC2 | hostCmdC1 => cases h; exact .inl (exists_run_of_oneSend (c1Cmd_one _ _ _ s))

/-- From `s` to `t` one instruction ran: the parameters and the requests stayed, and the history grew by `evs`, of which
only the last may have failed. -/
structure OpRun (s t : State) (evs : List Event) : Prop where
  cfg : t.cfg = s.cfg
  requests : t.requests = s.requests
  trace : t.trace = s.trace ++ evs
  stops : StopsAtFailure evs

theorem OpRun.of_fRun {s u : State} {evs : List Event} {r : Result} (hrun : FRun s u evs) (h : Explains r.code evs) :
    OpRun s (finish r u) evs :=
  ⟨hrun.cfg, hrun.requests, hrun.trace, h.stopsAtFailure⟩

/-- What every instruction does, with the number of its transactions: a failure is the last one (R193, R237). -/
theorem exec_opRun {i : Instr} {s t : State} (h : exec i s = .next t) :
    ∃ evs, OpRun s t evs ∧ TxnCount s.cfg i evs.length := by
  obtain ⟨evs, hrun, hcount, hstops⟩ | ⟨start, len, progress, rfl, rfl⟩ | ⟨dest, len, progress, src, rfl, rfl⟩ :=
    exec_port_cases h
  · exact ⟨evs, ⟨hrun.cfg, hrun.requests, hrun.trace, hstops⟩, hcount⟩
  · obtain ⟨r, u, evs, heq, hrun, -, hcode, htxns⟩ := flRead_run start len progress s
    exact ⟨evs, heq ▸ .of_fRun hrun hcode, (length_le_of_reads htxns).trans (length_readPlan_le _ _ _ _)⟩
  · obtain ⟨code, u, evs, heq, hrun, -, hcode, hshape⟩ := flWrite_run dest len src s
    exact ⟨evs, heq ▸ .of_fRun hrun hcode, hshape.length_le⟩

/-- Settles O54: what every instruction adds to the history stops at its first failure. -/
theorem failureEndsTheOperation : Obligations.FailureEndsTheOperation := by
  intro i s t h
  obtain ⟨evs, hrun, -⟩ := exec_opRun h
  exact ⟨evs, hrun.trace, hrun.stops⟩

/-- Settles O55: the account of `exec_opRun`. -/
theorem transactionBounds : Obligations.TransactionBounds := by
  intro i s t h
  obtain ⟨evs, hrun, hcount⟩ := exec_opRun h
  exact ⟨evs, hrun.trace, by cases i <;> exact hcount⟩

end Sys2Proof.Proofs
end

section
/-! Proofs, 20_memory.md and 10_state.md: one step of the block, and what every step keeps: the parameters, the canonical
flash, and the form of every transaction. -/

namespace Sys2Proof.Proofs
open Sys2Proof.Machine

/-! ## Reset -/

/-- Settles O1: `State.resetWith` has no request, so its step waits. -/
theorem resetIsRawAndIdle : Obligations.ResetIsRawAndIdle := fun _ => ⟨rfl, rfl, rfl, rfl, rfl, rfl⟩

theorem inv_resetWith (c : Config) : Inv (State.resetWith c) :=
  ⟨⟨⟨.nil, by simp [State.resetWith]⟩, by simp [State.resetWith]⟩, by simp [State.resetWith]⟩

/-- Settles O2: after reset the flash lists nothing and the history is empty. -/
theorem resetMeetsInv : Obligations.ResetMeetsInv := ⟨inv_resetWith _, inv_resetWith⟩

/-! ## One step (R62, R66) -/

theorem step_of_decode {s : State} {r : Request} {rest : List Request} {i : Instr} (hreq : s.requests = r :: rest)
    (hd : decode (wireCtx s) r = .ok i) : step s = exec i { s with requests := rest } := by
  have hd' : decode (wireCtx { s with requests := rest }) r = .ok i := hd
  simp only [step, fetch, hreq, hd']

/-- Settles O7: taking a request leaves the registers that the decoder reads. -/
theorem stepRunsDecodedInstruction : Obligations.StepRunsDecodedInstruction := fun _ _ _ _ => step_of_decode

/-- A step that answers a state waits, or takes the first request and runs it or finds it illegal. -/
theorem step_cases {s t : State} (h : step s = .next t) :
    t = s ∨ ∃ r rest, s.requests = r :: rest ∧
      ((∃ i, decode (wireCtx s) r = .ok i ∧ exec i { s with requests := rest } = .next t) ∨
        t = raiseCode .errIllegal { s with requests := rest }) := by
  cases hreq : s.requests with
  | nil =>
    simp only [step, fetch, hreq] at h
    cases h
    exact .inl rfl
  | cons r rest =>
    refine .inr ⟨r, rest, rfl, ?_⟩
    cases hd : decode (wireCtx s) r with
    | ok i => exact .inl ⟨i, rfl, (step_of_decode hreq hd).symm.trans h⟩
    | rejected why =>
      have hd' : decode (wireCtx { s with requests := rest }) r = .rejected why := hd
      simp only [step, fetch, hreq, hd'] at h
      cases why <;> cases h
      exact .inr rfl

/-- Settles O4: no instruction writes the parameters. -/
theorem stepKeepsConfig : Obligations.StepKeepsConfig := by
  intro s t h
  obtain rfl | ⟨r, rest, -, ⟨i, -, hexec⟩ | rfl⟩ := step_cases h
  · rfl
  · obtain ⟨evs, hrun, -⟩ := exec_opRun hexec
    exact hrun.cfg
  · rfl

theorem exec_eq_next (i : Instr) (s : State) : ∃ t, exec i s = .next t := by
  cases i <;> exact ⟨_, rfl⟩

/-- Settles O10: a descriptor of the host decodes or has an unassigned bit, and every instruction answers a state. -/
theorem nothingIsFatal : Obligations.NothingIsFatal := by
  have hexec (i : Instr) (s : State) : ∃ t, exec i s = .next t ∧ t.requests = s.requests := by
    obtain ⟨t, ht⟩ := exec_eq_next i s
    obtain ⟨evs, hrun, -⟩ := exec_opRun ht
    exact ⟨t, ht, hrun.requests⟩
  refine ⟨fun s hmoves => ?_, hexec⟩
  cases hreq : s.requests with
  | nil => exact ⟨s, by simp only [step, fetch, hreq], by simp [hreq]⟩
  | cons r rest =>
    rw [hreq] at hmoves
    have hrest : ∀ q ∈ rest, HostMove q := fun q hq => hmoves q (List.mem_cons_of_mem _ hq)
    have hrun {i : Instr} (hd : decode (wireCtx s) r = .ok i) : ∃ t, step s = .next t ∧ ∀ q ∈ t.requests, HostMove q := by
      obtain ⟨t, ht, hrequests⟩ := hexec i { s with requests := rest }
      exact ⟨t, (step_of_decode hreq hd).trans ht, hrequests ▸ hrest⟩
    have hmove := hmoves r List.mem_cons_self
    cases r with
    | wire y => exact absurd hmove id
    | descriptor d =>
      obtain ⟨-, hd⟩ | ⟨-, hd⟩ | ⟨-, i, hd, -⟩ | ⟨-, i, hd, -, -⟩ := decodes d
      · exact ⟨_, step_of_decodeDescriptor_rejected hreq hd, hrest⟩
      · exact absurd hd hmove
      · exact hrun hd
      · exact hrun hd

/-! ## The invariant -/

theorem inv_of_tRun {s t : State} {evs : List Event} (hrun : TRun s t evs) (hinv : Inv s) : Inv t := by
  obtain ⟨hflash, hevents⟩ := hinv
  refine ⟨by rw [hrun.env]; exact hflash, ?_⟩
  rw [hrun.trace, hrun.cfg]
  exact fun e he => (List.mem_append.mp he).elim (hevents e) (hrun.events _ e)

/-- Where a transaction of port F may lie (R59, 43_flash.md R182). -/
def Placed (c : Config) : FTxn → Prop
  | .memRead a _ => a < ADDR_SPACE
  | .memErase a => a % erasePage c = 0 ∧ a < ADDR_SPACE
  | .memWrite a n v => a % writePage c = 0 ∧ a < ADDR_SPACE ∧ n = writePage c ∧ v.length = writePage c

theorem eventOk_of_placed {c : Config} {e : Event} (he : fEvent e) (h : ∀ x, e.txn = .f x → Placed c x) : eventOk c e := by
  obtain ⟨txn, reply⟩ := e
  cases txn with
  | t x => exact absurd he id
  | f x =>
    have hx := h x rfl
    cases x with
    | memRead a n => exact ⟨hx, he⟩
    | memErase a => exact ⟨hx.1, hx.2, he⟩
    | memWrite a n v => exact ⟨hx.1, hx.2.1, hx.2.2.1, hx.2.2.2, he⟩

theorem inv_of_fRun {s u : State} {evs : List Event} (hrun : FRun s u evs) (hinv : Inv s) (hflash : FlashInv u.env.flash)
    (hplaced : ∀ e ∈ evs, ∀ x, e.txn = .f x → Placed s.cfg x) (r : Result) : Inv (finish r u) := by
  refine ⟨hflash, ?_⟩
  rw [finish_trace, finish_cfg, hrun.trace, hrun.cfg]
  exact fun e he => (List.mem_append.mp he).elim (hinv.2 e) fun h => eventOk_of_placed (hrun.events e h) (hplaced e h)

theorem placed_of_reads {c : Config} {plan : List ReadBlk} {evs : List Event}
    (htxns : evs.map (·.txn) <+: plan.map blkTxn) (hplan : ∀ b ∈ plan, b.addr < ADDR_SPACE) :
    ∀ e ∈ evs, ∀ x, e.txn = .f x → Placed c x := by
  intro e he x hx
  obtain ⟨b, hb, hbe⟩ := List.mem_map.mp (htxns.subset (List.mem_map_of_mem he))
  cases hbe.trans hx
  exact hplan b hb

theorem addr_lt_of_mem_readPlan {c : Config} {start len : Nat} {progress : Bool} (hstart : start < ADDR_SPACE)
    (hend : start + len ≤ ADDR_SPACE) : ∀ b ∈ readPlan c start len progress, b.addr < ADDR_SPACE := by
  intro b hb
  obtain ⟨-, hkeep, -, -, hpos⟩ := mem_readPlan hb
  omega

theorem addr_lt_of_mem_verifyPlan {c : Config} {j : WriteJob} (hdest : j.dest < ADDR_SPACE)
    (hend : j.dest + j.len ≤ ADDR_SPACE) : ∀ b ∈ verifyPlan c j, b.addr < ADDR_SPACE := by
  intro b hb
  have hedge : edgeLen j = min 4 j.len := rfl
  have hstop : j.stop = j.dest + j.len := rfl
  unfold verifyPlan at hb
  split at hb
  · simp at hb
  · split at hb
    · exact addr_lt_of_mem_readPlan hdest hend b hb
    · obtain hb | hb := List.mem_append.mp hb
      · exact addr_lt_of_mem_readPlan hdest (by omega) b hb
      · exact addr_lt_of_mem_readPlan (by omega) (by omega) b hb

/-- A page of a range inside the address space lies inside it, since E divides 2^32. -/
theorem pageList_end_le {c : Config} {j : WriteJob} (hstop : j.dest + j.len ≤ ADDR_SPACE) {p : Nat}
    (hp : p ∈ pageList c j) : p + erasePage c ≤ ADDR_SPACE := by
  obtain ⟨haligned, -, hbefore⟩ := (mem_pageList_iff c j).mp hp
  obtain ⟨k, rfl⟩ := Nat.dvd_of_mod_eq_zero haligned
  obtain ⟨m, hm⟩ : erasePage c ∣ ADDR_SPACE := Nat.pow_dvd_pow 2 c.ep.isLt.le
  rw [hm] at hstop ⊢
  have hk : k < m := Nat.lt_of_mul_lt_mul_left (hbefore.trans_le hstop)
  rw [← Nat.mul_succ]
  exact Nat.mul_le_mul_left _ hk

theorem length_subPage {c : Config} {nb : List Byte} (hnb : nb.length = erasePage c) {k : Nat}
    (hk : k < erasePage c / writePage c) : (subPage c nb k).length = writePage c := by
  have := subPage_end hk
  rw [subPage, List.length_take, List.length_drop, hnb]
  omega

/-- The erase and the writes of a page are placed where the page is. -/
theorem placed_of_rewriteTxns {c : Config} {p : Nat} {nb : List Byte} (haligned : p % erasePage c = 0)
    (hend : p + erasePage c ≤ ADDR_SPACE) (hnb : nb.length = erasePage c) {x : FTxn}
    (hx : Txn.f x ∈ rewriteTxns c p nb) : Placed c x := by
  have hpage := erasePage_pos c
  obtain heq | hwrite := List.mem_cons.mp hx
  · cases heq
    exact ⟨haligned, by omega⟩
  · obtain ⟨k, hk, heq⟩ := List.mem_map.mp hwrite
    have hk := List.mem_range.mp hk
    have hsub := subPage_end hk
    have hwpos := writePage_pos c
    cases heq
    refine ⟨?_, by omega, rfl, length_subPage hnb hk⟩
    rw [Nat.add_mul_mod_self_right]
    exact Nat.mod_eq_zero_of_dvd ((writePage_dvd_erasePage c).trans (Nat.dvd_of_mod_eq_zero haligned))

/-- All that FL_WRITE may issue for a well-formed job inside the address space is placed. -/
theorem placed_of_writeShape {c : Config} {j : WriteJob} {evs : List Event} (h : WriteShape c j evs)
    (hsrc : j.src.length = j.len) (hdest : j.dest < ADDR_SPACE) (hstop : j.dest + j.len ≤ ADDR_SPACE) :
    ∀ e ∈ evs, ∀ x, e.txn = .f x → Placed c x := by
  obtain ⟨hist, ver, rfl, hlen, hpages, hver⟩ := h
  intro e he x hx
  obtain he | he := List.mem_append.mp he
  · obtain ⟨es, hes, he⟩ := List.mem_flatten.mp he
    obtain ⟨p, hp, pb, rs, ws, rfl, hreads, hwrites, hpb⟩ := exists_page_of_mem hlen hpages hes
    obtain ⟨haligned, hafter, hbefore⟩ := (mem_pageList_iff c j).mp hp
    have hend := pageList_end_le hstop hp
    obtain he | he := List.mem_append.mp he
    · exact placed_of_reads hreads (addr_lt_of_mem_readPlan (by omega) hend) e he x hx
    · refine placed_of_rewriteTxns haligned hend (length_splice c j p pb hpb hsrc hafter.le hbefore.le) ?_
      exact hx ▸ hwrites.subset (List.mem_map_of_mem he)
  · exact placed_of_reads hver (addr_lt_of_mem_verifyPlan hdest hstop) e he x hx

theorem flashByte_of_not_listed {m : Memory} {a : Nat} (h : ∀ cell ∈ m, cell.1 ≠ a) : flashByte m a = erasedByte := by
  induction m with
  | nil => rfl
  | cons d m ih =>
    rw [flashByte, if_neg (h d List.mem_cons_self)]
    exact ih fun cell hcell => h cell (List.mem_cons_of_mem _ hcell)

theorem flashByte_of_mem {m : Memory} (hwf : m.wf) {cell : Host.Cell} (hcell : cell ∈ m) : flashByte m cell.1 = cell.2 := by
  induction m with
  | nil => simp at hcell
  | cons d m ih =>
    obtain ⟨hsorted, hlisted⟩ := hwf
    obtain ⟨hd, hsorted⟩ := List.pairwise_cons.mp hsorted
    rw [flashByte]
    obtain rfl | hcell := List.mem_cons.mp hcell
    · exact if_pos rfl
    · rw [if_neg (hd _ hcell).ne]
      exact ih ⟨hsorted, fun e he => hlisted e (List.mem_cons_of_mem _ he)⟩ hcell

/-- A canonical flash lists no address beyond the space when all of those read as erased. -/
theorem flashInv_of_flashByte {m : Memory} (hwf : m.wf) (h : ∀ a, ADDR_SPACE ≤ a → flashByte m a = erasedByte) :
    FlashInv m := by
  refine ⟨hwf, fun cell hcell => Nat.lt_of_not_le fun hle => hwf.2 cell hcell ?_⟩
  rw [← flashByte_of_mem hwf hcell, h _ hle]

theorem flashInv_of_pagesOnly {j : WriteJob} {s t : State} (h : PagesOnly j s t) (hinv : FlashInv s.env.flash)
    (hstop : j.dest + j.len ≤ ADDR_SPACE) : FlashInv t.env.flash := by
  obtain ⟨hwf, hkept⟩ := h hinv.1
  refine flashInv_of_flashByte hwf fun a ha => ?_
  rw [hkept a fun p hp hin => by have := pageList_end_le hstop hp; omega]
  exact flashByte_of_not_listed fun cell hcell => ((hinv.2 cell hcell).trans_le ha).ne

theorem flRead_keepsInv {s : State} (hinv : Inv s) (start len : Word) (progress : Bool) :
    Inv (flRead start len progress s) := by
  by_cases hrange : start.toNat + len.toNat ≤ ADDR_SPACE
  · obtain ⟨r, u, evs, heq, hrun, hflash, -, htxns⟩ := flRead_run start len progress s
    rw [heq]
    exact inv_of_fRun hrun hinv (hflash ▸ hinv.1)
      (placed_of_reads htxns (addr_lt_of_mem_readPlan start.isLt hrange)) r
  · rw [flRead_range start len progress s (Nat.lt_of_not_le hrange)]
    exact hinv

theorem flWrite_keepsInv {s : State} (hinv : Inv s) (dest len : Word) {src : List Byte} (hsrc : src.length = len.toNat) :
    Inv (flWrite dest len src s) := by
  by_cases hrange : dest.toNat + len.toNat ≤ ADDR_SPACE
  · obtain ⟨code, u, evs, heq, hrun, hpages, -, hshape⟩ := flWrite_run dest len src s
    rw [heq]
    exact inv_of_fRun hrun hinv (flashInv_of_pagesOnly hpages hinv.1 hrange)
      (placed_of_writeShape hshape hsrc dest.isLt hrange) _
  · rw [flWrite_range dest len src s (Nat.lt_of_not_le hrange)]
    exact hinv

/-- The decoder gives FL_WRITE only with `length` data bytes (R53). -/
theorem length_src_of_decode {x : WireCtx} {r : Request} {dest len : Word} {progress : Bool} {src : List Byte}
    (hd : decode x r = .ok (.flWrite dest len progress src)) : src.length = len.toNat := by
  cases r with
  | wire y =>
    cases wireDecodeIsSound x y _ hd
  | descriptor d =>
    have hsel : opselOf d = 10 := by
      have hstatement := Laws.Encoding.flWrite dest len progress src
      obtain henc | ⟨henc, -⟩ := descriptorDecodeLosesNothing x d _ hd
      · exact Option.some.inj (opselOf_of_statement hstatement henc)
      · exact Option.some.inj (opselOf_of_statement (d := { d with src := [] }) hstatement henc)
    rw [decode, decodeDescriptor_flWrite hsel] at hd
    split at hd
    · split at hd
      case isTrue hlen => cases hd; exact hlen
      case isFalse => cases hd
    · cases hd

/-- Settles O3: port T leaves the flash, and what port F is asked for lies where the range and its pages lie. -/
theorem stepKeepsInv : Obligations.StepKeepsInv := by
  intro s t hinv h
  obtain rfl | ⟨r, rest, -, ⟨i, hd, hexec⟩ | rfl⟩ := step_cases h
  · exact hinv
  · have hinv' : Inv { s with requests := rest } := hinv
    obtain ⟨evs, hrun, -⟩ | ⟨start, len, progress, rfl, rfl⟩ | ⟨dest, len, progress, src, rfl, rfl⟩ :=
      exec_port_cases hexec
    · exact inv_of_tRun hrun hinv'
    · exact flRead_keepsInv hinv' start len progress
    · exact flWrite_keepsInv hinv' dest len (length_src_of_decode hd)
  · exact hinv

end Sys2Proof.Proofs
end

section
/-! Proofs, 41_cipher.md: the round trip of the operations and of a command word, and the schedule of zeros. -/

namespace Sys2Proof.Proofs
open Sys2Proof.Machine

/-- Settles O23: ENC leaves KS, so DEC runs under the schedule of ENC. -/
theorem decOfEncReturnsTheOperands : Obligations.DecOfEncReturnsTheOperands := by
  intro s a b
  obtain ⟨henc, -⟩ := encAndDecReturnThePair s a b
  refine ⟨_, _, _, henc, rfl, ?_⟩
  obtain ⟨-, hdec⟩ := encAndDecReturnThePair
    { s with result := some ⟨.ok, 0, .words [(enc s.cs.ks (a, b)).1, (enc s.cs.ks (a, b)).2]⟩ }
    (enc s.cs.ks (a, b)).1 (enc s.cs.ks (a, b)).2
  rw [hdec]
  obtain ⟨hround, -⟩ := cipherRoundTrip s.cs.ks (a, b)
  simp only [Prod.mk.eta, hround]

/-- Settles O31: the pair of the encrypted word is what `Enc` gave. -/
theorem encryptedWordDecryptsBack : Obligations.EncryptedWordDecryptsBack := by
  intro S w
  have hlow : (encryptWord S w).extractLsb' 0 32 = (enc S (w.extractLsb' 0 32, w.extractLsb' 32 32)).1 :=
    BitVec.extractLsb'_append_eq_right
  have hhigh : (encryptWord S w).extractLsb' 32 32 = (enc S (w.extractLsb' 0 32, w.extractLsb' 32 32)).2 :=
    BitVec.extractLsb'_append_eq_left
  rw [hlow, hhigh, Prod.mk.eta, (cipherRoundTrip S _).1]

/-! ## The schedule of zeros -/

/-- A key of zeros leaves every schedule. -/
theorem xorKey_zero (S : Schedule) : xorKey ⟨0, 0, 0⟩ S = S := by
  have hpad (n : Nat) : bswap32 (keyParity ⟨0, 0, 0⟩ n) = 0 := by
    rw [keyParity, ite_self]
    decide
  ext n hn : 1
  rw [xorKey_eq_xoredTo, getElem_xoredTo _ S le_rfl n hn, hpad, BitVec.ofNat_eq_ofNat, BitVec.xor_zero, ite_self]

section Zero
variable {S : Schedule} (hzero : ∀ i : Fin KS_LEN, S[i.val] = 0)
include hzero

theorem pWord_eq_zero (i : Fin PLEN) : pWord S i = 0 := hzero ⟨i.val, pWord_index_lt i⟩

theorem roundF_eq_zero (z : Word) : roundF S z = 0 := by
  have hbox (k : Fin SBOX_COUNT) (j : Byte) : sWord S k j = 0 := hzero ⟨_, sWord_index_lt k j⟩
  simp only [roundF, hbox]
  rfl

theorem feistelRound_eq_swap (xy : Word × Word) (i : Fin PLEN) : feistelRound S xy i = xy.swap := by
  rw [feistelRound, roundF_eq_zero hzero, pWord_eq_zero hzero, BitVec.ofNat_eq_ofNat, BitVec.zero_xor, BitVec.zero_xor]
  rfl

/-- Two rounds under a schedule of zeros change nothing, and both directions have an even number of them. -/
theorem foldl_feistelRound_of_even {ks : List (Fin PLEN)} (heven : Even ks.length) (xy : Word × Word) :
    ks.foldl (feistelRound S) xy = xy := by
  have hswaps (ks : List (Fin PLEN)) : ks.foldl (feistelRound S) xy = Prod.swap^[ks.length] xy := by
    induction ks generalizing xy with
    | nil => rfl
    | cons k ks ih => rw [List.foldl_cons, feistelRound_eq_swap hzero, ih, List.length_cons, Function.iterate_succ_apply]
  obtain ⟨n, hn⟩ := heven
  rw [hswaps, hn, ← two_mul, Function.iterate_mul]
  exact Function.iterate_fixed (x := xy) (f := Prod.swap^[2]) xy.swap_swap n

theorem enc_eq_swap (w : Word × Word) : enc S w = w.swap := by
  have heven : Even encRounds.length := by decide
  simp only [enc, foldl_feistelRound_of_even hzero heven, pWord_eq_zero hzero, BitVec.ofNat_eq_ofNat, BitVec.xor_zero]
  rfl

theorem dec_eq_swap (w : Word × Word) : dec S w = w.swap := by
  have heven : Even decRounds.length := by decide
  simp only [dec, foldl_feistelRound_of_even hzero heven, pWord_eq_zero hzero, BitVec.ofNat_eq_ofNat, BitVec.xor_zero]
  rfl

theorem premixKey_zero : premixKey S ⟨0, 0, 0⟩ = ⟨0, 0, 0⟩ := by
  simp only [premixKey, enc_eq_swap hzero, Prod.swap]

theorem keyAfterPremix_zero (premix : Bool) : keyAfterPremix premix S ⟨0, 0, 0⟩ = ⟨0, 0, 0⟩ := by
  cases premix with
  | false => rfl
  | true => exact premixKey_zero hzero

/-- Step 2 writes zeros over zeros, and the working pair stays (0, 0). -/
theorem remixedTo_zero {j : Nat} (hj : j ≤ KS_PAIRS) : remixedTo S j = (S, (0, 0)) := by
  induction j with
  | zero => rfl
  | succ j ih =>
    rw [remixedTo_succ S hj, ih (by omega)]
    refine Prod.ext (Vector.ext fun n hn => ?_) (enc_eq_swap hzero (0, 0))
    rw [getElem_remixPair, enc_eq_swap hzero]
    have hn0 : S[n] = 0 := hzero ⟨n, hn⟩
    split_ifs
    · exact hn0.symm
    · exact hn0.symm
    · rfl

theorem remix_zero : remix S = S := by
  rw [remix_eq_remixedTo, remixedTo_zero hzero (j := 521) (by decide)]

end Zero

/-- Settles O24: sixteen swaps and the last one. -/
theorem zeroScheduleSwaps : Obligations.ZeroScheduleSwaps := fun _ hzero a b =>
  ⟨enc_eq_swap hzero (a, b), dec_eq_swap hzero (a, b)⟩

/-- Settles O26: the key, the XOR with it, and the encrypted pairs are zero. -/
theorem zeroKeyAndScheduleStayZero : Obligations.ZeroKeyAndScheduleStayZero := by
  intro premix S hzero
  rw [ksPass_eq, scheduleAfterXor, keyAfterPremix_zero hzero, xorKey_zero, remix_zero hzero]

end Sys2Proof.Proofs
end

section
/-! Proofs, 42_protocol.md: the command words run by themselves, the counter, and which registers and codes belong to which
operation (10_state.md R20, 60_exceptions.md R190). -/

namespace Sys2Proof.Proofs
open Sys2Proof.Machine

/-! ## The identification block -/

theorem exists_four_bytes {b : List Byte} {off : Nat} (h : off + 4 ≤ b.length) :
    ∃ b0 b1 b2 b3, (b.drop off).take 4 = [b0, b1, b2, b3] := by
  have hlen : ((b.drop off).take 4).length = 4 := by
    rw [List.length_take, List.length_drop]
    omega
  match (b.drop off).take 4, hlen with
  | [b0, b1, b2, b3], _ => exact ⟨b0, b1, b2, b3, rfl⟩

/-- Settles O34: the answer has ID_BLOCK_LEN bytes, and `Config` has the fields inside them. -/
theorem idBlockHasEveryField : Obligations.IdBlockHasEveryField := by
  intro c e j b hb
  have hlen := length_of_tReply hb
  refine ⟨exists_four_bytes (hlen ▸ c.game_code_fits), ?_, exists_four_bytes (hlen ▸ c.t_c1_fits),
    exists_four_bytes (hlen ▸ c.t_c2_fits)⟩
  exact ⟨_, List.getElem?_eq_getElem (Nat.lt_of_succ_le (hlen ▸ c.seed_byte_fits))⟩

/-! ## The command words run by themselves -/

/-- Settles O38: each of the four rows is `C1_CMD`. -/
theorem cipher1CommandAdvancesCounter : Obligations.Cipher1CommandAdvancesCounter := by
  intro s i op8 L n h
  have hcmd (op8 : Byte) (L n : Half) : Host.Outcome.next (c1Cmd op8 L n s).2 = .next (φ := Fault) (ρ := Refusal) { s with
      cs := { s.cs with nonceCounter := s.cs.nonceCounter + 1 }
      env := afterT s.env 1
      trace := s.trace ++ [⟨.t (.send (toBytes (encryptWord s.cs.ks
        (frameC1 op8 L s.cs.nonceIj s.cs.nonceCounter))) n s.cs.timingC1), tReply s.env 0 n.toNat⟩] } := by
    rw [c1Cmd_eq, c1Word]
  obtain ⟨rfl, rfl, rfl, rfl⟩ | ⟨rfl, rfl, rfl, rfl⟩ | ⟨rfl, rfl, rfl, rfl⟩ | ⟨args, rfl, rfl⟩ := h
  · exact hcmd _ _ _
  · exact hcmd _ _ _
  · exact hcmd _ _ _
  · exact hcmd _ _ _

/-- Settles O39: six of the seven rows are raw frames, and the activate command is `sendAct`. -/
theorem unencryptedCommandsLeaveRegisters : Obligations.UnencryptedCommandsLeaveRegisters := by
  intro s i w n tf h
  have hraw (op8 : Byte) (args : Args) (n : Half) (tf : Word) :
      Host.Outcome.next (sendRaw op8 args n tf s).2 = .next (φ := Fault) (ρ := Refusal) { s with
        env := afterT s.env 1
        trace := s.trace ++ [⟨.t (.send (toBytes (frameRaw op8 args)) n tf), tReply s.env 0 n.toNat⟩] } := by
    rw [sendRaw_eq]
  obtain ⟨rfl, rfl, rfl, rfl⟩ | ⟨rfl, rfl, rfl, rfl⟩ | ⟨rfl, rfl, rfl, rfl⟩ | ⟨rfl, rfl, rfl, rfl⟩ |
    ⟨rfl, rfl, rfl, rfl⟩ | ⟨op8, args, rfl, rfl, rfl⟩ | ⟨op8, args, rfl, rfl, rfl⟩ := h
  · exact hraw _ _ _ _
  · exact hraw _ _ _ _
  · exact hraw _ _ _ _
  · exact congrArg (fun r : Reply × State => Host.Outcome.next r.2) (sendAct_eq s)
  · exact hraw _ _ _ _
  · exact hraw _ _ _ _
  · exact hraw _ _ _ _

/-! ## The counter (R155, R156) -/

theorem run_succ (M : Host.Core) {s t : M.State} (h : M.step s = .next t) (k : Nat) : M.run (k + 1) s = M.run k t := by
  rw [Host.Core.run, h]

theorem add_one_add_ofNat (c : Word) (n : Nat) : c + 1 + BitVec.ofNat 32 n = c + BitVec.ofNat 32 (n + 1) := by
  rw [BitVec.ofNat_add, BitVec.add_assoc, BitVec.add_comm 1]
  rfl

/-- The transaction of one SEND_CMD in Cipher1 (R154), with its answer. -/
def commandEvent (s : State) (q : Byte × Args × Half) : Event :=
  ⟨.t (.send (toBytes (encryptWord s.cs.ks
    (frameC1 q.1 (cmdL s.cs.nonceL q.2.1) s.cs.nonceIj s.cs.nonceCounter))) q.2.2 s.cs.timingC1),
    tReply s.env 0 q.2.2.toNat⟩

/-- The state after one SEND_CMD of the queue in Cipher1, `rest` being the requests behind it. -/
def afterCommand (s : State) (rest : List Request) (q : Byte × Args × Half) : State := { s with
  requests := rest
  cs := { s.cs with nonceCounter := s.cs.nonceCounter + 1 }
  env := afterT s.env 1
  trace := s.trace ++ [commandEvent s q]
  result := some (sendResult q.2.2 (tReply s.env 0 q.2.2.toNat)) }

@[simp] theorem afterCommand_cs (s : State) (rest : List Request) (q : Byte × Args × Half) :
    (afterCommand s rest q).cs = { s.cs with nonceCounter := s.cs.nonceCounter + 1 } := rfl

@[simp] theorem afterCommand_trace (s : State) (rest : List Request) (q : Byte × Args × Half) :
    (afterCommand s rest q).trace = s.trace ++ [commandEvent s q] := rfl

theorem step_eq_afterCommand {s : State} {rest : List Request} {q : Byte × Args × Half} (hst : s.cs.status = .cipher1)
    (hreq : s.requests = encode (wireCtx s) (.sendCmd q.1 q.2.1 q.2.2) :: rest) :
    step s = .next (afterCommand s rest q) := by
  obtain ⟨op8, args, n⟩ := q
  have hdecode : decode (wireCtx s) (encode (wireCtx s) (.sendCmd op8 args n)) = .ok (.sendCmd op8 args n) :=
    descriptorRoundTrip (wireCtx s) (.sendCmd op8 args n) _ rfl rfl
  obtain ⟨-, hcipher1, -⟩ := sendCmdByStage { s with requests := rest } op8 args n _ rfl
  exact (step_of_decode hreq hdecode).trans (hcipher1 hst _ rfl)

/-- Settles O40: each step sends with the counter as the steps before it left it. -/
theorem counterRisesByOnePerCommand : Obligations.CounterRisesByOnePerCommand := by
  intro cmds
  induction cmds with
  | nil =>
    intro s _ hreq
    exact ⟨s, [], rfl, hreq, by simp, rfl, by simp, rfl, by simp⟩
  | cons q cmds ih =>
    intro s hst hreq
    have hstep := step_eq_afterCommand hst hreq
    obtain ⟨t, evs, hrun, hrequests, htrace, hlen, hcs, hkey, hevs⟩ :=
      ih (afterCommand s (cmds.map fun q => encode (wireCtx s) (.sendCmd q.1 q.2.1 q.2.2)) q) hst rfl
    simp only [afterCommand_cs, afterCommand_trace, add_one_add_ofNat] at htrace hcs hevs
    refine ⟨t, commandEvent s q :: evs, (run_succ Sys2Proof.core hstep _).trans hrun, hrequests, ?_,
      congrArg Nat.succ hlen, hcs, hkey, ?_⟩
    · rw [htrace, List.append_assoc, List.singleton_append]
    · intro i p hp
      cases i with
      | zero =>
        cases hp
        refine ⟨_, rfl, ?_⟩
        rw [BitVec.ofNat_eq_ofNat, BitVec.add_zero]
        rfl
      | succ i => exact hevs i p hp

/-- Whatever holds of ERR_TRANSPORT after a transaction, and of the rest of the operation after any answer, holds of the
operation. -/
theorem afterReply_of {P : State → Prop} {r : Reply × State} {k : List Byte → State → State}
    (hfail : P (raiseCode .errTransport r.2)) (hok : ∀ b, P (k b r.2)) : P (afterReply r k) := by
  obtain ⟨reply, u⟩ := r
  cases reply with
  | fail => exact hfail
  | ok b => exact hok b

/-- If the operation that ended in `t` returned OK, the counter is `c`. -/
def CountsTo (c : Word) (t : State) : Prop := codeOf t = some .ok → t.cs.nonceCounter = c

theorem countsTo_raiseCode {code : ResultCode} (hcode : code ≠ .ok) (c : Word) (u : State) :
    CountsTo c (raiseCode code u) := fun h => absurd (Option.some.inj h) hcode

theorem countsTo_checkId {st : Status} {b : List Byte} {u : State} : CountsTo u.cs.nonceCounter (checkId st b u) := by
  unfold checkId
  split
  · exact fun _ => rfl
  · exact countsTo_raiseCode (by decide) _ u

theorem beginC2Query_countsTo (s : State) : CountsTo s.cs.nonceCounter (beginC2Query s) := by
  rw [beginC2Query_eq]
  exact afterReply_of (countsTo_raiseCode (by decide) _ _) fun b => countsTo_checkId

theorem beginC1Query_countsTo (s : State) : CountsTo (s.cs.nonceCounter + 1) (beginC1Query s) := by
  rw [beginC1Query_eq]
  exact afterReply_of (countsTo_raiseCode (by decide) _ _) fun b => countsTo_checkId

theorem beginC1Seed_countsTo (s : State) : CountsTo (s.cs.nonceCounter + 1) (beginC1Seed s) := by
  rw [beginC1Seed_eq]
  exact afterReply_of (countsTo_raiseCode (by decide) _ _) fun b => beginC1Query_countsTo _

theorem beginC1Init_countsTo (s : State) : CountsTo (s.cs.nonceCounter + 1 + 1) (beginC1Init s) := by
  rw [beginC1Init_eq]
  exact afterReply_of (countsTo_raiseCode (by decide) _ _) fun b => beginC1Seed_countsTo _

theorem beginC1Raw_countsTo (seed : Schedule) (ij k : Word) (l : Half) (s : State) :
    CountsTo (k + 1 + 1) (beginC1Raw seed ij k l s) := by
  obtain ⟨p, hp⟩ := exists_eq (a' := ksPass s.cfg.ksPremix (ksPass s.cfg.ksPremix (seed, deriveKey s.cs.gameCode)))
  rw [beginC1Raw_eq_of_ksPass s seed ij k l hp]
  exact afterReply_of (countsTo_raiseCode (by decide) _ _) fun b => beginC1Init_countsTo _

theorem exec_beginC1_countsTo {s t : State} {sel : Byte} {ij k : Word} {l : Half}
    (h : exec (.beginC1 sel ij k l) s = .next t) : CountsTo (k + 1 + 1) t := by
  cases hseed : seedOf s.cfg sel with
  | none =>
    cases (exec_beginC1_of_nseed_le (List.getElem?_eq_none_iff.mp hseed) ij k l).symm.trans h
    exact countsTo_raiseCode (by decide) _ s
  | some seed =>
    by_cases hst : s.cs.status = .raw
    · cases (exec_beginC1_of_raw hseed ij k l hst).symm.trans h
      exact beginC1Raw_countsTo seed ij k l s
    · cases (exec_beginC1_of_ne_raw hseed ij k l hst).symm.trans h
      exact countsTo_raiseCode (by decide) _ s

theorem exec_beginC2_countsTo {s t : State} (h : exec .beginC2 s = .next t) : CountsTo (s.cs.nonceCounter + 1) t := by
  by_cases hst : s.cs.status = .cipher1
  · cases (exec_beginC2_of_cipher1 hst).symm.trans h
    exact afterReply_of (countsTo_raiseCode (by decide) _ _) fun b => beginC2Query_countsTo _
  · cases (exec_beginC2_of_ne_cipher1 hst).symm.trans h
    exact countsTo_raiseCode (by decide) _ s

/-- Settles O41: on the way to OK, BEGIN_C1 sends two Cipher1 commands and BEGIN_C2 one. -/
theorem handshakeCounterAccount : Obligations.HandshakeCounterAccount := by
  intro s t u sel ij k l hc1 hok
  have hcount : t.cs.nonceCounter = k + 2 := (exec_beginC1_countsTo hc1 hok).trans (BitVec.add_assoc k 1 1)
  refine ⟨hcount, fun hc2 hok2 => ⟨?_, ?_⟩⟩
  · rw [exec_beginC2_countsTo hc2 hok2, hcount]
    exact BitVec.add_assoc k 2 1
  · exact (((exec_beginC2_handshake hc2).ok_iff (by decide)).mp hok2).2

/-! ## Which registers an operation writes (10_state.md R20) -/

/-- From `s` to `t` at most the registers of READ_ID were written. -/
def WritesId (s t : State) : Prop := ∃ chipId gameCode seedByte c1 c2, t.cs = { s.cs with
  chipId := chipId, gameCode := gameCode, keySeedByte := seedByte, timingC1 := c1, timingC2 := c2 } ∧ t.key = s.key

theorem readId_writes (s : State) : WritesId s (readId s) := by
  unfold readId
  split
  · rw [readIdRaw_eq]
    exact afterReply_of ⟨_, _, _, _, _, rfl, rfl⟩ fun b =>
      afterReply_of (P := WritesId s) ⟨_, _, _, _, _, rfl, rfl⟩ fun c => ⟨_, _, _, _, _, rfl, rfl⟩
  · exact ⟨_, _, _, _, _, rfl, rfl⟩
  · exact ⟨_, _, _, _, _, rfl, rfl⟩

/-- From `s` to `t` at most the registers of BEGIN_C2 were written. -/
def WritesC2 (s t : State) : Prop :=
  ∃ st c c2, t.cs = { s.cs with status := st, nonceCounter := c, timingC2 := c2 } ∧ t.key = s.key

theorem beginC2_writes {s t : State} (h : exec .beginC2 s = .next t) : WritesC2 s t := by
  by_cases hst : s.cs.status = .cipher1
  · cases (exec_beginC2_of_cipher1 hst).symm.trans h
    refine afterReply_of (P := WritesC2 s) ⟨_, _, _, rfl, rfl⟩ fun b => ?_
    rw [beginC2Query_eq]
    refine afterReply_of (P := WritesC2 s) ⟨_, _, _, rfl, rfl⟩ fun c => ?_
    unfold checkId
    split <;> exact ⟨_, _, _, rfl, rfl⟩
  · cases (exec_beginC2_of_ne_cipher1 hst).symm.trans h
    exact ⟨_, _, _, rfl, rfl⟩

/-- The registers that BEGIN_C1 leaves. -/
structure HandshakeKeeps (s t : State) : Prop where
  chipId : t.cs.chipId = s.cs.chipId
  gameCode : t.cs.gameCode = s.cs.gameCode
  keySeedByte : t.cs.keySeedByte = s.cs.keySeedByte
  timingC2 : t.cs.timingC2 = s.cs.timingC2

theorem HandshakeKeeps.of_next {s u t : State} (h : HandshakeKeeps u t) (hu : HandshakeKeeps s u) : HandshakeKeeps s t :=
  ⟨h.chipId.trans hu.chipId, h.gameCode.trans hu.gameCode, h.keySeedByte.trans hu.keySeedByte,
    h.timingC2.trans hu.timingC2⟩

theorem beginC1Query_keeps (s : State) : HandshakeKeeps s (beginC1Query s) := by
  rw [beginC1Query_eq]
  refine afterReply_of ⟨rfl, rfl, rfl, rfl⟩ fun b => ?_
  unfold checkId
  split <;> exact ⟨rfl, rfl, rfl, rfl⟩

theorem beginC1Seed_keeps (s : State) : HandshakeKeeps s (beginC1Seed s) := by
  rw [beginC1Seed_eq]
  exact afterReply_of ⟨rfl, rfl, rfl, rfl⟩ fun b => (beginC1Query_keeps _).of_next ⟨rfl, rfl, rfl, rfl⟩

theorem beginC1Init_keeps (s : State) : HandshakeKeeps s (beginC1Init s) := by
  rw [beginC1Init_eq]
  exact afterReply_of ⟨rfl, rfl, rfl, rfl⟩ fun b => (beginC1Seed_keeps _).of_next ⟨rfl, rfl, rfl, rfl⟩

theorem exec_beginC1_keeps {s t : State} {sel : Byte} {ij k : Word} {l : Half}
    (h : exec (.beginC1 sel ij k l) s = .next t) : HandshakeKeeps s t := by
  cases hseed : seedOf s.cfg sel with
  | none =>
    cases (exec_beginC1_of_nseed_le (List.getElem?_eq_none_iff.mp hseed) ij k l).symm.trans h
    exact ⟨rfl, rfl, rfl, rfl⟩
  | some seed =>
    by_cases hst : s.cs.status = .raw
    · cases (exec_beginC1_of_raw hseed ij k l hst).symm.trans h
      obtain ⟨p, hp⟩ := exists_eq (a' := ksPass s.cfg.ksPremix (ksPass s.cfg.ksPremix (seed, deriveKey s.cs.gameCode)))
      rw [beginC1Raw_eq_of_ksPass s seed ij k l hp]
      exact afterReply_of ⟨rfl, rfl, rfl, rfl⟩ fun b => (beginC1Init_keeps _).of_next ⟨rfl, rfl, rfl, rfl⟩
    · cases (exec_beginC1_of_ne_raw hseed ij k l hst).symm.trans h
      exact ⟨rfl, rfl, rfl, rfl⟩

/-- From `s` to `t` at most `cs.status` was written. -/
def WritesStatus (s t : State) : Prop := ∃ st, t.cs = { s.cs with status := st } ∧ t.key = s.key

theorem exec_resetLink_writes {s t : State} (h : exec .resetLink s = .next t) : WritesStatus s t := by
  cases (exec_resetLink_eq s).symm.trans h
  exact afterReply_of ⟨_, rfl, rfl⟩ fun b => ⟨_, rfl, rfl⟩

theorem ksbuild_writes (sel : Byte) (k : Key) (s : State) : ∃ ks, (ksbuild sel k s).cs = { s.cs with ks := ks } := by
  unfold ksbuild
  split
  · exact ⟨_, rfl⟩
  · split
    · rw [returnOk_eq, ksApply_eq, ksLoad_eq]
      exact ⟨_, rfl⟩
    · exact ⟨_, rfl⟩
    · exact ⟨_, rfl⟩

/-- SEND_CMD writes the counter, and in Cipher1 only. -/
theorem sendByStatus_writes (op8 : Byte) (args : Args) (n : Half) (s : State) :
    (∃ c, (sendByStatus op8 args n s).2.cs = { s.cs with nonceCounter := c } ∧
      (c ≠ s.cs.nonceCounter → s.cs.status = .cipher1)) ∧ (sendByStatus op8 args n s).2.key = s.key := by
  unfold sendByStatus
  split <;> rename_i hst
  · exact ⟨⟨_, rfl, fun h => absurd rfl h⟩, rfl⟩
  · exact ⟨⟨_, rfl, fun _ => hst⟩, rfl⟩
  · exact ⟨⟨_, rfl, fun h => absurd rfl h⟩, rfl⟩

theorem flRead_key (start len : Word) (progress : Bool) (s : State) : (flRead start len progress s).key = s.key := by
  obtain ⟨r, u, evs, heq, hrun, -⟩ := flRead_run start len progress s
  rw [heq, finish_key, hrun.key]

theorem flWrite_key (dest len : Word) (src : List Byte) (s : State) : (flWrite dest len src s).key = s.key := by
  obtain ⟨code, u, evs, heq, hrun, -⟩ := flWrite_run dest len src s
  rw [heq, finish_key, hrun.key]

/-- Settles O6: operation by operation. -/
theorem registersWrittenOnlyByTheirOperations : Obligations.RegistersWrittenOnlyByTheirOperations := by
  intro i s t h
  cases i with
  | enc | dec | reserved0 | reservedB | reservedCF | dummy | readBlock | chipidRaw | actC1 | c2Chipid | hostCmdRaw
  | hostCmdC2 =>
    obtain ⟨hcs, hkey⟩ : t.cs = s.cs ∧ t.key = s.key := by cases h; exact ⟨rfl, rfl⟩
    simp [hcs, hkey]
  | c1InitC2 | c1Chipid | c1ActC2 | hostCmdC1 =>
    obtain ⟨hcs, hkey⟩ : t.cs = { s.cs with nonceCounter := s.cs.nonceCounter + 1 } ∧ t.key = s.key := by
      cases h; exact ⟨rfl, rfl⟩
    simp [hcs, hkey]
  | flRead start len progress => cases h; simp [flRead_cs, flRead_key]
  | flWrite dest len progress src => cases h; simp [flWrite_cs, flWrite_key]
  | resetLink =>
    obtain ⟨st, hcs, hkey⟩ := exec_resetLink_writes h
    simp [hcs, hkey]
  | readId =>
    cases h
    obtain ⟨chipId, gameCode, seedByte, c1, c2, hcs, hkey⟩ := readId_writes s
    simp [hcs, hkey]
  | ksbuild sel a b c =>
    cases h
    obtain ⟨ks, hcs⟩ := ksbuild_writes sel ⟨a, b, c⟩ s
    simp [hcs]
  | beginC1 sel ij k l =>
    obtain ⟨hchip, hgame, hseed, hc2⟩ := exec_beginC1_keeps h
    simp [hchip, hgame, hseed, hc2]
  | beginC2 =>
    obtain ⟨st, c, c2, hcs, hkey⟩ := beginC2_writes h
    simp [hcs, hkey]
  | sendCmd op8 args n =>
    cases (exec_sendCmd_eq op8 args n s).symm.trans h
    obtain ⟨⟨c, hcs, hc⟩, hkey⟩ := sendByStatus_writes op8 args n s
    simpa [hcs, hkey] using hc

/-! ## Which codes an operation returns (60_exceptions.md R190) -/

/-- The codes of a handshake once its stage and its seed are right. -/
def handshakeCodes : List (Option ResultCode) := [some .ok, some .errTransport, some .errHandshake]

theorem codeOf_checkId (st : Status) (b : List Byte) (u : State) : codeOf (checkId st b u) ∈ handshakeCodes := by
  unfold checkId
  split <;> simp [handshakeCodes]

/-- A handshake's codes are those of what follows its first transaction. -/
theorem codeOf_afterReply {r : Reply × State} {k : List Byte → State → State}
    (hk : ∀ b u, codeOf (k b u) ∈ handshakeCodes) : codeOf (afterReply r k) ∈ handshakeCodes :=
  afterReply_of (P := fun t => codeOf t ∈ handshakeCodes) (by simp [handshakeCodes]) fun b => hk b r.2

theorem codeOf_beginC2Query (s : State) : codeOf (beginC2Query s) ∈ handshakeCodes := by
  rw [beginC2Query_eq]
  exact codeOf_afterReply (codeOf_checkId _)

theorem codeOf_beginC1Raw (seed : Schedule) (ij k : Word) (l : Half) (s : State) :
    codeOf (beginC1Raw seed ij k l s) ∈ handshakeCodes := by
  rw [beginC1Raw_eq]
  refine codeOf_afterReply fun _ u => ?_
  rw [beginC1Init_eq]
  refine codeOf_afterReply fun _ u => ?_
  rw [beginC1Seed_eq]
  refine codeOf_afterReply fun _ u => ?_
  rw [beginC1Query_eq]
  exact codeOf_afterReply (codeOf_checkId _)

theorem codeOf_exec_beginC1 {s t : State} {sel : Byte} {ij k : Word} {l : Half}
    (h : exec (.beginC1 sel ij k l) s = .next t) :
    codeOf t = some .errIllegal ∨ codeOf t = some .errState ∨ codeOf t ∈ handshakeCodes := by
  cases hseed : seedOf s.cfg sel with
  | none =>
    cases (exec_beginC1_of_nseed_le (List.getElem?_eq_none_iff.mp hseed) ij k l).symm.trans h
    exact .inl rfl
  | some seed =>
    by_cases hst : s.cs.status = .raw
    · cases (exec_beginC1_of_raw hseed ij k l hst).symm.trans h
      exact .inr (.inr (codeOf_beginC1Raw seed ij k l s))
    · cases (exec_beginC1_of_ne_raw hseed ij k l hst).symm.trans h
      exact .inr (.inl rfl)

theorem codeOf_exec_beginC2 {s t : State} (h : exec .beginC2 s = .next t) :
    codeOf t = some .errState ∨ codeOf t ∈ handshakeCodes := by
  by_cases hst : s.cs.status = .cipher1
  · cases (exec_beginC2_of_cipher1 hst).symm.trans h
    exact .inr (codeOf_afterReply fun _ => codeOf_beginC2Query)
  · cases (exec_beginC2_of_ne_cipher1 hst).symm.trans h
    exact .inl rfl

theorem codeOf_readId (s : State) : codeOf (readId s) ∈ [some .ok, some .errState, some .errTransport] := by
  unfold readId
  split
  · rw [readIdRaw_eq]
    refine afterReply_of (P := fun t => codeOf t ∈ _) (by simp) fun b => ?_
    exact afterReply_of (P := fun t => codeOf t ∈ _) (by simp) fun c => by simp
  · simp
  · simp

theorem codeOf_ksbuild (sel : Byte) (k : Key) (s : State) :
    codeOf (ksbuild sel k s) ∈ [some .ok, some .errIllegal, some .errState] := by
  unfold ksbuild
  split
  · simp
  · split <;> simp

theorem codeOf_exec_flRead {s t : State} {start len : Word} {progress : Bool}
    (h : exec (.flRead start len progress) s = .next t) :
    codeOf t ∈ [some .ok, some .errPrimRead, some .errRange] := by
  cases h
  by_cases hrange : start.toNat + len.toNat ≤ ADDR_SPACE
  · obtain hcode | hcode := codeOf_flRead hrange s progress <;> simp [hcode]
  · rw [flRead_range start len progress s (Nat.lt_of_not_le hrange)]
    simp

theorem codeOf_exec_flWrite {s t : State} {dest len : Word} {progress : Bool} {src : List Byte}
    (h : exec (.flWrite dest len progress src) s = .next t) : codeOf t ∈
      [some .ok, some .errPrimRead, some .errPrimErase, some .errPrimWrite, some .errVerify, some .errRange] := by
  cases h
  obtain ⟨code, u, evs, heq, -, -, hcode, -⟩ := flWrite_run dest len src s
  rw [heq, show codeOf (finish (plainResult code) u) = some code from rfl]
  obtain ⟨rfl | rfl | rfl, -⟩ | hfailed := hcode
  · simp
  · simp
  · simp
  · obtain rfl | rfl | rfl := hfailed.code <;> simp

/-- Settles O56: operation by operation. -/
theorem resultCodesOfEachOperation : Obligations.ResultCodesOfEachOperation := by
  intro i s t h
  cases i with
  | enc | dec | reserved0 | reservedB | reservedCF => cases h; rfl
  | ksbuild sel a b c => cases h; exact codeOf_ksbuild sel ⟨a, b, c⟩ s
  | resetLink => obtain ⟨-, hcode, -⟩ | ⟨-, hcode, -⟩ := exec_resetLink_cases h <;> simp [hcode]
  | readId => cases h; exact codeOf_readId s
  | beginC1 sel ij k l =>
    obtain hcode | hcode | hcode := codeOf_exec_beginC1 h
    · simp [hcode]
    · simp [hcode]
    · revert hcode
      simp only [handshakeCodes, List.mem_cons]
      tauto
  | beginC2 =>
    obtain hcode | hcode := codeOf_exec_beginC2 h
    · simp [hcode]
    · revert hcode
      simp only [handshakeCodes, List.mem_cons]
      tauto
  | sendCmd op8 args n =>
    cases (exec_sendCmd_eq op8 args n s).symm.trans h
    cases hr : tReply s.env 0 n.toNat with
    | fail => simp [codeOf, sendResult, plainResult]
    | ok b => simp [codeOf, sendResult]
  | flRead start len progress => exact codeOf_exec_flRead h
  | flWrite dest len progress src => exact codeOf_exec_flWrite h
  | dummy | readBlock | chipidRaw | actC1 | c1InitC2 | c1Chipid | c1ActC2 | c2Chipid | hostCmdRaw | hostCmdC1
  | hostCmdC2 => cases h; rfl

end Sys2Proof.Proofs
end

section
/-! Proofs, 43_flash.md: the blocks of a read, the whole history of an FL_WRITE exit by exit, and what its erases and writes
obey whatever the answers are. -/

namespace Sys2Proof.Proofs
open Sys2Proof.Machine

/-! ## The blocks of a read (R171, R172) -/

theorem length_slowBlocks (c : Config) (start len : Nat) :
    (slowBlocks c start len).length = (len + (chunk c - 1)) / chunk c := by
  have hpos := chunk_pos c
  have hdiv := Nat.div_add_mod len (chunk c)
  have hmod := Nat.mod_lt len hpos
  have hquot : (len + (chunk c - 1)) / chunk c = len / chunk c + (len % chunk c + (chunk c - 1)) / chunk c := by
    rw [← Nat.mul_add_div hpos, ← Nat.add_assoc, hdiv]
  rw [slowBlocks, List.length_append, List.length_map, List.length_range, hquot]
  split <;> rename_i h
  · rw [Nat.div_eq_of_lt (show len % chunk c + (chunk c - 1) < chunk c by omega), List.length_nil]
  · rw [show len % chunk c + (chunk c - 1) = len % chunk c - 1 + chunk c by omega, Nat.add_div_right _ hpos,
      Nat.div_eq_of_lt (show len % chunk c - 1 < chunk c by omega), List.length_singleton]

/-- Block `i` starts `i` chunks after `start`; it is a whole chunk, or the last, which is rounded up to granules. -/
theorem getElem?_slowBlocks {c : Config} {start len i : Nat} {b : ReadBlk} (h : (slowBlocks c start len)[i]? = some b) :
    (i < len / chunk c ∧ b = ⟨start + i * chunk c, chunk c, chunk c⟩) ∨
    (i = len / chunk c ∧ len % chunk c ≠ 0 ∧
      b = ⟨start + i * chunk c, alignUp (len % chunk c) (gran c), len % chunk c⟩) := by
  rw [slowBlocks] at h
  by_cases hi : i < len / chunk c
  · rw [List.getElem?_append_left (by simpa using hi), List.getElem?_map, List.getElem?_range hi] at h
    exact .inl ⟨hi, (Option.some.inj h).symm⟩
  · rw [List.getElem?_append_right (by simpa using hi), List.length_map, List.length_range] at h
    split at h <;> rename_i hrest
    · simp at h
    · obtain ⟨hlast, heq⟩ := List.getElem?_eq_some_iff.mp h
      obtain rfl : i = len / chunk c := by
        rw [List.length_singleton] at hlast
        omega
      exact .inr ⟨rfl, hrest, by simpa using heq.symm⟩

/-- Settles O42: block `i` is whole exactly when a chunk is left from `i` chunks on. -/
theorem readPlanBlocks : Obligations.ReadPlanBlocks := by
  intro c start len progress
  refine ⟨fun hfast => if_pos hfast, fun hslow => ?_, rfl, rfl⟩
  have hplan : readPlan c start len progress = slowBlocks c start len := if_neg hslow
  rw [hplan]
  refine ⟨length_slowBlocks c start len, fun i b hb => ?_⟩
  have hdiv := Nat.div_add_mod len (chunk c)
  have hmod := Nat.mod_lt len (chunk_pos c)
  obtain ⟨hi, rfl⟩ | ⟨rfl, hrest, rfl⟩ := getElem?_slowBlocks hb
  · have hleft : chunk c ≤ len - i * chunk c := by
      have := Nat.mul_le_mul_right (chunk c) (Nat.succ_le_of_lt hi)
      rw [Nat.succ_mul, Nat.mul_comm (len / chunk c)] at this
      omega
    exact ⟨rfl, (Nat.min_eq_left hleft).symm, fun _ => rfl, fun hlt => absurd hleft (Nat.not_le.mpr hlt)⟩
  · have hleft : len - len / chunk c * chunk c = len % chunk c := by
      rw [Nat.mul_comm]
      omega
    rw [hleft]
    exact ⟨rfl, (Nat.min_eq_right hmod.le).symm, fun hle => absurd hle (Nat.not_le.mpr hmod),
      fun _ => alignUp_bounds (gran_pos c) _⟩

/-! ## The exits of FL_WRITE -/

/-- ERR_VERIFY, ERR_PRIM_READ, ERR_PRIM_ERASE and ERR_PRIM_WRITE are the codes of a job that stopped, so it is never OK. -/
theorem pageStop_code_ne_ok {c : Config} {j : WriteJob} {p : Nat} {code : ResultCode} {evs : List Event}
    (h : PageStop c j p code evs) : code ≠ .ok := by
  obtain ⟨rfl, -⟩ | ⟨pb, rs, ws, -, -, -, -, -, rfl⟩ := h
  · decide
  · split <;> decide

theorem verifyStop_code_ne_ok {c : Config} {j : WriteJob} {code : ResultCode} {evs : List Event}
    (h : VerifyStop c j code evs) : code ≠ .ok := by
  have hcheck {addr len : Nat} {want : List Byte} {evs : List Event} (h : CheckStop c addr len want code evs) :
      code ≠ .ok := by
    obtain ⟨rfl, -⟩ | ⟨rfl, -⟩ := h <;> decide
  obtain ⟨-, h⟩ := h
  split at h
  · exact hcheck h
  · obtain h | ⟨as, bs, -, -, h⟩ := h
    · exact hcheck h
    · exact hcheck h

/-- Settles O60: the exits of `runJob_exits`, each with the record of its code. -/
theorem flWriteHistoryOfEveryExit : Obligations.FlWriteHistoryOfEveryExit := by
  rintro s dest len progress src j hsrc rfl
  refine ⟨fun hbeyond => congrArg _ (flWrite_range dest len src s hbeyond), fun hrange => ?_⟩
  obtain ⟨code, heq, hcode⟩ := flWrite_cases dest len src s hrange
  obtain ⟨pages, last, hrun, hpages, hend⟩ := runJob_exits (jobOf dest len src) s hsrc
  refine ⟨_, pages, last, code, congrArg Host.Outcome.next heq, finish_eq_of_fRun hrun _, hpages, ?_⟩
  obtain ⟨hnone, hlen, hverify⟩ | ⟨code', hsome, hstop⟩ := hend
  · obtain ⟨-, rfl⟩ | hcode := hcode
    · exact .inl ⟨rfl, hlen, hverify⟩
    · simp [hnone] at hcode
  · obtain ⟨hnone, -⟩ | hcode := hcode
    · simp [hnone] at hsome
    · obtain rfl := Option.some.inj (hsome.symm.trans hcode)
      exact .inr hstop

/-- Settles O46: of the exits of `FlWriteHistoryOfEveryExit` only the first returns OK. -/
theorem flWriteOkHistory : Obligations.FlWriteOkHistory := by
  intro s t dest len progress src hsrc ht hok
  obtain ⟨hbeyond, hinside⟩ := flWriteHistoryOfEveryExit s dest len progress src _ hsrc rfl
  by_cases hrange : dest.toNat + len.toNat ≤ 2 ^ 32
  · obtain ⟨t', pages, last, code, ht', heq, hpages, hend⟩ := hinside hrange
    cases ht'.symm.trans ht
    have hcode : code = .ok := by
      rw [heq] at hok
      exact Option.some.inj hok
    obtain ⟨-, hlen, hverify⟩ | ⟨p, -, hstop⟩ | ⟨-, hstop⟩ := hend
    · refine ⟨pages, last, _, rfl, ?_, hlen, hpages, hverify, ?_⟩
      · rw [heq, List.append_assoc]
      · rw [heq, hcode]
    · exact absurd hcode (pageStop_code_ne_ok hstop)
    · exact absurd hcode (verifyStop_code_ne_ok hstop)
  · cases (hbeyond (Nat.lt_of_not_le hrange)).symm.trans ht
    cases hok

/-- Settles O53: a range that fits VBUF_SIZE is verified whole. -/
theorem fullVerificationReadsTheSource : Obligations.FullVerificationReadsTheSource := by
  intro s t dest len progress src hsrc hlen hfits ht hok
  obtain ⟨pages, ver, j, rfl, htrace, -, -, hverify, -⟩ := flWriteOkHistory s t dest len progress src hsrc ht hok
  have hne : len.toNat ≠ 0 := fun h => hlen (BitVec.eq_of_toNat_eq h)
  refine ⟨pages.flatten, ver, htrace, ?_⟩
  rwa [VerifyRun, if_neg hne, if_pos hfits] at hverify

/-! ## What FL_WRITE obeys whatever the answers are -/

/-- Settles O47: the record is plain, the run used port F alone, and the flash changed in the pages only. -/
theorem flWriteFrame : Obligations.FlWriteFrame := by
  intro s dest len progress src hinv
  obtain ⟨code, u, evs, heq, hrun, hflash, -, -⟩ := flWrite_run dest len src s
  have hnext : exec (.flWrite dest len progress src) s = .next (finish (plainResult code) u) :=
    congrArg Host.Outcome.next heq
  refine ⟨_, evs, hnext, fun _ => hnext, finish_eq_of_fRun hrun _, hrun.tScript, ⟨code, rfl⟩, (hflash hinv.1).2⟩

theorem exec_flWrite_trace {s t : State} {dest len : Word} {progress : Bool} {src : List Byte}
    (h : exec (.flWrite dest len progress src) s = .next t) :
    ∃ evs, t.trace = s.trace ++ evs ∧ StopsAtFailure evs ∧ WriteShape s.cfg (jobOf dest len src) evs := by
  obtain ⟨code, u, evs, heq, hrun, -, hcode, hshape⟩ := flWrite_run dest len src s
  cases h
  rw [heq]
  exact ⟨evs, hrun.trace, hcode.stopsAtFailure, hshape⟩

/-- Turn `i` erases at most page `i`. -/
theorem erasesOf_flatten_sublist {c : Config} {j : WriteJob} {hist : List (List Event)} {ps : List Nat}
    (hlen : hist.length ≤ ps.length)
    (hpages : ∀ (i p : Nat) (es : List Event), ps[i]? = some p → hist[i]? = some es → PageShape c j p es) :
    (erasesOf hist.flatten).Sublist ps := by
  induction hist generalizing ps with
  | nil => exact List.nil_sublist ps
  | cons es hist ih =>
    cases ps with
    | nil => simp at hlen
    | cons p ps =>
      rw [List.flatten_cons, erasesOf_append]
      exact (hpages 0 p es rfl rfl).erases.append
        (ih (Nat.le_of_succ_le_succ hlen) fun i q qs hq hqs => hpages (i + 1) q qs hq hqs)

/-- Settles O48: the turns erase their pages in order, and the verification erases nothing. -/
theorem pagesErasedAtMostOnce : Obligations.PagesErasedAtMostOnce := by
  intro s t dest len progress src ht
  obtain ⟨evs, htrace, -, hist, ver, rfl, hlen, hpages, hver⟩ := exec_flWrite_trace ht
  have hsub : (erasesOf (hist.flatten ++ ver)).Sublist (pageList s.cfg (jobOf dest len src)) := by
    rw [erasesOf_append, erasesOf_reads hver, List.append_nil]
    exact erasesOf_flatten_sublist hlen hpages
  exact ⟨_, htrace, hsub, ((pageList_pairwise_lt _ _).imp Nat.ne_of_lt).sublist hsub⟩

/-- Before every write in `evs` stands the erase of the page around it, answered or not. -/
def WritesErased (c : Config) (evs : List Event) : Prop :=
  ∀ (pre post : List Event) (a n : Nat) (v : List Byte) (r : Reply), evs = pre ++ ⟨.f (.memWrite a n v), r⟩ :: post →
    ∃ p r', (⟨.f (.memErase p), r'⟩ : Event) ∈ pre ∧ p % erasePage c = 0 ∧ p ≤ a ∧ a + writePage c ≤ p + erasePage c

theorem WritesErased.append {c : Config} {as bs : List Event} (has : WritesErased c as) (hbs : WritesErased c bs) :
    WritesErased c (as ++ bs) := by
  intro pre post a n v r h
  obtain ⟨l, rfl, hl⟩ | ⟨l, rfl, hl⟩ := List.append_eq_append_iff.mp h
  · obtain ⟨p, r', hmem, hpage⟩ := hbs l post a n v r hl
    exact ⟨p, r', List.mem_append_right _ hmem, hpage⟩
  · cases l with
    | nil =>
      obtain ⟨p, r', hmem, hpage⟩ := hbs [] post a n v r hl.symm
      cases hmem
    | cons e l =>
      obtain ⟨rfl, -⟩ := List.cons_eq_cons.mp hl
      exact has pre l a n v r rfl

theorem writesErased_of_reads {c : Config} {plan : List ReadBlk} {evs : List Event}
    (h : evs.map (·.txn) <+: plan.map blkTxn) : WritesErased c evs := by
  rintro pre post a n v r rfl
  have hmem : Txn.f (.memWrite a n v) ∈ plan.map blkTxn := h.subset (by simp)
  obtain ⟨b, -, hb⟩ := List.mem_map.mp hmem
  cases hb

/-- In one turn the erase comes first, and every write is a write page of that erase page. -/
theorem writesErased_of_pageShape {c : Config} {j : WriteJob} {p : Nat} {evs : List Event} (h : PageShape c j p evs)
    (haligned : p % erasePage c = 0) : WritesErased c evs := by
  obtain ⟨pb, rs, ws, rfl, hreads, hwrites, -⟩ := h
  refine (writesErased_of_reads hreads).append ?_
  rintro pre post a n v r rfl
  have hmem : Txn.f (.memWrite a n v) ∈ rewriteTxns c p (splice c j p pb) := hwrites.subset (by simp)
  obtain heq | hmem := List.mem_cons.mp hmem
  · cases heq
  obtain ⟨k, hk, heq⟩ := List.mem_map.mp hmem
  cases heq
  have hend := subPage_end (List.mem_range.mp hk)
  cases pre with
  | nil => cases (List.cons_prefix_cons.mp hwrites).1
  | cons e pre =>
    obtain ⟨txn, reply⟩ := e
    obtain rfl : txn = .f (.memErase p) := (List.cons_prefix_cons.mp hwrites).1
    exact ⟨p, reply, List.mem_cons_self, haligned, by omega, by omega⟩

theorem writesErased_of_writeShape {c : Config} {j : WriteJob} {evs : List Event} (h : WriteShape c j evs) :
    WritesErased c evs := by
  obtain ⟨hist, ver, rfl, hlen, hpages, hver⟩ := h
  have hturns : ∀ es ∈ hist, WritesErased c es := fun es hes => by
    obtain ⟨p, hp, hshape⟩ := exists_page_of_mem hlen hpages hes
    exact writesErased_of_pageShape hshape ((mem_pageList_iff c j).mp hp).1
  have hflatten : WritesErased c hist.flatten := by
    clear hlen hpages
    induction hist with
    | nil => exact writesErased_of_reads (plan := []) (by simp)
    | cons es hist ih =>
      rw [List.flatten_cons]
      exact (hturns es List.mem_cons_self).append (ih fun x hx => hturns x (List.mem_cons_of_mem _ hx))
  exact hflatten.append (writesErased_of_reads hver)

/-- Settles O49: the write comes after the erase, which so was not the failed transaction. -/
theorem writeFollowsErase : Obligations.WriteFollowsErase := by
  intro s t dest len progress src pre post a n v r ht htrace
  obtain ⟨evs, htrace', hstops, hshape⟩ := exec_flWrite_trace ht
  obtain rfl := List.append_cancel_left (htrace'.symm.trans htrace)
  obtain ⟨p, r', hmem, hpage⟩ := writesErased_of_writeShape hshape pre post a n v r rfl
  refine ⟨p, ?_⟩
  cases r' with
  | ok b => exact ⟨b, hmem, hpage⟩
  | fail =>
    obtain ⟨pre1, pre2, rfl⟩ := List.append_of_mem hmem
    have hnil := hstops pre1 (pre2 ++ ⟨.f (.memWrite a n v), r⟩ :: post) ⟨.f (.memErase p), .fail⟩ (by simp) rfl
    simp at hnil

/-! ## The code and the last transaction (60_exceptions.md R193) -/

/-- A primitive's code is returned exactly when a transaction of that primitive failed, and it is the last one. -/
theorem explains_iff {code prim : ResultCode} {evs : List Event} (h : Explains code evs)
    (hprim : prim ≠ .ok ∧ prim ≠ .errVerify ∧ prim ≠ .errRange) :
    code = prim ↔ ∃ pre x, evs = pre ++ [⟨x, .fail⟩] ∧ primCode x = some prim := by
  obtain ⟨hcode, hok⟩ | ⟨good, ⟨x, reply⟩, rfl, rfl, -, hx⟩ := h
  · obtain ⟨h1, h2, h3⟩ := hprim
    refine iff_of_false ?_ ?_
    · rintro rfl
      obtain h | h | h := hcode
      · exact h1 h
      · exact h2 h
      · exact h3 h
    · rintro ⟨pre, x, rfl, -⟩
      exact hok ⟨x, .fail⟩ (by simp) rfl
  · constructor
    · rintro rfl
      exact ⟨good, x, rfl, hx⟩
    · rintro ⟨pre, y, heq, hy⟩
      obtain ⟨-, hlast⟩ := List.append_inj' heq rfl
      cases hlast
      exact Option.some.inj (hx.symm.trans hy)

theorem primCode_eq_errPrimRead {x : Txn} : primCode x = some .errPrimRead ↔ ∃ a n, x = .f (.memRead a n) := by
  unfold primCode
  split <;> simp

theorem primCode_eq_errPrimErase {x : Txn} : primCode x = some .errPrimErase ↔ ∃ a, x = .f (.memErase a) := by
  unfold primCode
  split <;> simp

theorem primCode_eq_errPrimWrite {x : Txn} : primCode x = some .errPrimWrite ↔ ∃ a n v, x = .f (.memWrite a n v) := by
  unfold primCode
  split <;> simp

/-- FL_READ and FL_WRITE return a code that explains their history. -/
theorem exec_flash_explains {i : Instr} {s t : State}
    (hi : (∃ a n p, i = .flRead a n p) ∨ ∃ a n p src, i = .flWrite a n p src) (h : exec i s = .next t) :
    ∃ code evs, codeOf t = some code ∧ t.trace = s.trace ++ evs ∧ Explains code evs := by
  obtain ⟨a, n, p, rfl⟩ | ⟨a, n, p, src, rfl⟩ := hi
  · obtain ⟨r, u, evs, heq, hrun, -, hcode, -⟩ := flRead_run a n p s
    cases h
    exact ⟨r.code, evs, congrArg codeOf heq, (congrArg State.trace heq).trans hrun.trace, hcode⟩
  · obtain ⟨code, u, evs, heq, hrun, -, hcode, -⟩ := flWrite_run a n src s
    cases h
    exact ⟨code, evs, congrArg codeOf heq, (congrArg State.trace heq).trans hrun.trace, hcode⟩

/-- Settles O57: the code of the record explains the history. -/
theorem primitiveCodeNamesTheLastTransaction : Obligations.PrimitiveCodeNamesTheLastTransaction := by
  intro i s t hi h
  obtain ⟨code, evs, hcode, htrace, hexplains⟩ := exec_flash_explains hi h
  have hiff {prim : ResultCode} (hprim : prim ≠ .ok ∧ prim ≠ .errVerify ∧ prim ≠ .errRange) :
      codeOf t = some prim ↔ ∃ pre x, evs = pre ++ [⟨x, .fail⟩] ∧ primCode x = some prim := by
    rw [hcode, Option.some_inj, explains_iff hexplains hprim]
  refine ⟨evs, htrace, ?_, ?_, ?_, fun hverify => ?_⟩
  · rw [hiff (by decide)]
    simp only [primCode_eq_errPrimRead]
    exact ⟨fun ⟨pre, _, h, a, n, hx⟩ => ⟨pre, a, n, hx ▸ h⟩, fun ⟨pre, a, n, h⟩ => ⟨pre, _, h, a, n, rfl⟩⟩
  · rw [hiff (by decide)]
    simp only [primCode_eq_errPrimErase]
    exact ⟨fun ⟨pre, _, h, a, hx⟩ => ⟨pre, a, hx ▸ h⟩, fun ⟨pre, a, h⟩ => ⟨pre, _, h, a, rfl⟩⟩
  · rw [hiff (by decide)]
    simp only [primCode_eq_errPrimWrite]
    exact ⟨fun ⟨pre, _, h, a, n, v, hx⟩ => ⟨pre, a, n, v, hx ▸ h⟩,
      fun ⟨pre, a, n, v, h⟩ => ⟨pre, _, h, a, n, v, rfl⟩⟩
  · obtain ⟨-, hok⟩ | hfailed := hexplains
    · exact hok
    · obtain rfl := Option.some.inj (hcode.symm.trans hverify)
      obtain h | h | h := hfailed.code <;> cases h

end Sys2Proof.Proofs
end

section
/-! Proofs, 43_flash.md on the ideal flash of 95_test_vectors.md §0: what a read delivers, what a rewritten page holds, and
so what FL_READ and FL_WRITE do inside the device. -/

namespace Sys2Proof.Proofs
open Sys2Proof.Machine

/-! ## Bytes of the flash -/

theorem length_flashBytes (m : Memory) (a n : Nat) : (flashBytes m a n).length = n := by simp [flashBytes]

theorem getElem_flashBytes (m : Memory) (a n i : Nat) (h : i < (flashBytes m a n).length) :
    (flashBytes m a n)[i] = flashByte m (a + i) := by simp [flashBytes]

theorem take_flashBytes (m : Memory) (a : Nat) {k n : Nat} (h : k ≤ n) : (flashBytes m a n).take k = flashBytes m a k := by
  rw [flashBytes, ← List.map_take, List.take_range, Nat.min_eq_left h, flashBytes]

theorem flashBytes_add (m : Memory) (a k n : Nat) : flashBytes m a (k + n) = flashBytes m a k ++ flashBytes m (a + k) n := by
  simp only [flashBytes, List.range_add, List.map_append, List.map_map, Function.comp_def, Nat.add_assoc]

/-! ## Reading (R171, R172) -/

theorem flatMap_whole_chunks (m : Memory) (start ch q : Nat) :
    ((List.range q).flatMap fun b => flashBytes m (start + b * ch) ch) = flashBytes m start (q * ch) := by
  induction q with
  | zero => simp [flashBytes]
  | succ q ih => rw [List.range_succ, List.flatMap_append, ih, Nat.succ_mul, flashBytes_add, List.flatMap_singleton]

/-- The blocks of a plan are the range, piece by piece. -/
theorem flatMap_readPlan (m : Memory) (c : Config) (start len : Nat) (progress : Bool) :
    ((readPlan c start len progress).flatMap fun b => flashBytes m b.addr b.keep) = flashBytes m start len := by
  unfold readPlan
  split
  · exact List.flatMap_singleton _ _
  · have hlen : len = len / chunk c * chunk c + len % chunk c := by rw [Nat.mul_comm, Nat.div_add_mod]
    rw [slowBlocks, List.flatMap_append, List.flatMap_map, flatMap_whole_chunks]
    conv_rhs => rw [hlen, flashBytes_add]
    split <;> rename_i h
    · rw [h]; rfl
    · rw [List.flatMap_singleton]

section Port
variable {size : Nat}

theorem fAnswer_memRead_of_ideal {c : Config} {e : Env} (hport : IdealPort e size) {a n : Nat} (h : a + n ≤ size) :
    (fAnswer c e (.memRead a n)).1 = .ok (flashBytes e.flash a n) := by
  rw [fAnswer_of_ideal hport, idealFlash, if_pos (hport.2.2 ▸ h)]

theorem readBlocks_of_ideal {bs : List ReadBlk} {s : State} (hport : IdealPort s.env size)
    (hfit : ∀ b ∈ bs, b.addr + b.n ≤ size) (hkeep : ∀ b ∈ bs, b.keep ≤ b.n) (n : Nat) (data : List Byte) :
    (readBlocks bs n data s).1 = ⟨true, n + (bs.map (·.keep)).sum,
      data ++ bs.flatMap fun b => flashBytes s.env.flash b.addr b.keep⟩ := by
  induction bs generalizing n data s with
  | nil => simp [readBlocks]
  | cons b bs ih =>
    have hreply := fAnswer_memRead_of_ideal (c := s.cfg) hport (hfit b List.mem_cons_self)
    have hport' : IdealPort (issueF (.memRead b.addr b.n) s).2.env size := (issueF_run _ s).idealPort hport
    have hflash : (issueF (.memRead b.addr b.n) s).2.env.flash = s.env.flash := by simp
    simp only [readBlocks, memRead, issueF_reply, hreply]
    rw [ih hport' (fun x hx => hfit x (List.mem_cons_of_mem _ hx)) (fun x hx => hkeep x (List.mem_cons_of_mem _ hx)),
      hflash, take_flashBytes _ _ (hkeep b List.mem_cons_self)]
    simp [Nat.add_assoc]

/-- On the ideal flash a read with room for its rounding delivers the bytes of the flash. -/
theorem readRange_of_ideal {s : State} (hport : IdealPort s.env size) {start len : Nat} (progress : Bool)
    (hroom : start + len + (gran s.cfg - 1) ≤ size) :
    (readRange start len progress s).1 = ⟨true, len, flashBytes s.env.flash start len⟩ := by
  have hfit : ∀ b ∈ readPlan s.cfg start len progress, b.addr + b.n ≤ size := fun b hb => by
    obtain ⟨-, hend, -, hround, -⟩ := mem_readPlan hb
    omega
  have hout := readBlocks_of_ideal hport hfit (fun b hb => (mem_readPlan hb).2.2.1) 0 []
  rw [sum_keep_readPlan, flatMap_readPlan] at hout
  simp [readRange, hout]

theorem readRange_state (start len : Nat) (progress : Bool) (s : State) :
    ∃ evs, FRun s (readRange start len progress s).2 evs ∧ (readRange start len progress s).2.env.flash = s.env.flash ∧
      ∀ e ∈ evs, ∃ b, e.txn = blkTxn b := by
  obtain ⟨evs, hrun, hflash, hend⟩ := readRange_cases start len progress s
  refine ⟨evs, hrun, hflash, fun e he => ?_⟩
  have hmem : e.txn ∈ evs.map (·.txn) := List.mem_map_of_mem he
  have hprefix : evs.map (·.txn) <+: (readPlan s.cfg start len progress).map blkTxn := by
    obtain ⟨-, hread, -⟩ | ⟨good, bad, -, -, -, htxns, -⟩ := hend
    · rw [hread.1]
    · rw [htxns]
      exact (List.take_prefix _ _).map _
  obtain ⟨b, -, hb⟩ := List.mem_map.mp (hprefix.subset hmem)
  exact ⟨b, hb.symm⟩

end Port

/-- Settles O51: the plan's blocks lie inside the device, and together they are the range. -/
theorem idealFlashRead : Obligations.IdealFlashRead := by
  intro s start len progress size hport hrange hroom
  obtain ⟨evs, hrun, hflash, -⟩ := readRange_state start.toNat len.toNat progress s
  have hout := readRange_of_ideal hport progress hroom
  have heq := flRead_eq start len progress s hrange
  refine ⟨_, congrArg Host.Outcome.next heq, ?_, hflash, hrun.idealPort hport⟩
  simp [hout, flashBytes]

/-! ## A page with the new bytes in it (R176) -/

/-- The new contents of a page that was read from `m` are what the job makes of each of its bytes. -/
theorem splice_flashBytes {c : Config} {j : WriteJob} {p : Nat} (hp : p ∈ pageList c j) (hsrc : j.src.length = j.len)
    (m : Memory) :
    splice c j p (flashBytes m p (erasePage c)) = (List.range (erasePage c)).map fun i => writtenByte m j (p + i) := by
  obtain ⟨-, hafter, hbefore⟩ := (mem_pageList_iff c j).mp hp
  have hlen := length_splice c j p (flashBytes m p (erasePage c)) (length_flashBytes ..) hsrc hafter.le hbefore.le
  refine List.ext_getElem (by rw [hlen]; simp) fun i hi _ => ?_
  have hstop : j.stop = j.dest + j.len := rfl
  simp only [splice, spliceLo, spliceHi, List.getElem_map, List.getElem_range, writtenByte, List.getElem_append,
    List.getElem_take, List.getElem_drop, getElem_flashBytes, List.length_append, List.length_take, List.length_drop,
    length_flashBytes] at hi ⊢
  have hsmall : i < erasePage c := by omega
  split_ifs with hleft hlow hin hin hin
  · omega
  · rfl
  · rw [List.getD_eq_getElem _ _ (by omega)]
    congr 1
    omega
  · omega
  · omega
  · congr 1
    omega

/-! ## A page that is erased and written (R176) -/

theorem getD_subPage {c : Config} {nb : List Byte} {k i : Nat} (hi : i < writePage c) :
    (subPage c nb k).getD i 0 = nb.getD (k * writePage c + i) 0 := by
  simp [subPage, List.getD_eq_getElem?_getD, List.getElem?_take_of_lt hi]

/-- One write page programmed: the bytes whose offset in the page falls into it. -/
theorem flashByte_writtenSubPage {c : Config} {m : Memory} (hwf : m.wf) {nb : List Byte} (hnb : nb.length = erasePage c)
    {k : Nat} (hk : k < erasePage c / writePage c) (p a : Nat) :
    flashByte (flashProgram m (p + k * writePage c) (subPage c nb k)) a =
      if p ≤ a ∧ (a - p) / writePage c = k then flashByte m a &&& nb.getD (a - p) 0 else flashByte m a := by
  have hdiv := Nat.div_eq_iff (x := a - p) (y := k) (writePage_pos c)
  have hpos := writePage_pos c
  rw [flashByte_flashProgram hwf, length_subPage hnb hk]
  by_cases hin : p + k * writePage c ≤ a ∧ a < p + k * writePage c + writePage c
  · rw [if_pos hin, if_pos, getD_subPage (by omega)]
    · congr 3
      omega
    · exact ⟨by omega, hdiv.mpr (by omega)⟩
  · rw [if_neg hin, if_neg]
    rintro ⟨hpa, hthis⟩
    have := hdiv.mp hthis
    omega

section Port
variable {size : Nat} {s : State} (hport : IdealPort s.env size)
include hport

theorem fAnswer_memWrite_of_ideal (c : Config) {a n : Nat} (v : List Byte) (h : a + n ≤ size) :
    fAnswer c s.env (.memWrite a n v) = (.ok [], flashProgram s.env.flash a v) := by
  rw [fAnswer_of_ideal hport, idealFlash, if_pos (hport.2.2 ▸ h)]

theorem fAnswer_memErase_of_ideal {c : Config} {p : Nat} (h : p + erasePage c ≤ size) :
    fAnswer c s.env (.memErase p) = (.ok [], flashErase s.env.flash p (erasePage c)) := by
  rw [fAnswer_of_ideal hport, idealFlash, if_pos (hport.2.2 ▸ h)]

/-- On the ideal flash every write page is programmed: what it held, with the bits cleared that the new byte has clear. -/
theorem writeSubPages_of_ideal (hwf : s.env.flash.wf) {p : Nat} {nb : List Byte} {ks : List Nat}
    (hnb : nb.length = erasePage s.cfg) (hks : ∀ k ∈ ks, k < erasePage s.cfg / writePage s.cfg)
    (hfit : p + erasePage s.cfg ≤ size) :
    (writeSubPages p nb ks s).1 = none ∧ ∀ a, flashByte (writeSubPages p nb ks s).2.env.flash a =
      if p ≤ a ∧ (a - p) / writePage s.cfg ∈ ks then flashByte s.env.flash a &&& nb.getD (a - p) 0
      else flashByte s.env.flash a := by
  induction ks generalizing s with
  | nil => simp [writeSubPages]
  | cons k ks ih =>
    have hk := hks k List.mem_cons_self
    have hend := subPage_end hk
    have hsub := length_subPage hnb hk
    have hanswer := fAnswer_memWrite_of_ideal hport s.cfg (a := p + k * writePage s.cfg) (n := writePage s.cfg)
      (subPage s.cfg nb k) (by omega)
    generalize hx : FTxn.memWrite (p + k * writePage s.cfg) (writePage s.cfg) (subPage s.cfg nb k) = x at hanswer
    have hrun := issueF_run x s
    have hflash : (issueF x s).2.env.flash = flashProgram s.env.flash (p + k * writePage s.cfg) (subPage s.cfg nb k) :=
      congrArg Prod.snd hanswer
    have hnext : writeSubPages p nb (k :: ks) s = writeSubPages p nb ks (issueF x s).2 := by
      simp only [writeSubPages, memWrite, hx, issueF_reply, hanswer]
    obtain ⟨hnone, hbytes⟩ := ih (hrun.idealPort hport) (hflash ▸ flashProgram_wf hwf _ _) (hrun.cfg.symm ▸ hnb)
      (fun k' hk' => hrun.cfg.symm ▸ hks k' (List.mem_cons_of_mem _ hk')) (hrun.cfg.symm ▸ hfit)
    rw [hnext]
    refine ⟨hnone, fun a => ?_⟩
    rw [hbytes a, hflash, hrun.cfg, flashByte_writtenSubPage hwf hnb hk]
    by_cases hpa : p ≤ a
    · by_cases hthis : (a - p) / writePage s.cfg = k <;> by_cases hlater : (a - p) / writePage s.cfg ∈ ks <;>
        simp [hpa, hthis, hlater, BitVec.and_assoc]
    · simp [hpa]

/-- On the ideal flash a rewritten page holds the new bytes. -/
theorem rewritePage_of_ideal (hwf : s.env.flash.wf) {p : Nat} {nb : List Byte} (hnb : nb.length = erasePage s.cfg)
    (hfit : p + erasePage s.cfg ≤ size) :
    (rewritePage p nb s).1 = none ∧ ∀ a, flashByte (rewritePage p nb s).2.env.flash a =
      if p ≤ a ∧ a < p + erasePage s.cfg then nb.getD (a - p) 0 else flashByte s.env.flash a := by
  have hanswer := fAnswer_memErase_of_ideal hport hfit
  have hrun := issueF_run (.memErase p) s
  have hflash : (issueF (.memErase p) s).2.env.flash = flashErase s.env.flash p (erasePage s.cfg) :=
    congrArg Prod.snd hanswer
  have hnext : rewritePage p nb s =
      writeSubPages p nb (List.range (erasePage s.cfg / writePage s.cfg)) (issueF (.memErase p) s).2 := by
    simp only [rewritePage, memErase, issueF_reply, hanswer]
  obtain ⟨hnone, hbytes⟩ := writeSubPages_of_ideal (hrun.idealPort hport) (hflash ▸ flashErase_wf hwf _ _)
    (hrun.cfg.symm ▸ hnb) (fun k hk => hrun.cfg.symm ▸ List.mem_range.mp hk) (hrun.cfg.symm ▸ hfit)
  rw [hnext]
  refine ⟨hnone, fun a => ?_⟩
  have hsub : (a - p) / writePage s.cfg < erasePage s.cfg / writePage s.cfg ↔ a - p < erasePage s.cfg := by
    rw [Nat.div_lt_iff_lt_mul (writePage_pos s.cfg), Nat.div_mul_cancel (writePage_dvd_erasePage s.cfg)]
  have hin : p ≤ a ∧ a - p < erasePage s.cfg ↔ p ≤ a ∧ a < p + erasePage s.cfg := by omega
  simp only [hbytes a, hflash, hrun.cfg, flashByte_flashErase, List.mem_range, hsub, hin]
  split_ifs
  · exact BitVec.allOnes_and
  · rfl

end Port

/-! ## The page loop and the verification (R176 to R178) -/

theorem flashByte_splice {c : Config} {j : WriteJob} {p : Nat} (hp : p ∈ pageList c j) (hsrc : j.src.length = j.len)
    (m : Memory) {a : Nat} (hpa : p ≤ a) (hap : a < p + erasePage c) :
    (splice c j p (flashBytes m p (erasePage c))).getD (a - p) 0 = writtenByte m j a := by
  rw [splice_flashBytes hp hsrc, List.getD_eq_getElem _ _ (by simp; omega), List.getElem_map, List.getElem_range,
    Nat.add_sub_cancel' hpa]

/-- Writing the job over what it has written changes nothing. -/
theorem writtenByte_idem {m m' : Memory} {j : WriteJob} {a : Nat}
    (h : flashByte m' a = writtenByte m j a ∨ flashByte m' a = flashByte m a) : writtenByte m' j a = writtenByte m j a := by
  unfold writtenByte at h ⊢
  split_ifs at h ⊢
  · rfl
  · exact h.elim id id

section Job
variable {size : Nat} {j : WriteJob} (hsrc : j.src.length = j.len)
include hsrc

/-- On the ideal flash one turn of the page loop leaves the page with the job's bytes in it. -/
theorem doPage_of_ideal {s : State} (hport : IdealPort s.env size) (hwf : s.env.flash.wf) {p : Nat}
    (hp : p ∈ pageList s.cfg j) (hroom : p + erasePage s.cfg + (gran s.cfg - 1) ≤ size) :
    (doPage j p s).1 = none ∧ ∀ a, flashByte (doPage j p s).2.env.flash a =
      if p ≤ a ∧ a < p + erasePage s.cfg then writtenByte s.env.flash j a else flashByte s.env.flash a := by
  have hout := readRange_of_ideal hport false hroom
  obtain ⟨evs, hrun, hflash, -⟩ := readRange_state p (erasePage s.cfg) false s
  generalize hread : readRange p (erasePage s.cfg) false s = r at hout hrun hflash
  generalize hpb : flashBytes s.env.flash p (erasePage s.cfg) = pb at hout
  have hsplice : ∀ a, p ≤ a → a < p + erasePage s.cfg → (splice s.cfg j p pb).getD (a - p) 0 = writtenByte s.env.flash j a :=
    fun a => hpb ▸ flashByte_splice hp hsrc s.env.flash
  by_cases hsame : splice s.cfg j p pb = pb
  · have hnext : doPage j p s = (none, r.2) := by simp only [doPage, hread, hout, if_pos hsame, if_true]
    rw [hnext]
    refine ⟨rfl, fun a => ?_⟩
    rw [hflash]
    split_ifs with hin
    · rw [← hsplice a hin.1 hin.2, hsame, ← hpb, List.getD_eq_getElem _ _ (by rw [length_flashBytes]; omega),
        getElem_flashBytes, Nat.add_sub_cancel' hin.1]
    · rfl
  · have hnext : doPage j p s = rewritePage p (splice s.cfg j p pb) r.2 := by
      simp only [doPage, hread, hout, if_neg hsame, if_true]
    obtain ⟨-, hafter, hbefore⟩ := (mem_pageList_iff s.cfg j).mp hp
    have hlen := length_splice s.cfg j p pb (hpb ▸ length_flashBytes ..) hsrc hafter.le hbefore.le
    obtain ⟨hnone, hbytes⟩ := rewritePage_of_ideal (hrun.idealPort hport) (hflash ▸ hwf) (p := p) (nb := splice s.cfg j p pb)
      (by rw [hrun.cfg, hlen]) (by rw [hrun.cfg]; omega)
    rw [hnext]
    refine ⟨hnone, fun a => ?_⟩
    rw [hbytes a, hflash, hrun.cfg]
    split_ifs with hin
    · exact hsplice a hin.1 hin.2
    · rfl

theorem doPages_of_ideal {ps : List Nat} {s : State} (hport : IdealPort s.env size) (hwf : s.env.flash.wf)
    (hps : ∀ p ∈ ps, p ∈ pageList s.cfg j ∧ p + erasePage s.cfg + (gran s.cfg - 1) ≤ size) :
    (doPages j ps s).1 = none ∧ ∀ a, flashByte (doPages j ps s).2.env.flash a =
      if ∃ p ∈ ps, p ≤ a ∧ a < p + erasePage s.cfg then writtenByte s.env.flash j a else flashByte s.env.flash a := by
  induction ps generalizing s with
  | nil => simp [doPages]
  | cons p ps ih =>
    obtain ⟨hp, hroom⟩ := hps p List.mem_cons_self
    obtain ⟨hnone, hbytes⟩ := doPage_of_ideal hsrc hport hwf hp hroom
    obtain ⟨evs, hrun, hkept, -⟩ := doPage_cases j p s
    have hnext : doPages j (p :: ps) s = doPages j ps (doPage j p s).2 := by simp only [doPages, hnone]
    obtain ⟨hnone', hbytes'⟩ := ih (hrun.idealPort hport) (hkept hwf).1
      (fun q hq => hrun.cfg.symm ▸ hps q (List.mem_cons_of_mem _ hq))
    rw [hnext]
    refine ⟨hnone', fun a => ?_⟩
    rw [hbytes' a, hrun.cfg, writtenByte_idem (m := s.env.flash)]
    · simp only [List.exists_mem_cons_iff]
      split_ifs with hlater hany hany
      · rfl
      · exact absurd (.inr hlater) hany
      · rw [hbytes a, if_pos (hany.resolve_right hlater)]
      · rw [hbytes a, if_neg fun h => hany (.inl h)]
    · rw [hbytes a]
      split_ifs
      · exact .inl rfl
      · exact .inr rfl

/-- The pages of the job cover its range, so after the loop every byte is the job's. -/
theorem flashByte_doPages {s : State} (hport : IdealPort s.env size) (hwf : s.env.flash.wf)
    (hroom : ∀ p ∈ pageList s.cfg j, p + erasePage s.cfg + (gran s.cfg - 1) ≤ size) (a : Nat) :
    flashByte (doPages j (pageList s.cfg j) s).2.env.flash a = writtenByte s.env.flash j a := by
  rw [(doPages_of_ideal hsrc hport hwf fun p hp => ⟨hp, hroom p hp⟩).2 a]
  split_ifs with hany
  · rfl
  · have hdiv := Nat.div_add_mod a (erasePage s.cfg)
    have hmod := Nat.mod_lt a (erasePage_pos s.cfg)
    rw [writtenByte, if_neg]
    rintro ⟨hafter, hbefore⟩
    refine hany ⟨erasePage s.cfg * (a / erasePage s.cfg), (mem_pageList_iff s.cfg j).mpr ⟨?_, ?_, ?_⟩, ?_, ?_⟩
    · exact Nat.mul_mod_right _ _
    all_goals unfold WriteJob.stop at hbefore; omega

omit hsrc in
/-- The range ends in the last page, so it has that page's room. -/
theorem stop_room {s : State} (hroom : ∀ p ∈ pageList s.cfg j, p + erasePage s.cfg + (gran s.cfg - 1) ≤ size)
    (hlen : j.len ≠ 0) : j.dest + j.len + (gran s.cfg - 1) ≤ size := by
  have hdiv := Nat.div_add_mod (j.dest + j.len - 1) (erasePage s.cfg)
  have hmod := Nat.mod_lt (j.dest + j.len - 1) (erasePage_pos s.cfg)
  have hlast : erasePage s.cfg * ((j.dest + j.len - 1) / erasePage s.cfg) ∈ pageList s.cfg j :=
    (mem_pageList_iff s.cfg j).mpr ⟨Nat.mul_mod_right _ _, by omega, by omega⟩
  have := hroom _ hlast
  omega

/-- Where the flash holds the job's bytes, a piece of the range reads as that piece of the source. -/
theorem flashBytes_of_written {m m' : Memory} (hbytes : ∀ a, flashByte m' a = writtenByte m j a) {i n : Nat}
    (hin : i + n ≤ j.len) : flashBytes m' (j.dest + i) n = (j.src.drop i).take n := by
  refine List.ext_getElem (by simp [length_flashBytes]; omega) fun k hk _ => ?_
  rw [length_flashBytes] at hk
  rw [getElem_flashBytes, hbytes, writtenByte, if_pos (by unfold WriteJob.stop; omega), List.getElem_take, List.getElem_drop,
    List.getD_eq_getElem _ _ (by omega)]
  congr 1
  omega

omit hsrc in
theorem checkRange_of_ideal {s : State} (hport : IdealPort s.env size) {addr len : Nat} {want : List Byte}
    (hroom : addr + len + (gran s.cfg - 1) ≤ size) (hwant : flashBytes s.env.flash addr len = want) :
    (checkRange addr len want s).1 = none := by
  simp [checkRange, readRange_of_ideal hport false hroom, hwant]

theorem verify_of_ideal {s : State} {m : Memory} (hport : IdealPort s.env size)
    (hroom : j.len ≠ 0 → j.dest + j.len + (gran s.cfg - 1) ≤ size)
    (hbytes : ∀ a, flashByte s.env.flash a = writtenByte m j a) : (verify j s).1 = none := by
  unfold verify
  split_ifs with hzero hfull
  · rfl
  · refine checkRange_of_ideal hport (hroom hzero) ?_
    simpa [← hsrc] using flashBytes_of_written hsrc hbytes (i := 0) (n := j.len) (by omega)
  · have hedge : edgeLen j ≤ j.len := Nat.min_le_right _ _
    have hend := hroom hzero
    have hfirst : (checkRange j.dest (edgeLen j) (j.src.take (edgeLen j)) s).1 = none :=
      checkRange_of_ideal hport (by omega) (flashBytes_of_written hsrc hbytes (i := 0) (by omega))
    obtain ⟨evs, hrun, hflash, -⟩ := checkRange_cases j.dest (edgeLen j) (j.src.take (edgeLen j)) s
    have hstop : j.stop - edgeLen j = j.dest + (j.len - edgeLen j) := by unfold WriteJob.stop; omega
    simp only [verifyEdges, hfirst, hstop]
    refine checkRange_of_ideal (hrun.idealPort hport) ?_ ?_
    · rw [hrun.cfg]
      omega
    · rw [hflash]
      exact flashBytes_of_written hsrc hbytes (by omega)

/-- On the ideal flash a job runs to its end and leaves its bytes. -/
theorem runJob_of_ideal {s : State} (hport : IdealPort s.env size) (hwf : s.env.flash.wf)
    (hroom : ∀ p ∈ pageList s.cfg j, p + erasePage s.cfg + (gran s.cfg - 1) ≤ size) :
    runJob j s = (none, (verify j (doPages j (pageList s.cfg j) s).2).2) ∧
      ∀ a, flashByte (runJob j s).2.env.flash a = writtenByte s.env.flash j a := by
  obtain ⟨hist, hrun, -⟩ := doPages_cases j (pageList s.cfg j) s
  have hbytes := flashByte_doPages hsrc hport hwf hroom
  have hpages := (doPages_of_ideal hsrc hport hwf fun p hp => ⟨hp, hroom p hp⟩).1
  have hverify := verify_of_ideal hsrc (hrun.idealPort hport) (fun hlen => hrun.cfg.symm ▸ stop_room hroom hlen) hbytes
  have heq : runJob j s = (none, (verify j (doPages j (pageList s.cfg j) s).2).2) := by
    simp only [runJob, hpages]
    exact Prod.ext hverify rfl
  obtain ⟨ver, -, hflash, -⟩ := verify_cases j (doPages j (pageList s.cfg j) s).2
  exact ⟨heq, fun a => by rw [heq, hflash, hbytes]⟩

end Job

/-! ## FL_WRITE (R178) and its repetition (R179) -/

theorem flWrite_of_ideal {s : State} {size : Nat} {dest len : Word} {src : List Byte} (hport : IdealPort s.env size)
    (hwf : s.env.flash.wf) (hsrc : src.length = len.toNat) (hrange : dest.toNat + len.toNat ≤ ADDR_SPACE)
    (hroom : ∀ p ∈ pageList s.cfg (jobOf dest len src), p + erasePage s.cfg + (gran s.cfg - 1) ≤ size) :
    flWrite dest len src s = returnOk (runJob (jobOf dest len src) s).2 := by
  have hok : rangeOk dest len = true := by simp [rangeOk, hrange]
  simp only [flWrite, hok, if_true, (runJob_of_ideal hsrc hport hwf hroom).1]

/-- Settles O50: the pages' loop leaves the job's bytes, which is what the verification then reads. -/
theorem idealFlashWrite : Obligations.IdealFlashWrite := by
  intro s dest len progress src size hinv hport hsrc hrange hroom
  obtain ⟨hist, ver, hrun, -⟩ := runJob_cases (jobOf dest len src) s
  exact ⟨_, congrArg Host.Outcome.next (flWrite_of_ideal hport hinv.1 hsrc hrange hroom), rfl, hrun.idealPort hport,
    (runJob_of_ideal (j := jobOf dest len src) hsrc hport hinv.1 hroom).2⟩

/-- From `s` to `t` port F was asked for reads alone, and the ideal flash stayed. -/
def ReadsOnly (s t : State) : Prop :=
  ∃ evs, FRun s t evs ∧ t.env.flash = s.env.flash ∧ ∀ e ∈ evs, ∃ b, e.txn = blkTxn b

theorem ReadsOnly.trans {s t u : State} (h : ReadsOnly s t) (k : ReadsOnly t u) : ReadsOnly s u := by
  obtain ⟨as, hrun, hflash, has⟩ := h
  obtain ⟨bs, krun, kflash, hbs⟩ := k
  exact ⟨as ++ bs, hrun.trans krun, kflash.trans hflash, fun e he => (List.mem_append.mp he).elim (has e) (hbs e)⟩

theorem verify_readsOnly (j : WriteJob) (s : State) : ReadsOnly s (verify j s).2 := by
  obtain ⟨ver, hrun, hflash, hprefix, -⟩ := verify_cases j s
  refine ⟨ver, hrun, hflash, fun e he => ?_⟩
  obtain ⟨b, -, hb⟩ := List.mem_map.mp (hprefix.subset (List.mem_map_of_mem he))
  exact ⟨b, hb.symm⟩

section Repeated
variable {size : Nat} {j : WriteJob} (hsrc : j.src.length = j.len)
include hsrc

/-- A page that holds the job's bytes already is read and left alone (the erase-skip of R176). -/
theorem doPage_of_written {s : State} (hport : IdealPort s.env size)
    (hsame : ∀ a, writtenByte s.env.flash j a = flashByte s.env.flash a) {p : Nat} (hp : p ∈ pageList s.cfg j)
    (hroom : p + erasePage s.cfg + (gran s.cfg - 1) ≤ size) :
    (doPage j p s).1 = none ∧ ReadsOnly s (doPage j p s).2 := by
  have hout := readRange_of_ideal hport false hroom
  have hsplice : splice s.cfg j p (flashBytes s.env.flash p (erasePage s.cfg)) =
      flashBytes s.env.flash p (erasePage s.cfg) := by
    rw [splice_flashBytes hp hsrc]
    simp only [hsame, flashBytes]
  have heq : doPage j p s = (none, (readRange p (erasePage s.cfg) false s).2) := by
    simp only [doPage, hout, if_true, if_pos hsplice]
  exact ⟨by rw [heq], by rw [heq]; exact readRange_state ..⟩

theorem doPages_of_written {ps : List Nat} {s : State} (hport : IdealPort s.env size)
    (hsame : ∀ a, writtenByte s.env.flash j a = flashByte s.env.flash a)
    (hps : ∀ p ∈ ps, p ∈ pageList s.cfg j ∧ p + erasePage s.cfg + (gran s.cfg - 1) ≤ size) :
    ReadsOnly s (doPages j ps s).2 := by
  induction ps generalizing s with
  | nil => exact ⟨[], .refl s, rfl, by simp⟩
  | cons p ps ih =>
    obtain ⟨hp, hroom⟩ := hps p List.mem_cons_self
    obtain ⟨hnone, hreads⟩ := doPage_of_written hsrc hport hsame hp hroom
    have hnext : doPages j (p :: ps) s = doPages j ps (doPage j p s).2 := by simp only [doPages, hnone]
    rw [hnext]
    obtain ⟨evs, hrun, hflash, -⟩ := id hreads
    exact hreads.trans (ih (hrun.idealPort hport) (hflash.symm ▸ hsame)
      fun q hq => hrun.cfg.symm ▸ hps q (List.mem_cons_of_mem _ hq))

end Repeated

theorem erasesOf_of_blkTxn {evs : List Event} (h : ∀ e ∈ evs, ∃ b, e.txn = blkTxn b) : erasesOf evs = [] := by
  refine List.filterMap_eq_nil_iff.mpr fun e he => ?_
  obtain ⟨b, hb⟩ := h e he
  rw [hb]
  rfl

theorem writesOf_of_blkTxn {evs : List Event} (h : ∀ e ∈ evs, ∃ b, e.txn = blkTxn b) : writesOf evs = [] := by
  refine List.filterMap_eq_nil_iff.mpr fun e he => ?_
  obtain ⟨b, hb⟩ := h e he
  rw [hb]
  rfl

/-- Settles O52: after the first write every page holds the job's bytes, so the second only reads. -/
theorem secondWriteIsIdempotent : Obligations.SecondWriteIsIdempotent := by
  intro s dest len progress src size hinv hport hsrc hrange hroom
  obtain ⟨hist, ver, hrun, -⟩ := runJob_cases (jobOf dest len src) s
  have hbytes := (runJob_of_ideal (j := jobOf dest len src) hsrc hport hinv.1 hroom).2
  have hwf := (runJob_flash (jobOf dest len src) s hinv.1).1
  have hfirst := flWrite_of_ideal hport hinv.1 hsrc hrange hroom
  generalize ht : returnOk (runJob (jobOf dest len src) s).2 = t at hfirst
  have hcfg : t.cfg = s.cfg := ht ▸ hrun.cfg
  have hport' : IdealPort t.env size := ht ▸ hrun.idealPort hport
  have hroom' : ∀ p ∈ pageList t.cfg (jobOf dest len src), p + erasePage t.cfg + (gran t.cfg - 1) ≤ size := hcfg.symm ▸ hroom
  have hsame : ∀ a, writtenByte t.env.flash (jobOf dest len src) a = flashByte t.env.flash a := fun a => by
    have := hbytes a
    rw [← ht]
    exact (writtenByte_idem (.inl this)).trans this.symm
  have hsecond := flWrite_of_ideal hport' (ht ▸ hwf) hsrc hrange hroom'
  have hreads : ReadsOnly t (runJob (jobOf dest len src) t).2 := by
    rw [(runJob_of_ideal (j := jobOf dest len src) hsrc hport' (ht ▸ hwf) hroom').1]
    exact (doPages_of_written hsrc hport' hsame fun p hp => ⟨hp, hroom' p hp⟩).trans (verify_readsOnly ..)
  obtain ⟨evs, hrun', hflash, hreads⟩ := hreads
  exact ⟨t, _, evs, congrArg Host.Outcome.next hfirst, congrArg Host.Outcome.next hsecond, ht ▸ rfl, rfl, hrun'.trace,
    erasesOf_of_blkTxn hreads, writesOf_of_blkTxn hreads, hflash⟩

end Sys2Proof.Proofs
end
